-- ==== Sys2Proof/Word.lean ====
section
/-! DEFINITION. The words the block handles, and the names of its two ports. -/

namespace Sys2Proof

/-- A 32-bit command word (30_encoding R101). -/
abbrev CmdWord := BitVec 32

/-- A ring sample: bits 14..0 are the duration, bit 15 is reserved (10_state R50). -/
abbrev Sample := BitVec 16

/-- One byte of a message buffer (10_state R52). -/
abbrev Byte := BitVec 8

/-- The two command ports (30_encoding R100): `p` is the producer's, `c` the consumer's. -/
inductive Port where
  | p
  | c
  deriving DecidableEq, Repr

end Sys2Proof
end

