-- ==== Sys2Proof/Syntax.lean ====
section
/-! DEFINITION. The 20 commands (30_encoding R104), one constructor per row of the opcode table. -/

namespace Sys2Proof

/-- A command with its operand field. Format I carries `imm16` (R103), format B its one bit, format D the whole `imm16`,
whose top bit a well-formed command has 0 (`Instr.wf`). -/
inductive Instr where
  | edge
  | count
  | isfull
  | isempty
  | pop
  | peek (offset : BitVec 16)
  | adv (k : BitVec 16)
  | enable (en : Bool)
  | seldev (profileId : BitVec 16)
  | classify (imm : BitVec 16)
  | synctrain
  | decbit
  | step
  | service
  | take (maxLen : BitVec 16)
  | stats
  | status
  | syncx
  | ovrcnt
  | rdprof (idx : BitVec 16)
  deriving DecidableEq, Repr

end Sys2Proof
end

