-- ==== Sys2Proof/WellFormed.lean ====
section
/-! DEFINITION. Which commands can be written as a word. -/

namespace Sys2Proof

/-- The operand constraints of 30_encoding R103 that the types of `Instr` do not already impose: format D has
`imm16[15] = 0`. -/
def Instr.wf : Instr → Bool
  | .classify imm => imm.getLsbD 15 == false
  | .edge => true
  | .count => true
  | .isfull => true
  | .isempty => true
  | .pop => true
  | .peek _ => true
  | .adv _ => true
  | .enable _ => true
  | .seldev _ => true
  | .synctrain => true
  | .decbit => true
  | .step => true
  | .service => true
  | .take _ => true
  | .stats => true
  | .status => true
  | .syncx => true
  | .ovrcnt => true
  | .rdprof _ => true

end Sys2Proof
end

