-- ==== Sys2Proof/Decode.lean ====
section
/-! DEFINITION. Decoding a command word presented on a port (30_encoding R101 to R110), and the encoder. -/

namespace Sys2Proof

/-- Why a word is no command on the port it came in on (30_encoding R110). Each is the one status ILLEGAL to the host. -/
inductive DecodeReject where
  /-- the opcode byte is none of the 20 -/
  | unassignedOpcode
  /-- the opcode belongs to the other port -/
  | wrongPort
  /-- `cmd[23:16]` is not 0 -/
  | reservedBits
  /-- `imm16` breaks its format -/
  | operandBits
  deriving DecidableEq, Repr

/-- The four formats (30_encoding R103). -/
inductive Format where
  | n
  | i
  | b
  | d
  deriving DecidableEq, Repr

/-- `cmd[31:24]` -/
def opcodeField (w : CmdWord) : BitVec 8 := w.extractLsb' 24 8

/-- `cmd[23:16]` -/
def reservedField (w : CmdWord) : BitVec 8 := w.extractLsb' 16 8

/-- `cmd[15:0]` -/
def imm16Field (w : CmdWord) : BitVec 16 := w.extractLsb' 0 16

/-- What a format demands of `imm16` (30_encoding R103). -/
def immFits (f : Format) (imm : BitVec 16) : Bool :=
  match f with
  | .n => imm == 0
  | .i => true
  | .b => imm.extractLsb' 1 15 == 0
  | .d => imm.getLsbD 15 == false

/-- The opcode map (30_encoding R104): the port, the format, and the command an operand field makes. -/
def opcodeMap (op : BitVec 8) : Option (Port × Format × (BitVec 16 → Instr)) :=
  match op with
  | 0x01#8 => some (.p, .n, fun _ => .edge)
  | 0x10#8 => some (.c, .n, fun _ => .count)
  | 0x11#8 => some (.c, .n, fun _ => .isfull)
  | 0x12#8 => some (.c, .n, fun _ => .isempty)
  | 0x13#8 => some (.c, .n, fun _ => .pop)
  | 0x14#8 => some (.c, .i, .peek)
  | 0x15#8 => some (.c, .i, .adv)
  | 0x20#8 => some (.c, .b, fun imm => .enable (imm.getLsbD 0))
  | 0x21#8 => some (.c, .i, .seldev)
  | 0x30#8 => some (.c, .d, .classify)
  | 0x31#8 => some (.c, .n, fun _ => .synctrain)
  | 0x32#8 => some (.c, .n, fun _ => .decbit)
  | 0x33#8 => some (.c, .n, fun _ => .step)
  | 0x34#8 => some (.c, .n, fun _ => .service)
  | 0x40#8 => some (.c, .i, .take)
  | 0x50#8 => some (.c, .n, fun _ => .stats)
  | 0x51#8 => some (.c, .n, fun _ => .status)
  | 0x52#8 => some (.c, .n, fun _ => .syncx)
  | 0x53#8 => some (.c, .n, fun _ => .ovrcnt)
  | 0x54#8 => some (.c, .i, .rdprof)
  | _ => none

/-- Decoding is total and reads no state (30_encoding R107); every rejection has a name. -/
def decode (port : Port) (w : CmdWord) : Except DecodeReject Instr :=
  match opcodeMap (opcodeField w) with
  | none => .error .unassignedOpcode
  | some (rowPort, fmt, build) =>
    if rowPort ≠ port then .error .wrongPort
    else if reservedField w ≠ 0 then .error .reservedBits
    else if immFits fmt (imm16Field w) = false then .error .operandBits
    else .ok (build (imm16Field w))

/-- The port a command belongs to (30_encoding R104). -/
def portOf : Instr → Port
  | .edge => .p
  | .count => .c
  | .isfull => .c
  | .isempty => .c
  | .pop => .c
  | .peek _ => .c
  | .adv _ => .c
  | .enable _ => .c
  | .seldev _ => .c
  | .classify _ => .c
  | .synctrain => .c
  | .decbit => .c
  | .step => .c
  | .service => .c
  | .take _ => .c
  | .stats => .c
  | .status => .c
  | .syncx => .c
  | .ovrcnt => .c
  | .rdprof _ => .c

/-- The opcode byte of a command (30_encoding R104). -/
def opcodeOf : Instr → BitVec 8
  | .edge => 0x01
  | .count => 0x10
  | .isfull => 0x11
  | .isempty => 0x12
  | .pop => 0x13
  | .peek _ => 0x14
  | .adv _ => 0x15
  | .enable _ => 0x20
  | .seldev _ => 0x21
  | .classify _ => 0x30
  | .synctrain => 0x31
  | .decbit => 0x32
  | .step => 0x33
  | .service => 0x34
  | .take _ => 0x40
  | .stats => 0x50
  | .status => 0x51
  | .syncx => 0x52
  | .ovrcnt => 0x53
  | .rdprof _ => 0x54

/-- The operand field of a command (30_encoding R103, R105). -/
def immOf : Instr → BitVec 16
  | .edge => 0
  | .count => 0
  | .isfull => 0
  | .isempty => 0
  | .pop => 0
  | .peek offset => offset
  | .adv k => k
  | .enable en => if en then 1 else 0
  | .seldev profileId => profileId
  | .classify imm => imm
  | .synctrain => 0
  | .decbit => 0
  | .step => 0
  | .service => 0
  | .take maxLen => maxLen
  | .stats => 0
  | .status => 0
  | .syncx => 0
  | .ovrcnt => 0
  | .rdprof idx => idx

/-- The word of a command: opcode, eight zero bits, operand field (30_encoding R101). -/
def encode (i : Instr) : CmdWord := opcodeOf i ++ 0#8 ++ immOf i

/-- The port that carries a word's command: P when only port P takes the word, else C (where an illegal word is refused). -/
def portFor (w : CmdWord) : Port :=
  match decode .p w with
  | .ok _ => .p
  | .error _ => .c

/-- The host's view of the decoder: the bits `w` read as one 32-bit word on the port that takes it. No word is a command
on both ports (30_encoding R107). A command has exactly 32 bits, so a longer `w` is none. -/
def decodeTableWord (nbits w : Nat) : Option Instr :=
  if nbits ≤ 32 ∧ w < 2 ^ 32 then
    match decode (portFor (BitVec.ofNat 32 w)) (BitVec.ofNat 32 w) with
    | .ok i => some i
    | .error _ => none
  else none

end Sys2Proof
end

