-- ==== Sys2Proof/Config.lean ====
section
/-! DEFINITION. The implementation parameters of 00_scope R5 and the shape of one row of the device-type table. -/

namespace Sys2Proof

/-- A timing profile as the device-type table holds it: fields 0 to 9 of 10_state R40, in the table's order and widths.
Field 10, `profile_id`, is the table's key. -/
structure Profile where
  syncW : BitVec 16
  shortW : BitVec 16
  longW : BitVec 16
  termMin : BitVec 16
  tol : BitVec 16
  minSync : BitVec 16
  maxSync : BitVec 16
  minMsgBytes : BitVec 8
  maxMsgBytes : BitVec 8
  fbEn : Bool
  deriving DecidableEq, Repr

/-- The profile registers after reset: every field 0 (10_state R40, R59). -/
def Profile.zero : Profile :=
  { syncW := 0, shortW := 0, longW := 0, termMin := 0, tol := 0, minSync := 0, maxSync := 0,
    minMsgBytes := 0, maxMsgBytes := 0, fbEn := false }

/-- The parameters of one instance of the block (00_scope R5). `profiles` is the partial function PROFILES written as a
list of keys and rows; a key's first row counts (DESIGN CHOICE, log entry 1). -/
structure Config where
  n : Nat
  tsMod : Nat
  msgBufBytes : Nat
  ctrW : Nat
  profiles : List (BitVec 16 × Profile)
  deriving DecidableEq, Repr

/-- The legal ranges of 00_scope R5. Outside them no instance of the block exists (93 U13). -/
abbrev Config.Legal (c : Config) : Prop :=
  (2 ≤ c.n ∧ c.n ≤ 65536) ∧ (32768 ≤ c.tsMod ∧ c.tsMod ≤ 4294967296) ∧
  (1 ≤ c.msgBufBytes ∧ c.msgBufBytes ≤ 255) ∧ (1 ≤ c.ctrW ∧ c.ctrW ≤ 32)

/-- Profile F1 of 95_test_vectors section 1. -/
def Profile.f1 : Profile :=
  { syncW := 600, shortW := 200, longW := 400, termMin := 2000, tol := 50, minSync := 4, maxSync := 8,
    minMsgBytes := 1, maxMsgBytes := 2, fbEn := true }

/-- The device-type table of the fixture (95_test_vectors section 1); identifier 3 is undefined there. -/
def Config.fixtureProfiles : List (BitVec 16 × Profile) :=
  [(1, Profile.f1),
   (2, { Profile.f1 with longW := 280 }),
   (4, { Profile.f1 with minMsgBytes := 3 }),
   (5, { Profile.f1 with maxSync := 60 }),
   (6, { Profile.f1 with fbEn := false }),
   (7, { Profile.f1 with maxMsgBytes := 9 }),
   (8, { Profile.f1 with syncW := 420, termMin := 500 }),
   (9, { Profile.f1 with shortW := 30, termMin := 40000 }),
   (10, { Profile.f1 with minMsgBytes := 2, maxMsgBytes := 4 })]

/-- The defaults of 00_scope R5. DESIGN CHOICE (log entry 1): the spec fixes no instance, and `State.reset` needs one. -/
def Config.default : Config :=
  { n := 64, tsMod := 4294967296, msgBufBytes := 8, ctrW := 32, profiles := Config.fixtureProfiles }

/-- Free value (log entry 2): the 32-bit `r1` of a SYNCTRAIN that retired `n >= 2^32` samples, which 42_sync_detector R161
does not state. -/
opaque Config.wideCount : Nat → BitVec 32

end Sys2Proof
end

