-- ==== Sys2Proof/Machine/State.lean ====
section
/-! DEFINITION. The state of the block (10_state), its outputs and inputs, the reasons a step can stop, and reset. -/

namespace Sys2Proof.Machine

/-- Why the model stops where the spec has no such state or no end. No run from reset meets either. -/
inductive Fault where
  /-- Raised by every meaning when a register holds a value outside the spec's legal values (10_state R21, R22, R24, R26,
  R43 to R45; 20_memory R74). The spec has no such state. Safe. -/
  | registerOutOfRange
  /-- Raised by SYNCTRAIN, STEP and SERVICE if the command had not ended within its fuel (70_reset_and_hazards R296, 93 U15).
  It cannot happen for the finite inputs State holds. Safe. -/
  | didNotReturn
  deriving DecidableEq, Repr

/-- Why the model takes no input, or gives no meaning. -/
inductive Refusal where
  /-- Raised by `exec` alone, for an instruction that has no meaning yet. Safe. -/
  | notModelled (mnemonic : String)
  /-- Raised by every meaning when the parameters are outside 00_scope R5: no such instance exists (93 U13). Safe. -/
  | noSuchInstance
  /-- Raised by every meaning when an input is outside its bus's range (30_encoding R102, 93 U12). Safe. -/
  | inputOutOfRange
  deriving DecidableEq, Repr

/-- The protocol state register's five values (10_state R27). -/
inductive ProtocolState where
  | syncSeek
  | syncPulseTrain
  | accumulateWait
  | accumulateData
  | postData
  deriving DecidableEq, Repr

/-- The status of a response (30_encoding R109). -/
inductive Status where
  | ok
  | illegal
  | nocfg
  | precond
  | cfgerr
  deriving DecidableEq, Repr

/-- The response that ends a command (30_encoding R108). -/
structure Response where
  status : Status
  r0 : BitVec 32
  r1 : BitVec 32
  data : List Byte
  deriving DecidableEq, Repr

/-- The event catalogue (60_exceptions R250), each with the info it records. -/
inductive Event where
  | published (byteCount : Nat)
  | captureOverflow (dur : Nat)
  | malformed (bitIndex : Nat)
  | undersized (byteCount : Nat)
  | oversized (byteCount : Nat)
  | overrun (byteCount : Nat)
  | illegalCommand (word : CmdWord) (port : Port)
  | configError (profileId : BitVec 16)
  deriving DecidableEq, Repr

/-- A command word waiting on a port, with the value `ts_now` has when the command is run (30_encoding R102). -/
structure Command where
  word : CmdWord
  ts : Nat
  deriving DecidableEq, Repr

/-- The memory form: (index, cell) pairs, indices strictly rising, no cell equal to what an unlisted index reads as. For
8-bit cells this is `List Host.Cell`. -/
abbrev Cells (w : Nat) := List (Nat × BitVec w)

/-- What a reset leaves where the spec leaves any value (10_state R62, 93 U5). -/
structure Draw where
  lastEdge : Nat
  rb : Cells 16
  mb0 : Cells 8
  mb1 : Cells 8
  deriving DecidableEq, Repr

/-- The block: the 28 registers and three memories of 10_state R20 first, then the model's own fields (the parameters, the
inputs waiting, the outputs given), which the spec does not count as state (00_scope R8; log entries 1, 5, 6, 7). -/
structure State where
  /-- R21 -/
  head : Nat
  /-- R22 -/
  tail : Nat
  /-- R24 -/
  lastEdge : Nat
  /-- R25 -/
  bitIndex : BitVec 16
  /-- R26 -/
  readyLen : BitVec 8
  /-- R27 -/
  state : ProtocolState
  /-- R28 -/
  enable : Bool
  /-- R29; the output pin `msg_avail` is this flag (30_encoding R102) -/
  avail : Bool
  /-- R30; `false` is buffer 0 -/
  pend : Bool
  /-- R31 -/
  ovf : Bool
  /-- R32 -/
  oversize : Bool
  /-- R33 -/
  cfgValid : Bool
  /-- R40, fields 0 to 9 -/
  profile : Profile
  /-- R40, field 10 -/
  profileId : BitVec 16
  /-- R43 -/
  attempts : Nat
  /-- R44 -/
  errors : Nat
  /-- R45 -/
  overruns : Nat
  /-- R46 -/
  syncMin : BitVec 15
  /-- R46 -/
  syncMax : BitVec 15
  /-- R51 -/
  rb : Cells 16
  /-- R52 -/
  mb0 : Cells 8
  /-- R52 -/
  mb1 : Cells 8
  /-- the parameters (00_scope R5); no step changes them -/
  cfg : Config
  /-- the input bus `ts_now` (30_encoding R102) -/
  tsNow : Nat
  /-- words waiting on port P, first to be run first -/
  portP : List Command
  /-- words waiting on port C, first to be run first -/
  portC : List Command
  /-- whose atom goes next, one entry per choice (20_memory R84) -/
  order : List Port
  /-- an asserted reset input (70_reset_and_hazards R280) -/
  rst : Option Draw
  /-- responses given so far, oldest first, with their port -/
  responses : List (Port × Response)
  /-- the event trace (60_exceptions R250), oldest first -/
  events : List Event
  deriving DecidableEq, Repr

/-- The state after `rst`, column "after rst" of 10_state R59, for parameters `c` and the unspecified values `d`. -/
def State.resetOf (c : Config) (d : Draw) : State :=
  { head := 0, tail := 0, lastEdge := d.lastEdge, bitIndex := 0, readyLen := 0, state := .syncSeek,
    enable := false, avail := false, pend := false, ovf := false, oversize := false, cfgValid := false,
    profile := Profile.zero, profileId := 0, attempts := 0, errors := 0, overruns := 0,
    syncMin := 32767, syncMax := 0, rb := d.rb, mb0 := d.mb0, mb1 := d.mb1,
    cfg := c, tsNow := 0, portP := [], portC := [], order := [], rst := none, responses := [], events := [] }

/-- DESIGN CHOICE (log entry 4), unsafe: the spec says these cells hold any value after reset; `State.reset` has 0. -/
def Draw.zero : Draw := { lastEdge := 0, rb := [], mb0 := [], mb1 := [] }

/-- The machine right after reset, with the default parameters (log entry 1) and the zero draw (log entry 4). -/
def State.reset : State := State.resetOf Config.default Draw.zero

end Sys2Proof.Machine
end

