-- ==== Sys2Proof/Machine/Operands.lean ====
section
/-! DEFINITION. Operand assembly, result codes, profile fields and the integer arithmetic of 47_arithmetic R245. -/

namespace Sys2Proof.Machine

/-- `(a - b) mod m`, the least non-negative residue over the integers (00_scope R10). -/
def modSub (a b m : Nat) : Nat := (((a : Int) - (b : Int)) % (m : Int)).toNat

/-- `sat_add1_W(c) = min(c + 1, 2^W - 1)` (00_scope R10). -/
def satAdd1 (w c : Nat) : Nat := min (c + 1) (2 ^ w - 1)

/-- A format I operand: `imm16` as an unsigned integer (30_encoding R105). -/
def operandI (imm : BitVec 16) : Nat := imm.toNat

/-- A format D operand: `imm16[14:0]` (30_encoding R105). -/
def operandD (imm : BitVec 16) : Nat := (imm.extractLsb' 0 15).toNat

/-- A bit as the integer 0 or 1. -/
def bitVal (b : Bool) : Nat := if b then 1 else 0

/-- `PulseType` (10_state R54). -/
inductive PulseType where
  | shortData
  | longData
  | sync
  | termination
  | invalid
  deriving DecidableEq, Repr

/-- `BitDecodeResult` (10_state R54). -/
inductive BitDecodeResult where
  | bit0
  | bit1
  | termination
  | invalid
  deriving DecidableEq, Repr

/-- The result of a handler (44_state_machine R190). -/
inductive Progress where
  | progress
  | blocked
  deriving DecidableEq, Repr

/-- Codes of `PulseType` (10_state R54). -/
def pulseCode : PulseType → Nat
  | .shortData => 0
  | .longData => 1
  | .sync => 2
  | .termination => 3
  | .invalid => 4

/-- Codes of `BitDecodeResult` (10_state R54). -/
def bitCode : BitDecodeResult → Nat
  | .bit0 => 0
  | .bit1 => 1
  | .termination => 2
  | .invalid => 3

/-- Codes of the protocol state (10_state R27). -/
def stateCode : ProtocolState → Nat
  | .syncSeek => 0
  | .syncPulseTrain => 1
  | .accumulateWait => 2
  | .accumulateData => 3
  | .postData => 4

/-- Codes of the response status (30_encoding R109). -/
def statusCode : Status → Nat
  | .ok => 0
  | .illegal => 1
  | .nocfg => 2
  | .precond => 3
  | .cfgerr => 4

/-- Codes of the events (60_exceptions R250); no port shows them. -/
def eventCode : Event → Nat
  | .published _ => 0
  | .captureOverflow _ => 1
  | .malformed _ => 2
  | .undersized _ => 3
  | .oversized _ => 4
  | .overrun _ => 5
  | .illegalCommand _ _ => 6
  | .configError _ => 7

/-- A duration lies in the band around `width` (41_classifier R150): integer comparison, both ends inside. -/
def inBand (width tol : BitVec 16) (d : Nat) : Bool :=
  decide ((width.toNat : Int) - (tol.toNat : Int) ≤ (d : Int)) && decide (d ≤ width.toNat + tol.toNat)

/-- V1, V2 and V3 of 10_state R41. -/
def profileValid (c : Config) (p : Profile) : Bool :=
  decide ((p.shortW.toNat : Int) + p.tol.toNat < (p.longW.toNat : Int) - p.tol.toNat) &&
  (decide (1 ≤ p.minMsgBytes.toNat) && decide (p.minMsgBytes.toNat ≤ p.maxMsgBytes.toNat) &&
    decide (p.maxMsgBytes.toNat ≤ c.msgBufBytes)) &&
  (decide (p.maxSync.toNat + 8 * p.minMsgBytes.toNat ≤ c.n - 1) && decide (16 * p.minMsgBytes.toNat ≤ c.n - 1))

/-- `PROFILES(profile_id)`: the first row with that key, if any (00_scope R5). -/
def lookupProfile : List (BitVec 16 × Profile) → BitVec 16 → Option Profile
  | [], _ => none
  | (key, p) :: rest, pid => if key = pid then some p else lookupProfile rest pid

/-- The profile register with index `idx` in the table of 10_state R40; none above 10. -/
def profileField (s : State) (idx : Nat) : Option Nat :=
  match idx with
  | 0 => some s.profile.syncW.toNat
  | 1 => some s.profile.shortW.toNat
  | 2 => some s.profile.longW.toNat
  | 3 => some s.profile.termMin.toNat
  | 4 => some s.profile.tol.toNat
  | 5 => some s.profile.minSync.toNat
  | 6 => some s.profile.maxSync.toNat
  | 7 => some s.profile.minMsgBytes.toNat
  | 8 => some s.profile.maxMsgBytes.toNat
  | 9 => some (bitVal s.profile.fbEn)
  | 10 => some s.profileId.toNat
  | _ => none

end Sys2Proof.Machine
end

