-- ==== Sys2Proof/Machine/Ops.lean ====
section
/-! DEFINITION. The named operations over memory, ring, responses and events, reset, and what is in range. -/

namespace Sys2Proof.Machine

/-- What an index no write has listed reads as. DESIGN CHOICE (log entry 3), unsafe: the spec leaves the contents after
reset unspecified (10_state R51, R52). -/
def unlisted (w : Nat) : BitVec w := 0#w

/-- The canonical form of a memory: indices strictly rising, nothing listed that an unlisted index would read as. -/
abbrev Memory.wf {w : Nat} (m : Cells w) : Prop :=
  m.Pairwise (fun a b => a.1 < b.1) ∧ ∀ e ∈ m, e.2 ≠ unlisted w

/-- Every listed index is below `size`. -/
abbrev Memory.within {w : Nat} (m : Cells w) (size : Nat) : Prop := ∀ e ∈ m, e.1 < size

/-- `MemRead` (00_scope R11). -/
def memRead {w : Nat} : Cells w → Nat → BitVec w
  | [], _ => unlisted w
  | (a, v) :: rest, i => if a = i then v else memRead rest i

/-- `MemWrite` (00_scope R11), keeping the canonical form. -/
def memWrite {w : Nat} : Cells w → Nat → BitVec w → Cells w
  | [], i, v => if v = unlisted w then [] else [(i, v)]
  | (a, x) :: rest, i, v =>
    if i < a then (if v = unlisted w then (a, x) :: rest else (i, v) :: (a, x) :: rest)
    else if i = a then (if v = unlisted w then rest else (i, v) :: rest)
    else (a, x) :: memWrite rest i v

/-- `MB[b]`, `false` being buffer 0 (10_state R30, R52). -/
def msgBuf (b : Bool) (s : State) : Cells 8 := if b then s.mb1 else s.mb0

/-- `MemRead(MB, b, i)` -/
def mbRead (b : Bool) (i : Nat) (s : State) : Byte := memRead (msgBuf b s) i

/-- `MemWrite(MB, b, i, v)` -/
def mbWrite (b : Bool) (i : Nat) (v : Byte) (s : State) : State :=
  if b then { s with mb1 := memWrite s.mb1 i v } else { s with mb0 := memWrite s.mb0 i v }

/-- `rb_count()` (40_ring_buffer R130, 10_state R23). -/
def rbCount (s : State) : Nat := modSub s.tail s.head s.cfg.n

/-- The slot of the buffered sample at offset `o` (20_memory R71). -/
def rbSlot (o : Nat) (s : State) : Nat := (s.head + o) % s.cfg.n

/-- `rb_peek(o)`: bits 14..0 of the sample at offset `o` (40_ring_buffer R130). -/
def rbPeek (o : Nat) (s : State) : Nat := ((memRead s.rb (rbSlot o s)).extractLsb' 0 15).toNat

/-- `rb_adv(k)` (40_ring_buffer R130). -/
def rbAdv (k : Nat) (s : State) : State := { s with head := (s.head + k) % s.cfg.n }

/-- `respond(status, r0, r1, data)` on a port (00_scope R11, 30_encoding R108). -/
def respond (port : Port) (status : Status) (r0 r1 : Nat) (data : List Byte) (s : State) : State :=
  { s with
    responses :=
      s.responses ++ [(port, { status := status, r0 := BitVec.ofNat 32 r0, r1 := BitVec.ofNat 32 r1, data := data })] }

/-- An `OK` response of a port C command without data. -/
def respondC (r0 r1 : Nat) (s : State) : State := respond .c .ok r0 r1 [] s

/-- `refuse(status)` on port C: a response with no effect (00_scope R11, R12). -/
def refuseC (status : Status) (s : State) : State := respond .c status 0 0 [] s

/-- `raise E(info)`, the block's whole notion of an exception: it is recorded and transfers no control
(60_exceptions R250, R257). -/
def raise (e : Event) (s : State) : State := { s with events := s.events ++ [e] }

/-- What an illegal word does on its port (30_encoding R110). -/
def illegalCommand (port : Port) (word : CmdWord) (s : State) : State :=
  respond port .illegal 0 0 [] (raise (.illegalCommand word port) s)

/-- The draw of a reset fits the cells it fills (10_state R62). -/
abbrev drawInRange (c : Config) (d : Draw) : Prop :=
  d.lastEdge < c.tsMod ∧ (Memory.wf d.rb ∧ Memory.within d.rb c.n) ∧
  (Memory.wf d.mb0 ∧ Memory.within d.mb0 c.msgBufBytes) ∧ (Memory.wf d.mb1 ∧ Memory.within d.mb1 c.msgBufBytes)

/-- Every value of `ts_now` is in `[0, TS_MOD)` (30_encoding R102), and so is what an asserted reset leaves. -/
abbrev inputsInRange (s : State) : Prop :=
  s.tsNow < s.cfg.tsMod ∧ (∀ cmd ∈ s.portP, cmd.ts < s.cfg.tsMod) ∧ (∀ cmd ∈ s.portC, cmd.ts < s.cfg.tsMod) ∧
  (∀ d ∈ s.rst, drawInRange s.cfg d)

/-- Every register is within the legal values 10_state gives it (R21, R22, R24, R26, R43 to R45; 20_memory R74 for
`max_msg_bytes`). Registers of a fixed width are so by their type. -/
abbrev regsInRange (s : State) : Prop :=
  s.head < s.cfg.n ∧ s.tail < s.cfg.n ∧ s.lastEdge < s.cfg.tsMod ∧
  s.attempts < 2 ^ s.cfg.ctrW ∧ s.errors < 2 ^ s.cfg.ctrW ∧ s.overruns < 2 ^ s.cfg.ctrW ∧
  s.readyLen.toNat ≤ s.cfg.msgBufBytes ∧ s.profile.maxMsgBytes.toNat ≤ s.cfg.msgBufBytes

/-- A state of some instance of the block with possible inputs. -/
abbrev InRange (s : State) : Prop := s.cfg.Legal ∧ inputsInRange s ∧ regsInRange s

/-- Run `k` in a state of the block; elsewhere stop by name (93 U12, U13). -/
def guarded (s : State) (k : State → Host.Outcome State Fault Refusal) : Host.Outcome State Fault Refusal :=
  if s.cfg.Legal then
    if inputsInRange s then
      if regsInRange s then k s else .fault .registerOutOfRange
    else .refused .inputOutOfRange
  else .refused .noSuchInstance

/-- A command that always ends: its next state. -/
def completes (s : State) (f : State → State) : Host.Outcome State Fault Refusal :=
  guarded s (fun t => .next (f t))

/-- A composite command: its next state, or the stop that says its fuel ended (70_reset_and_hazards R296). -/
def returns (s : State) (f : State → Option State) : Host.Outcome State Fault Refusal :=
  guarded s (fun t =>
    match f t with
    | some u => .next u
    | none => .fault .didNotReturn)

/-- One turn of a loop of the spec's pseudocode: go round again, or end with a result. -/
inductive Turn (α β : Type) where
  | again (a : α) (s : State)
  | done (b : β) (s : State)

/-- A loop of the spec's pseudocode, on fuel; `none` says the fuel ended. -/
def iterate {α β : Type} (body : α → State → Option (Turn α β)) : Nat → α → State → Option (β × State)
  | 0, _, _ => none
  | fuel + 1, a, s =>
    match body a s with
    | none => none
    | some (.again a' s') => iterate body fuel a' s'
    | some (.done b s') => some (b, s')

/-- The most samples a composite command can still see: those buffered and those waiting as edges. -/
def supply (s : State) : Nat := rbCount s + s.portP.length

/-- Fuel for a loop that retires a sample each turn. -/
def ringFuel (s : State) : Nat := supply s + 1

/-- Fuel for SERVICE: a round trip through the five states retires at least one sample (44_state_machine R198). -/
def serviceFuel (s : State) : Nat := 5 * supply s + 10

/-- `rst` (70_reset_and_hazards R280): every register to its reset value, the unspecified cells to the draw. The parameters,
the waiting inputs and the record of outputs are no state of the block and stay (log entries 5, 7). -/
def applyReset (d : Draw) (s : State) : State :=
  { State.resetOf s.cfg d with
    tsNow := s.tsNow, portP := s.portP, portC := s.portC, order := s.order,
    responses := s.responses, events := s.events }

/-- Which waiting word is run next (20_memory R84): the port `order` names if a word waits there, else the other port's.
An empty `order` names port C (DESIGN CHOICE, log entry 6). `none`: no word waits. -/
def nextCommand (s : State) : Option (Port × Command × State) :=
  match s.order.headD .c, s.portP, s.portC with
  | .p, cmd :: rest, _ => some (.p, cmd, { s with portP := rest, tsNow := cmd.ts, order := s.order.tail })
  | .p, [], cmd :: rest => some (.c, cmd, { s with portC := rest, tsNow := cmd.ts, order := s.order.tail })
  | .c, _, cmd :: rest => some (.c, cmd, { s with portC := rest, tsNow := cmd.ts, order := s.order.tail })
  | .c, cmd :: rest, [] => some (.p, cmd, { s with portP := rest, tsNow := cmd.ts, order := s.order.tail })
  | .p, [], [] => none
  | .c, [], [] => none

/-- `s` with a word waiting first on the port that takes it, that port's turn next, and no reset asserted. -/
def placeWord (w : CmdWord) (s : State) : State :=
  match portFor w with
  | .p => { s with portP := { word := w, ts := s.tsNow } :: s.portP, order := .p :: s.order, rst := none }
  | .c => { s with portC := { word := w, ts := s.tsNow } :: s.portC, order := .c :: s.order, rst := none }

end Sys2Proof.Machine
end

