-- ==== Sys2Proof/Machine/Flags.lean ====
section
/-! DEFINITION. The flag computations and the STATUS view (10_state R28 to R33, R47). -/

namespace Sys2Proof.Machine

/-- The ring is full (10_state R23). -/
def ringFull (s : State) : Bool := rbCount s == s.cfg.n - 1

/-- The ring is empty (10_state R23). -/
def ringEmpty (s : State) : Bool := rbCount s == 0

/-- The three-bit code of the protocol state (10_state R27). -/
def stateBits (s : State) : BitVec 3 := BitVec.ofNat 3 (stateCode s.state)

/-- `r0` of STATUS (10_state R47): from bit 8 down, `oversize`, `cfg_valid`, `ovf`, `pend`, `avail`, `enable`, `state`. -/
def statusR0 (s : State) : BitVec 32 :=
  0#23 ++ BitVec.ofBool s.oversize ++ BitVec.ofBool s.cfgValid ++ BitVec.ofBool s.ovf ++ BitVec.ofBool s.pend ++
    BitVec.ofBool s.avail ++ BitVec.ofBool s.enable ++ stateBits s

/-- `r1` of STATUS (10_state R47): `ready_len` above `bit_index`. -/
def statusR1 (s : State) : BitVec 32 := 0#8 ++ s.readyLen ++ s.bitIndex

/-- `byte_count = bit_index >> 3` (44_state_machine R196). -/
def byteCount (s : State) : Nat := s.bitIndex.toNat / 8

/-- The size test of 44_state_machine R194: the next bit would go into byte `max_msg_bytes`. -/
def wouldExceed (s : State) : Bool := decide (s.profile.maxMsgBytes.toNat ≤ byteCount s)

/-- The malformed test of 44_state_machine R196: no bit, or a partial trailing byte. -/
def isMalformed (s : State) : Bool := s.bitIndex.toNat == 0 || s.bitIndex.toNat % 8 != 0

/-- `errors <- sat_add1(errors)` (10_state R44). -/
def countError (s : State) : State := { s with errors := satAdd1 s.cfg.ctrW s.errors }

/-- `attempts <- sat_add1(attempts)` (10_state R43). -/
def countAttempt (s : State) : State := { s with attempts := satAdd1 s.cfg.ctrW s.attempts }

/-- `overruns <- sat_add1(overruns)` (10_state R45). -/
def countOverrun (s : State) : State := { s with overruns := satAdd1 s.cfg.ctrW s.overruns }

end Sys2Proof.Machine
end

