-- ==== Sys2Proof/Machine/Classifier.lean ====
section
/-! DEFINITION. The Pulse Classifier: CLASSIFY (41_classifier). -/

namespace Sys2Proof.Machine

/-- `classify(d)`: first match wins (R150). -/
def classify (p : Profile) (d : Nat) : PulseType :=
  if inBand p.shortW p.tol d then .shortData
  else if inBand p.longW p.tol d then .longData
  else if inBand p.syncW p.tol d then .sync
  else if p.termMin.toNat ≤ d then .termination
  else .invalid

/-- CLASSIFY (R151). -/
def execClassify (imm : BitVec 16) (s : State) : Host.Outcome State Fault Refusal :=
  completes s (fun s =>
    if s.cfgValid = false then refuseC .nocfg s
    else respondC (pulseCode (classify s.profile (operandD imm))) 0 s)

end Sys2Proof.Machine
end

