-- ==== Sys2Proof/Machine/RingBuffer.lean ====
section
/-! DEFINITION. The Pulse Ring Buffer: EDGE, COUNT, ISFULL, ISEMPTY, POP, PEEK, ADV, ENABLE (40_ring_buffer), and the
producer's atoms inside a composite command (20_memory R80, R81). -/

namespace Sys2Proof.Machine

/-- The duration an edge at `now` measures: the wraparound-safe difference, clamped to 15 bits (R131). -/
def edgeDuration (now : Nat) (s : State) : Nat := min (modSub now s.lastEdge s.cfg.tsMod) 32767

/-- An accepted edge: the sample, then `tail`, then the baseline (R131). -/
def storeEdge (now : Nat) (s : State) : State :=
  { s with
    rb := memWrite s.rb s.tail (BitVec.ofNat 16 (edgeDuration now s))
    tail := (s.tail + 1) % s.cfg.n
    lastEdge := now }

/-- The EDGE atom (R131). -/
def edgeAtom (now : Nat) (s : State) : State :=
  if s.enable = false then respond .p .ok 0 0 [] s
  else if ringFull s then
    respond .p .ok 0 0 [] (raise (.captureOverflow (edgeDuration now s)) { s with ovf := true })
  else respond .p .ok 1 0 [] (storeEdge now s)

/-- A word on port P, run between two atoms of a consumer command: EDGE is the only command there (30_encoding R104). -/
def producerAtom (cmd : Command) (s : State) : State :=
  match decode .p cmd.word with
  | .ok _ => edgeAtom cmd.ts { s with tsNow := cmd.ts }
  | .error _ => illegalCommand .p cmd.word { s with tsNow := cmd.ts }

/-- The producer's turns before the consumer's next atom, as `order` schedules them. -/
def producerTurns : List Port → State → State
  | [], s => { s with order := [] }
  | .c :: rest, s => { s with order := rest }
  | .p :: rest, s =>
    match s.portP with
    | [] => producerTurns rest s
    | cmd :: cmds => producerTurns rest (producerAtom cmd { s with portP := cmds })

/-- The boundary before an atom of a composite consumer command: any number of edges may fall here (20_memory R81). -/
def boundary (s : State) : State := producerTurns s.order s

/-- EDGE (R131). -/
def execEdge (s : State) : Host.Outcome State Fault Refusal :=
  completes s (fun s => edgeAtom s.tsNow s)

/-- COUNT (R132). -/
def execCount (s : State) : Host.Outcome State Fault Refusal :=
  completes s (fun s => respondC (rbCount s) 0 s)

/-- ISFULL (R133). -/
def execIsfull (s : State) : Host.Outcome State Fault Refusal :=
  completes s (fun s => respondC (bitVal (ringFull s)) 0 s)

/-- ISEMPTY (R134). -/
def execIsempty (s : State) : Host.Outcome State Fault Refusal :=
  completes s (fun s => respondC (bitVal (ringEmpty s)) 0 s)

/-- POP (R135). -/
def execPop (s : State) : Host.Outcome State Fault Refusal :=
  completes s (fun s =>
    if rbCount s = 0 then refuseC .precond s else respondC (rbPeek 0 s) 0 (rbAdv 1 s))

/-- PEEK (R136). -/
def execPeek (offset : BitVec 16) (s : State) : Host.Outcome State Fault Refusal :=
  completes s (fun s =>
    if rbCount s ≤ operandI offset then refuseC .precond s else respondC (rbPeek (operandI offset) s) 0 s)

/-- ADV (R137). -/
def execAdv (k : BitVec 16) (s : State) : Host.Outcome State Fault Refusal :=
  completes s (fun s =>
    if rbCount s < operandI k then refuseC .precond s else respondC 0 0 (rbAdv (operandI k) s))

/-- ENABLE (R139). -/
def execEnable (en : Bool) (s : State) : Host.Outcome State Fault Refusal :=
  completes s (fun s =>
    if en = true ∧ s.cfgValid = false then refuseC .nocfg s
    else if en = true ∧ s.enable = false then respondC 0 0 { s with lastEdge := s.tsNow, enable := true }
    else if en = true then respondC 0 0 s
    else respondC 0 0 { s with enable := false })

end Sys2Proof.Machine
end

