-- ==== Sys2Proof/Machine/BitDecoder.lean ====
section
/-! DEFINITION. The Bit Decoder with clock recovery: DECBIT (43_bit_decoder). -/

namespace Sys2Proof.Machine

/-- The primary rule (R171). -/
def primaryRule : PulseType → PulseType → Option BitDecodeResult
  | .longData, .shortData => some .bit1
  | .shortData, .longData => some .bit0
  | _, _ => none

/-- The fallback rule (R172). -/
def fallbackRule (p : Profile) (d0 d1 : Nat) : Option BitDecodeResult :=
  if p.fbEn = false then none
  else if inBand p.syncW p.tol (d0 + d1) = false then none
  else if d0 = d1 then none
  else
    let s := min d0 d1
    let l := max d0 d1
    let nominalShort := (d0 + d1) / 3
    let window := l / 4
    if window < ((s : Int) - (nominalShort : Int)).natAbs then none
    else if d1 < d0 then some .bit1
    else some .bit0

/-- The final rule (R173). -/
def finalRule : PulseType → PulseType → BitDecodeResult
  | .shortData, .termination => .termination
  | _, _ => .invalid

/-- The result for a pair of durations: primary, fallback, final, the first that answers (R170). -/
def decodePair (p : Profile) (d0 d1 : Nat) : BitDecodeResult :=
  match primaryRule (classify p d0) (classify p d1) with
  | some r => r
  | none =>
    match fallbackRule p d0 d1 with
    | some r => r
    | none => finalRule (classify p d0) (classify p d1)

/-- The result is a bit (R174). -/
def isBit : BitDecodeResult → Bool
  | .bit0 => true
  | .bit1 => true
  | .termination => false
  | .invalid => false

/-- `try_decode_bit()`, a boundary before each atom; a bit retires exactly two samples (R170, R174). -/
def tryDecodeBit (s : State) : BitDecodeResult × State :=
  let s := boundary s
  let d0 := rbPeek 0 s
  let s := boundary s
  let d1 := rbPeek 1 s
  let r := decodePair s.profile d0 d1
  if isBit r then (r, rbAdv 2 (boundary s)) else (r, s)

/-- DECBIT as a sequence of atoms (R176). -/
def decbit (s : State) : State :=
  if s.cfgValid = false then refuseC .nocfg s
  else
    let s := boundary s
    if rbCount s < 2 then refuseC .precond s
    else
      let rt := tryDecodeBit s
      respondC (bitCode rt.1) 0 rt.2

/-- DECBIT (R176). -/
def execDecbit (s : State) : Host.Outcome State Fault Refusal := completes s decbit

end Sys2Proof.Machine
end

