-- ==== Sys2Proof/Machine/ConfigDiag.lean ====
section
/-! DEFINITION. Configuration and diagnostics: SELDEV, STATS, STATUS, SYNCX, OVRCNT, RDPROF (46_config_diag). -/

namespace Sys2Proof.Machine

/-- What an accepted SELDEV leaves (R231, 10_state R59 column "after an accepted SELDEV"). -/
def initRadio (p : Profile) (profileId : BitVec 16) (now : Nat) (s : State) : State :=
  { s with
    profile := p, profileId := profileId, cfgValid := true, head := s.tail, state := .syncSeek, bitIndex := 0,
    oversize := false, pend := false, avail := false, readyLen := 0, attempts := 0, errors := 0, overruns := 0,
    syncMin := 32767, syncMax := 0, ovf := false, lastEdge := now, enable := true }

/-- A refused SELDEV (R231). -/
def refuseConfig (profileId : BitVec 16) (s : State) : State :=
  refuseC .cfgerr (raise (.configError profileId) s)

/-- SELDEV (R231). -/
def execSeldev (profileId : BitVec 16) (s : State) : Host.Outcome State Fault Refusal :=
  completes s (fun s =>
    match lookupProfile s.cfg.profiles profileId with
    | none => refuseConfig profileId s
    | some p =>
      if profileValid s.cfg p then respondC 0 0 (initRadio p profileId s.tsNow s) else refuseConfig profileId s)

/-- STATS (R233). -/
def execStats (s : State) : Host.Outcome State Fault Refusal :=
  completes s (fun s => respondC s.attempts s.errors s)

/-- STATUS (R234). -/
def execStatus (s : State) : Host.Outcome State Fault Refusal :=
  completes s (fun s => respondC (statusR0 s).toNat (statusR1 s).toNat s)

/-- SYNCX (R235). -/
def execSyncx (s : State) : Host.Outcome State Fault Refusal :=
  completes s (fun s => respondC s.syncMin.toNat s.syncMax.toNat s)

/-- OVRCNT (R237). -/
def execOvrcnt (s : State) : Host.Outcome State Fault Refusal :=
  completes s (fun s => respondC s.overruns 0 s)

/-- RDPROF (R236). -/
def execRdprof (idx : BitVec 16) (s : State) : Host.Outcome State Fault Refusal :=
  completes s (fun s =>
    match profileField s (operandI idx) with
    | none => refuseC .precond s
    | some v => respondC v 0 s)

end Sys2Proof.Machine
end

