-- ==== Sys2Proof/Machine/MessageStore.lean ====
section
/-! DEFINITION. The Message Store: TAKE (45_message_store). -/

namespace Sys2Proof.Machine

/-- Bytes `0 .. len-1` of the ready buffer `MB[1 - pend]`, in increasing index (R220). -/
def readyBytes (len : Nat) (s : State) : List Byte := (List.range len).map (fun i => mbRead (!s.pend) i s)

/-- TAKE (R220). -/
def execTake (maxLen : BitVec 16) (s : State) : Host.Outcome State Fault Refusal :=
  completes s (fun s =>
    if s.avail = false then respondC 0 0 s
    else
      let len := min s.readyLen.toNat (operandI maxLen)
      respond .c .ok len s.readyLen.toNat (readyBytes len s) { s with avail := false })

end Sys2Proof.Machine
end

