-- ==== Sys2Proof/Machine/SyncDetector.lean ====
section
/-! DEFINITION. The Sync Detector: SYNCTRAIN (42_sync_detector). -/

namespace Sys2Proof.Machine

/-- The extremes with one more Sync sample (R160). -/
def widenExtremes (d : Nat) (s : State) : State :=
  { s with
    syncMin := BitVec.ofNat 15 (min s.syncMin.toNat d)
    syncMax := BitVec.ofNat 15 (max s.syncMax.toNat d) }

/-- One turn of the detector's loop, `n` Sync samples retired so far; a boundary stands before each atom (R160). -/
def syncTurn (n : Nat) (s : State) : Option (Turn Nat Nat) :=
  let s := boundary s
  if rbCount s = 0 then some (.done n s)
  else
    let s := boundary s
    let d := rbPeek 0 s
    if classify s.profile d ≠ .sync then some (.done n s)
    else some (.again (n + 1) (rbAdv 1 (boundary (widenExtremes d s))))

/-- `try_consume_sync_train()`: the number `n` of samples retired; the run succeeds when `n > min_sync` (R160). -/
def tryConsumeSyncTrain (s : State) : Option (Nat × State) :=
  iterate syncTurn (ringFuel s) 0 { s with syncMin := 32767, syncMax := 0 }

/-- The detector's success test: strictly more than `min_sync` (R160). -/
def syncSucceeds (n : Nat) (s : State) : Bool := decide (s.profile.minSync.toNat < n)

/-- The samples the detector wants buffered: `max_sync + 8 * min_msg_bytes` (R161). -/
def syncThreshold (s : State) : Nat := s.profile.maxSync.toNat + 8 * s.profile.minMsgBytes.toNat

/-- `n` as the 32-bit `r1` (R161). `n` has no bound when edges keep falling inside the command (R160), and a value that does
not fit is a free value (log entry 2). -/
def reportedCount (n : Nat) : Nat := if n < 2 ^ 32 then n else (Config.wideCount n).toNat

/-- SYNCTRAIN as a sequence of atoms (R161). -/
def synctrain (s : State) : Option State :=
  if s.cfgValid = false then some (refuseC .nocfg s)
  else
    let s := boundary s
    if rbCount s < syncThreshold s then some (refuseC .precond s)
    else
      match tryConsumeSyncTrain s with
      | none => none
      | some (n, t) => some (respondC (bitVal (syncSucceeds n t)) (reportedCount n) t)

/-- SYNCTRAIN (R161). -/
def execSynctrain (s : State) : Host.Outcome State Fault Refusal := returns s synctrain

end Sys2Proof.Machine
end

