-- ==== Sys2Proof/Machine/StateMachine.lean ====
section
/-! DEFINITION. The Protocol State Machine: STEP, SERVICE (44_state_machine). -/

namespace Sys2Proof.Machine

/-- One turn of `h_sync_seek` (R191). -/
def seekTurn (_ : Unit) (s : State) : Option (Turn Unit Progress) :=
  let s := boundary s
  if rbCount s = 0 then some (.done .blocked s)
  else
    let s := boundary s
    if classify s.profile (rbPeek 0 s) = .sync then some (.done .progress { s with state := .syncPulseTrain })
    else some (.again () (rbAdv 1 (boundary s)))

/-- `h_sync_seek()` (R191). -/
def hSyncSeek (s : State) : Option (Progress × State) := iterate seekTurn (ringFuel s) () s

/-- `h_sync_pulse_train()` (R192). -/
def hSyncPulseTrain (s : State) : Option (Progress × State) :=
  let s := boundary s
  if rbCount s < syncThreshold s then some (.blocked, s)
  else
    match tryConsumeSyncTrain s with
    | none => none
    | some (n, t) =>
      if syncSucceeds n t then
        some (.progress, { t with bitIndex := 0, oversize := false, state := .accumulateWait })
      else some (.progress, { t with state := .syncSeek })

/-- `h_accumulate_wait()` (R193). -/
def hAccumulateWait (s : State) : Option (Progress × State) :=
  let s := boundary s
  if rbCount s < 16 * s.profile.minMsgBytes.toNat then some (.blocked, s)
  else some (.progress, { s with state := .accumulateData })

/-- A byte with bit `bp` set or cleared (R194). -/
def putBit (v : Byte) (bp : Nat) (b : Nat) : Byte :=
  BitVec.ofNat 8 ((v.toNat &&& (255 - 2 ^ bp)) + b * 2 ^ bp)

/-- Store one decoded bit, most significant bit of a byte first (R194, 20_memory R72). -/
def storeBit (b : Nat) (s : State) : State :=
  let by_ := s.bitIndex.toNat / 8
  let bp := 7 - s.bitIndex.toNat % 8
  { mbWrite s.pend by_ (putBit (mbRead s.pend by_ s) bp b) s with bitIndex := s.bitIndex + 1 }

/-- The bit value of a result (R194). -/
def decodedBit (r : BitDecodeResult) : Nat := if r = .bit1 then 1 else 0

/-- One turn of `h_accumulate_data` (R194). -/
def dataTurn (_ : Unit) (s : State) : Option (Turn Unit Progress) :=
  let s := boundary s
  if rbCount s < 2 then some (.done .blocked s)
  else
    let rt := tryDecodeBit s
    if isBit rt.1 then
      if wouldExceed rt.2 then some (.done .progress { rt.2 with oversize := true, state := .postData })
      else some (.again () (storeBit (decodedBit rt.1) rt.2))
    else some (.done .progress { rt.2 with state := .postData })

/-- `h_accumulate_data()` (R194). -/
def hAccumulateData (s : State) : Option (Progress × State) := iterate dataTurn (ringFuel s) () s

/-- The first lines of `h_post_data`: the attempt, and the mark of an oversized message (R196). -/
def noteAttempt (s : State) : State :=
  let t := countAttempt s
  if s.oversize then raise (.oversized (byteCount s)) (countError t) else t

/-- The four cases of `h_post_data`, the first that matches (R196). -/
def judgeMessage (s : State) : State :=
  if isMalformed s then raise (.malformed s.bitIndex.toNat) (countError s)
  else if byteCount s < s.profile.minMsgBytes.toNat then raise (.undersized (byteCount s)) (countError s)
  else if s.avail then raise (.overrun (byteCount s)) (countOverrun s)
  else
    raise (.published (byteCount s))
      { s with readyLen := BitVec.ofNat 8 (byteCount s), pend := !s.pend, avail := true }

/-- `h_post_data()` (R196). -/
def hPostData (s : State) : State := { judgeMessage (noteAttempt s) with state := .syncSeek }

/-- `fsm_step()` (R190). -/
def fsmStep (s : State) : Option (Progress × State) :=
  if s.enable = false then some (.blocked, { s with state := .syncSeek })
  else
    match s.state with
    | .syncSeek => hSyncSeek s
    | .syncPulseTrain => hSyncPulseTrain s
    | .accumulateWait => hAccumulateWait s
    | .accumulateData => hAccumulateData s
    | .postData => some (.progress, hPostData s)

/-- A progress result as `r0` of STEP (R197). -/
def progressCode : Progress → Nat
  | .progress => 1
  | .blocked => 0

/-- STEP as a sequence of atoms (R197). -/
def stepOnce (s : State) : Option State :=
  match fsmStep s with
  | none => none
  | some (p, t) => some (respondC (progressCode p) (stateCode t.state) t)

/-- One turn of SERVICE's loop, `progress` handlers having made progress so far (R198). -/
def serviceTurn (progress : Nat) (s : State) : Option (Turn Nat Nat) :=
  match fsmStep s with
  | none => none
  | some (.blocked, t) => some (.done progress t)
  | some (.progress, t) => some (.again (min (progress + 1) (2 ^ 32 - 1)) t)

/-- SERVICE as a sequence of atoms (R198). -/
def service (s : State) : Option State :=
  match iterate serviceTurn (serviceFuel s) 0 s with
  | none => none
  | some (progress, t) => some (respondC (stateCode t.state) progress t)

/-- STEP (R197). -/
def execStep (s : State) : Host.Outcome State Fault Refusal := returns s stepOnce

/-- SERVICE (R198). -/
def execService (s : State) : Host.Outcome State Fault Refusal := returns s service

end Sys2Proof.Machine
end

