-- ==== Sys2Proof/Machine/Dispatch.lean ====
section
/-! DEFINITION. One arm per command, in the order of the opcode table. -/

namespace Sys2Proof.Machine

def exec (i : Instr) (s : State) : Host.Outcome State Fault Refusal :=
  match i with
  | .edge => Sys2Proof.Machine.execEdge s
  | .count => Sys2Proof.Machine.execCount s
  | .isfull => Sys2Proof.Machine.execIsfull s
  | .isempty => Sys2Proof.Machine.execIsempty s
  | .pop => Sys2Proof.Machine.execPop s
  | .peek offset => Sys2Proof.Machine.execPeek offset s
  | .adv k => Sys2Proof.Machine.execAdv k s
  | .enable en => Sys2Proof.Machine.execEnable en s
  | .seldev profileId => Sys2Proof.Machine.execSeldev profileId s
  | .classify imm => Sys2Proof.Machine.execClassify imm s
  | .synctrain => Sys2Proof.Machine.execSynctrain s
  | .decbit => Sys2Proof.Machine.execDecbit s
  | .step => Sys2Proof.Machine.execStep s
  | .service => Sys2Proof.Machine.execService s
  | .take maxLen => Sys2Proof.Machine.execTake maxLen s
  | .stats => Sys2Proof.Machine.execStats s
  | .status => Sys2Proof.Machine.execStatus s
  | .syncx => Sys2Proof.Machine.execSyncx s
  | .ovrcnt => Sys2Proof.Machine.execOvrcnt s
  | .rdprof idx => Sys2Proof.Machine.execRdprof idx s

end Sys2Proof.Machine
end

