-- ==== Sys2Proof/Machine/Step.lean ====
section
/-! DEFINITION. One step: an asserted reset, else the next waiting command word, decoded on its port and run. -/

namespace Sys2Proof.Machine

/-- One step of the block. With no reset asserted and no word waiting it is idle (70_reset_and_hazards R282). -/
def step (s : State) : Host.Outcome State Fault Refusal :=
  match s.rst with
  | some d => completes s (applyReset d)
  | none =>
    match nextCommand s with
    | none => .next s
    | some (port, cmd, t) =>
      match decode port cmd.word with
      | .ok i => exec i t
      | .error _ => completes t (illegalCommand port cmd.word)

/-- `s` with the 32-bit word `w` presented as the next command, on the port that takes it (log entry 10). -/
def State.withFetchWord (s : State) (_nbits w : Nat) : State := placeWord (BitVec.ofNat 32 w) s

end Sys2Proof.Machine
end

