-- ==== Sys2Proof/Safety.lean ====
section
/-! DEFINITION. The invariant of the block's states (10_state R61 and the legal values of 10_state), the block's own part of
a state, and the buffered samples as a list: the terms the claims use. -/

namespace Sys2Proof.Machine

/-- The buffered durations, oldest first (10_state R23). -/
def buffered (s : State) : List Nat := (List.range (rbCount s)).map (fun o => rbPeek o s)

/-- Bit number `k` of message buffer `b`: byte `k >> 3`, position `7 - (k & 7)` (20_memory R72). -/
def messageBit (b : Bool) (k : Nat) (s : State) : Bool := (mbRead b (k / 8) s).getLsbD (7 - k % 8)

/-- The block's own state and its parameters: everything but the inputs waiting and the record of outputs. Two states with
the same `blockOf` agree on all 28 registers and all three memories. -/
def blockOf (s : State) : State :=
  { s with tsNow := 0, portP := [], portC := [], order := [], rst := none, responses := [], events := [] }

/-- The command is one of those made of several atoms (20_memory R80). -/
def composite : Instr → Bool
  | .synctrain => true
  | .decbit => true
  | .step => true
  | .service => true
  | .edge => false
  | .count => false
  | .isfull => false
  | .isempty => false
  | .pop => false
  | .peek _ => false
  | .adv _ => false
  | .enable _ => false
  | .seldev _ => false
  | .classify _ => false
  | .take _ => false
  | .stats => false
  | .status => false
  | .syncx => false
  | .ovrcnt => false
  | .rdprof _ => false

/-- The commands that only read: they write no state (40_ring_buffer R132 to R134, R136; 41_classifier R151;
46_config_diag R233 to R237). -/
def reads : Instr → Bool
  | .count => true
  | .isfull => true
  | .isempty => true
  | .peek _ => true
  | .classify _ => true
  | .stats => true
  | .status => true
  | .syncx => true
  | .ovrcnt => true
  | .rdprof _ => true
  | .edge => false
  | .pop => false
  | .adv _ => false
  | .enable _ => false
  | .seldev _ => false
  | .synctrain => false
  | .decbit => false
  | .step => false
  | .service => false
  | .take _ => false

/-- What holds in every state a run can reach. -/
structure Inv (s : State) : Prop where
  /-- R21, R22, R24, R26, R43 to R45: registers and inputs in range; I1 of R61 -/
  inRange : InRange s
  /-- the ring memory is in canonical form and has only slots `0 .. N-1` (R51) -/
  rbMem : Memory.wf s.rb ∧ Memory.within s.rb s.cfg.n
  /-- both message buffers are in canonical form and have only bytes `0 .. MSG_BUF_BYTES-1` (R52) -/
  mbMem : ∀ b, Memory.wf (msgBuf b s) ∧ Memory.within (msgBuf b s) s.cfg.msgBufBytes
  /-- bit 15 of every buffered sample is 0 (R50) -/
  samples : ∀ o, o < rbCount s → (memRead s.rb (rbSlot o s)).getLsbD 15 = false
  /-- I2 of R61 -/
  enabled : s.enable = true → s.cfgValid = true
  /-- the profile in force is valid (R42) -/
  profileOk : s.cfgValid = true → profileValid s.cfg s.profile = true
  /-- before the first accepted SELDEV the profile registers hold their reset zeros (R40, 30_encoding R111) -/
  unconfigured : s.cfgValid = false → s.profile = Profile.zero ∧ s.profileId = 0
  /-- I3 of R61, its first half -/
  bitIndexOk : s.bitIndex.toNat ≤ 8 * s.profile.maxMsgBytes.toNat
  /-- an oversized message is exactly full (44_state_machine R196) -/
  oversizeFull : s.oversize = true → s.bitIndex.toNat = 8 * s.profile.maxMsgBytes.toNat
  /-- I4 of R61, its first half -/
  readyOk : s.avail = true →
    s.cfgValid = true ∧ s.profile.minMsgBytes.toNat ≤ s.readyLen.toNat ∧ s.readyLen.toNat ≤ s.profile.maxMsgBytes.toNat
  /-- I5 of R61 -/
  counters : s.errors ≤ s.attempts ∧ s.overruns ≤ s.attempts

end Sys2Proof.Machine
end

