-- ==== Sys2Proof/Certificates/Slice0/Obligations.lean ====
section
/-! DEFINITION. The statements for the provers. First the terms they share, then the statements by chapter of the spec. -/

namespace Sys2Proof.Claims

open Sys2Proof.Machine

/-- In `s` the command `i` of port `port` ends with the one response `(status, r0, r1, data)` (30_encoding R108) and the
machine is then in `u` with that response on record. -/
def Does (i : Instr) (port : Port) (s u : State) (status : Status) (r0 r1 : Nat) (data : List Byte) : Prop :=
  ∃ r : Response, exec i s = .next { u with responses := u.responses ++ [(port, r)] } ∧
    r.status = status ∧ r.r0.toNat = r0 ∧ r.r1.toNat = r1 ∧ r.data = data

/-- As `Does`, for a command of port C that refuses and changes nothing (00_scope R12). -/
def Refuses (i : Instr) (s : State) (status : Status) : Prop := Does i .c s s status 0 0 []

/-- As `Does`, for a command of port C that answers OK without data. -/
def Answers (i : Instr) (s u : State) (r0 r1 : Nat) : Prop := Does i .c s u .ok r0 r1 []

/-- The command word `w` is the command `i` on port `port`, and on that port only (30_encoding R104, R107). -/
def Word (w : CmdWord) (port : Port) (i : Instr) : Prop :=
  decode port w = .ok i ∧ ∀ other j, decode other w = .ok j → other = port ∧ j = i

/-- `count = (tail - head) mod N` over the integers (10_state R23). -/
def Count (s : State) (k : Nat) : Prop := (k : Int) = ((s.tail : Int) - (s.head : Int)) % (s.cfg.n : Int)

/-- What edges that fall between the atoms of a consumer command may have moved from `s` to `u`, beside the retirement of
samples: the producer's side of the ring, the inputs used up and the record of outputs (20_memory R80, 60_exceptions R262).
With no edge waiting they moved nothing. -/
def BetweenAtoms (s u : State) : Prop :=
  u = { s with head := u.head, tail := u.tail, rb := u.rb, lastEdge := u.lastEdge, ovf := u.ovf, tsNow := u.tsNow,
               portP := u.portP, order := u.order, responses := u.responses, events := u.events } ∧
  (s.portP = [] → u = { s with head := u.head, order := u.order })

/-- The sync bands and their neighbours: `d` lies within `tol` of `width`, over the integers (41_classifier R150). -/
def Near (width tol : BitVec 16) (d : Nat) : Prop :=
  (width.toNat : Int) - tol.toNat ≤ d ∧ (d : Int) ≤ (width.toNat : Int) + tol.toNat

/-- V1, V2 and V3 of 10_state R41. -/
def ValidProfile (c : Config) (p : Profile) : Prop :=
  ((p.shortW.toNat : Int) + p.tol.toNat < (p.longW.toNat : Int) - p.tol.toNat) ∧
  (1 ≤ p.minMsgBytes.toNat ∧ p.minMsgBytes.toNat ≤ p.maxMsgBytes.toNat ∧ p.maxMsgBytes.toNat ≤ c.msgBufBytes) ∧
  (p.maxSync.toNat + 8 * p.minMsgBytes.toNat ≤ c.n - 1 ∧ 16 * p.minMsgBytes.toNat ≤ c.n - 1)

/-- An accepted SELDEV: `p` is the valid profile that `PROFILES` gives the identifier (46_config_diag R231). -/
def Accepted (s : State) (pid : BitVec 16) (p : Profile) : Prop :=
  lookupProfile s.cfg.profiles pid = some p ∧ ValidProfile s.cfg p

/-- One row of the opcode table: port, mask, match, and the command an operand field makes (30_encoding R104). -/
structure Row where
  port : Port
  mask : CmdWord
  pattern : CmdWord
  build : BitVec 16 → Instr

/-- The 20 rows: format N has every bit under its mask, I the upper 16, B all but bit 0, D all but bits 14 to 0. -/
def rows : List Row :=
  [⟨.p, 0xFFFFFFFF, 0x01000000, fun _ => .edge⟩, ⟨.c, 0xFFFFFFFF, 0x10000000, fun _ => .count⟩,
   ⟨.c, 0xFFFFFFFF, 0x11000000, fun _ => .isfull⟩, ⟨.c, 0xFFFFFFFF, 0x12000000, fun _ => .isempty⟩,
   ⟨.c, 0xFFFFFFFF, 0x13000000, fun _ => .pop⟩, ⟨.c, 0xFFFF0000, 0x14000000, .peek⟩,
   ⟨.c, 0xFFFF0000, 0x15000000, .adv⟩, ⟨.c, 0xFFFFFFFE, 0x20000000, fun imm => .enable (imm.getLsbD 0)⟩,
   ⟨.c, 0xFFFF0000, 0x21000000, .seldev⟩, ⟨.c, 0xFFFF8000, 0x30000000, .classify⟩] ++
  [⟨.c, 0xFFFFFFFF, 0x31000000, fun _ => .synctrain⟩, ⟨.c, 0xFFFFFFFF, 0x32000000, fun _ => .decbit⟩,
   ⟨.c, 0xFFFFFFFF, 0x33000000, fun _ => .step⟩, ⟨.c, 0xFFFFFFFF, 0x34000000, fun _ => .service⟩,
   ⟨.c, 0xFFFF0000, 0x40000000, .take⟩, ⟨.c, 0xFFFFFFFF, 0x50000000, fun _ => .stats⟩,
   ⟨.c, 0xFFFFFFFF, 0x51000000, fun _ => .status⟩, ⟨.c, 0xFFFFFFFF, 0x52000000, fun _ => .syncx⟩,
   ⟨.c, 0xFFFFFFFF, 0x53000000, fun _ => .ovrcnt⟩, ⟨.c, 0xFFFF0000, 0x54000000, .rdprof⟩]

/-- The 20 opcode bytes. -/
def opcodes : List (BitVec 8) :=
  [0x01, 0x10, 0x11, 0x12, 0x13, 0x14, 0x15, 0x20, 0x21, 0x30, 0x31, 0x32, 0x33, 0x34, 0x40, 0x50, 0x51, 0x52, 0x53, 0x54]

/-- The opcode bytes of format N. -/
def opcodesN : List (BitVec 8) :=
  [0x01, 0x10, 0x11, 0x12, 0x13, 0x31, 0x32, 0x33, 0x34, 0x50, 0x51, 0x52, 0x53]

/-- The word `w` is refused on `port` (30_encoding R110). -/
def IllegalOn (port : Port) (w : CmdWord) : Prop :=
  w.extractLsb' 24 8 ∉ opcodes ∨ (port = .c ∧ w.extractLsb' 24 8 = 0x01) ∨ (port = .p ∧ w.extractLsb' 24 8 ≠ 0x01) ∨
  w.extractLsb' 16 8 ≠ 0 ∨ (w.extractLsb' 24 8 ∈ opcodesN ∧ w.extractLsb' 0 16 ≠ 0) ∨
  (w.extractLsb' 24 8 = 0x20 ∧ w.extractLsb' 1 15 ≠ 0) ∨ (w.extractLsb' 24 8 = 0x30 ∧ w.getLsbD 15 = true)

/-- `fsm_step` makes progress `n` times from `s`, then blocks, in `t` (44_state_machine R198). -/
def Ticks : Nat → State → State → Prop
  | 0, s, t => fsmStep s = some (.blocked, t)
  | n + 1, s, t => ∃ u, fsmStep s = some (.progress, u) ∧ Ticks n u t

/-- The fallback rule answers for the pair (43_bit_decoder R172): bit 1 if the longer comes first. -/
def Recovers (p : Profile) (d0 d1 : Nat) : Prop :=
  p.fbEn = true ∧ Near p.syncW p.tol (d0 + d1) ∧ d0 ≠ d1 ∧
  ((min d0 d1 : Nat) : Int) - ((d0 + d1) / 3 : Nat) ≤ (max d0 d1 / 4 : Nat) ∧
  (((d0 + d1) / 3 : Nat) : Int) - (min d0 d1 : Nat) ≤ (max d0 d1 / 4 : Nat)

/-- The pairs of durations in `l`, in order, are decoded to the bits `bs`. -/
def DecodesTo (p : Profile) : List Nat → List Bool → Prop
  | [], [] => True
  | d0 :: d1 :: l, b :: bs => decodePair p d0 d1 = (if b then .bit1 else .bit0) ∧ DecodesTo p l bs
  | _, _ => False

/-- The bits of the bytes, most significant bit of each first (20_memory R72). -/
def bitsOf (bytes : List Byte) : List Bool :=
  bytes.flatMap (fun v => (List.range 8).map (fun j => v.getLsbD (7 - j)))

/-- EDGE commands at the given times, one after the other: the state after them, if every one stored its sample. -/
def storesAll : List Nat → State → Option State
  | [], s => some s
  | now :: rest, s =>
    match exec .edge { s with tsNow := now } with
    | .next t => if t.responses.getLast?.map (fun x => x.2.r0) = some 1 then storesAll rest t else none
    | .fault _ => none
    | .refused _ => none

end Sys2Proof.Claims

section Statements

open Sys2Proof Sys2Proof.Machine Sys2Proof.Claims

/-! ### Reset and the step -/

/-- Reset, on one step with `rst` asserted: the values of 10_state R59 (70_reset_and_hazards R281). That an asserted reset
carries a draw `d`, that the cells 10_state R62 leaves unspecified come to hold it, and that the step uses the reset up, are
the model's choice (log entry 4). -/
def Obligations.ResetStep : Prop :=
  ∀ (s : State) (d : Draw), s.rst = some d → InRange s → ∃ t, step s = .next t ∧
    (t.head = 0 ∧ t.tail = 0 ∧ t.bitIndex = 0 ∧ t.readyLen = 0 ∧ t.state = .syncSeek) ∧
    (t.enable = false ∧ t.avail = false ∧ t.pend = false ∧ t.ovf = false ∧ t.oversize = false ∧ t.cfgValid = false) ∧
    (∀ idx, idx ≤ 10 → profileField t idx = some 0) ∧
    (t.attempts = 0 ∧ t.errors = 0 ∧ t.overruns = 0 ∧ t.syncMin.toNat = 32767 ∧ t.syncMax = 0) ∧
    (t.lastEdge = d.lastEdge ∧ t.rb = d.rb ∧ t.mb0 = d.mb0 ∧ t.mb1 = d.mb1) ∧ t.cfg = s.cfg ∧ t.rst = none

/-- The values 10_state R59 gives for reset, in `State.reset` and in the reset state of every other instance. -/
def Obligations.ResetRegisters : Prop :=
  ∀ (c : Config) (d : Draw) (t : State), t = State.reset ∨ t = State.resetOf c d →
    (t.head = 0 ∧ t.tail = 0 ∧ t.bitIndex = 0 ∧ t.readyLen = 0 ∧ t.state = .syncSeek) ∧
    (t.enable = false ∧ t.avail = false ∧ t.pend = false ∧ t.ovf = false ∧ t.oversize = false ∧ t.cfgValid = false) ∧
    (∀ idx, idx ≤ 10 → profileField t idx = some 0) ∧
    (t.attempts = 0 ∧ t.errors = 0 ∧ t.overruns = 0 ∧ t.syncMin.toNat = 32767 ∧ t.syncMax = 0)

/-- 70_reset_and_hazards R282: the reset state is idle, and with no reset asserted and no command waiting nothing changes.
That the reset state has no word waiting and no reset asserted is the model's choice (log entry 5), and so is the form of
the idle step, which answers the same state (log entry 10). -/
def Obligations.IdleUntilCommand : Prop :=
  (∀ (c : Config) (d : Draw), (State.resetOf c d).enable = false ∧ (State.resetOf c d).cfgValid = false ∧
    (State.resetOf c d).avail = false ∧ (State.resetOf c d).state = .syncSeek ∧ (State.resetOf c d).portP = [] ∧
    (State.resetOf c d).portC = [] ∧ (State.resetOf c d).rst = none) ∧
  (∀ s : State, s.rst = none → s.portP = [] → s.portC = [] → step s = .next s)

/-- The reset state of every instance meets the invariant, whatever the unspecified cells hold (10_state R61, R62). -/
def Obligations.ResetMeetsInvariant : Prop :=
  Inv State.reset ∧ ∀ (c : Config) (d : Draw), c.Legal → drawInRange c d → Inv (State.resetOf c d)

/-- 10_state R61: the invariants hold in every reachable state. -/
def Obligations.StepKeepsInvariant : Prop := ∀ s t : State, Inv s → step s = .next t → Inv t

/-- The block never traps or halts (60_exceptions R257, R258), and with finitely many edges waiting every command returns.
The finiteness is the model's choice (log entry 8, unsafe): for an endless stream of edges 20_memory R88 and
70_reset_and_hazards R296 say that SERVICE may not return. -/
def Obligations.StepAlwaysAnswers : Prop := ∀ s : State, Inv s → ∃ t, step s = .next t

/-- A step runs the decoded command of the port whose turn `order` says it is (empty: port C), or of the other port if no
word waits there; the word is used up and its `ts_now` is on the bus. The schedule is the model's form of 20_memory R84
(log entries 5, 6). -/
def Obligations.StepRunsDecoded : Prop :=
  ∀ (s : State) (cmd : Command) (rest : List Command) (i : Instr), s.rst = none →
    (s.portP = cmd :: rest → decode .p cmd.word = .ok i → (s.order.headD .c = .p ∨ s.portC = []) →
      step s = exec i { s with portP := rest, tsNow := cmd.ts, order := s.order.tail }) ∧
    (s.portC = cmd :: rest → decode .c cmd.word = .ok i → (s.order.headD .c = .c ∨ s.portP = []) →
      step s = exec i { s with portC := rest, tsNow := cmd.ts, order := s.order.tail })

/-- `withFetchWord` presents a word so that the next step runs exactly it (log entry 10). -/
def Obligations.PlacedWordRuns : Prop :=
  ∀ (s : State) (nbits : Nat) (w : CmdWord) (i : Instr), decode (portFor w) w = .ok i →
    step (s.withFetchWord nbits w.toNat) = exec i { s with rst := none }

/-! ### Encoding -/

/-- One word for each command, written from 30_encoding R104. -/
def Obligations.DecodeWords : Prop :=
  decode .p 0x01000000#32 = .ok .edge ∧ decode .c 0x10000000#32 = .ok .count ∧ decode .c 0x14000003#32 = .ok (.peek 3) ∧
  decode .c 0x20000001#32 = .ok (.enable true) ∧ decode .c 0x21000001#32 = .ok (.seldev 1) ∧
  decode .c 0x30000258#32 = .ok (.classify 600) ∧ decode .c 0x34000000#32 = .ok .service ∧
  decode .c 0x40000008#32 = .ok (.take 8) ∧ decode .c 0x5400000A#32 = .ok (.rdprof 10)

/-- Every command that can be written is read back, with every operand at every value. -/
def Obligations.DecodeEncode : Prop := ∀ i : Instr, i.wf = true → decode (portOf i) (encode i) = .ok i

/-- Every word that is a command is the word of that command. -/
def Obligations.EncodeDecode : Prop :=
  ∀ (port : Port) (w : CmdWord) (i : Instr), decode port w = .ok i → i.wf = true ∧ portOf i = port ∧ encode i = w

/-- 30_encoding R107: a word is the command of the one row of its port that selects it, else it is illegal there. -/
def Obligations.TableSelects : Prop :=
  (∀ (port : Port) (w : CmdWord) (i : Instr), decode port w = .ok i ↔
    ∃ row ∈ rows, row.port = port ∧ w &&& row.mask = row.pattern ∧ i = row.build (w.extractLsb' 0 16)) ∧
  (∀ (w : CmdWord), ∀ a ∈ rows, ∀ b ∈ rows, a.port = b.port → w &&& a.mask = a.pattern → w &&& b.mask = b.pattern →
    a.pattern = b.pattern) ∧
  (∀ (port : Port) (w : CmdWord), (∀ row ∈ rows, row.port = port → w &&& row.mask ≠ row.pattern) → IllegalOn port w)

/-- 30_encoding R110: which words are refused, and what such a word does. -/
def Obligations.IllegalWords : Prop :=
  (∀ (port : Port) (w : CmdWord), (∃ e, decode port w = .error e) ↔ IllegalOn port w) ∧
  (∀ (s u : State) (port : Port) (cmd : Command), s.rst = none → nextCommand s = some (port, cmd, u) → InRange u →
    IllegalOn port cmd.word →
    step s = .next { u with events := u.events ++ [.illegalCommand cmd.word port]
                            responses := u.responses ++ [(port, ⟨.illegal, 0, 0, []⟩)] }) ∧
  (∀ port, IllegalOn port 0x00000000#32) ∧ (∀ port, IllegalOn port 0xFF000000#32)

/-! ### The ring buffer -/

/-- 40_ring_buffer R131, every branch. -/
def Obligations.EdgeEffect : Prop :=
  Word 0x01000000#32 .p .edge ∧
  ∀ (s : State) (dur : Nat), Inv s →
    (dur : Int) = min (((s.tsNow : Int) - (s.lastEdge : Int)) % (s.cfg.tsMod : Int)) 32767 →
    (s.enable = false → Does .edge .p s s .ok 0 0 []) ∧
    (s.enable = true → Count s (s.cfg.n - 1) →
      Does .edge .p s { s with ovf := true, events := s.events ++ [.captureOverflow dur] } .ok 0 0 []) ∧
    (s.enable = true → ¬ Count s (s.cfg.n - 1) → ∃ rb,
      Does .edge .p s { s with rb := rb, tail := (s.tail + 1) % s.cfg.n, lastEdge := s.tsNow } .ok 1 0 [] ∧
      (memRead rb s.tail).toNat = dur ∧ ∀ slot, slot ≠ s.tail → memRead rb slot = memRead s.rb slot)

/-- An accepted edge puts its duration behind the buffered samples; the duration is the true elapsed time up to the clamp,
also across the counter's modulus (40_ring_buffer R138, 70_reset_and_hazards R291). -/
def Obligations.WraparoundSafe : Prop :=
  ∀ (s : State) (elapsed : Nat), Inv s → s.enable = true → (buffered s).length < s.cfg.n - 1 → elapsed < s.cfg.tsMod →
    s.tsNow = (s.lastEdge + elapsed) % s.cfg.tsMod →
    ∃ t, exec .edge s = .next t ∧ buffered t = buffered s ++ [min elapsed 32767] ∧ t.lastEdge = s.tsNow

/-- 40_ring_buffer R138, capacity: `N-1` edges fill an empty ring, all stored, whenever they come; the next is dropped. -/
def Obligations.RingCapacity : Prop :=
  ∀ (s : State) (times : List Nat) (last : Nat), Inv s → s.enable = true → buffered s = [] →
    times.length = s.cfg.n - 1 → (∀ x ∈ times, x < s.cfg.tsMod) → last < s.cfg.tsMod →
    ∃ t, storesAll times s = some t ∧ Answers .isfull t t 1 0 ∧
      ∃ r : Response, r.r0 = 0 ∧ ∃ ev, exec .edge { t with tsNow := last } =
        .next { t with tsNow := last, ovf := true, events := t.events ++ [ev], responses := t.responses ++ [(.p, r)] }

/-- 40_ring_buffer R132, R133, R134. -/
def Obligations.RingQueries : Prop :=
  Word 0x10000000#32 .c .count ∧ Word 0x11000000#32 .c .isfull ∧ Word 0x12000000#32 .c .isempty ∧
  ∀ s : State, InRange s → ∃ k, Count s k ∧ k ≤ s.cfg.n - 1 ∧ Answers .count s s k 0 ∧
    Answers .isfull s s (if k = s.cfg.n - 1 then 1 else 0) 0 ∧ Answers .isempty s s (if k = 0 then 1 else 0) 0

/-- The list of buffered samples is as long as the count and is read at slots `(head + i) mod N` (10_state R23). -/
def Obligations.BufferedSamples : Prop :=
  ∀ s : State, Inv s → Count s (buffered s).length ∧ (buffered s).length ≤ s.cfg.n - 1 ∧
    ((buffered s = [] ↔ s.head = s.tail)) ∧
    ∀ i, i < (buffered s).length → (buffered s)[i]? = some (memRead s.rb ((s.head + i) % s.cfg.n)).toNat

/-- 40_ring_buffer R135. -/
def Obligations.PopEffect : Prop :=
  Word 0x13000000#32 .c .pop ∧
  ∀ s : State, Inv s →
    (buffered s = [] → Refuses .pop s .precond) ∧
    (∀ v rest, buffered s = v :: rest →
      Answers .pop s { s with head := (s.head + 1) % s.cfg.n } v 0 ∧
      buffered { s with head := (s.head + 1) % s.cfg.n } = rest)

/-- 40_ring_buffer R136. -/
def Obligations.PeekEffect : Prop :=
  (∀ offset : BitVec 16, Word (0x1400#16 ++ offset) .c (.peek offset)) ∧
  ∀ (s : State) (offset : BitVec 16), Inv s →
    ((buffered s).length ≤ offset.toNat → Refuses (.peek offset) s .precond) ∧
    (∀ v, (buffered s)[offset.toNat]? = some v → Answers (.peek offset) s s v 0)

/-- 40_ring_buffer R137. -/
def Obligations.AdvEffect : Prop :=
  (∀ k : BitVec 16, Word (0x1500#16 ++ k) .c (.adv k)) ∧
  ∀ (s : State) (k : BitVec 16), Inv s →
    ((buffered s).length < k.toNat → Refuses (.adv k) s .precond) ∧
    (k.toNat ≤ (buffered s).length →
      Answers (.adv k) s { s with head := (s.head + k.toNat) % s.cfg.n } 0 0 ∧
      buffered { s with head := (s.head + k.toNat) % s.cfg.n } = (buffered s).drop k.toNat)

/-- 40_ring_buffer R139. -/
def Obligations.EnableEffect : Prop :=
  Word 0x20000001#32 .c (.enable true) ∧ Word 0x20000000#32 .c (.enable false) ∧
  ∀ s : State, InRange s →
    (s.cfgValid = false → Refuses (.enable true) s .nocfg) ∧
    (s.cfgValid = true → s.enable = false →
      Answers (.enable true) s { s with lastEdge := s.tsNow, enable := true } 0 0) ∧
    (s.cfgValid = true → s.enable = true → Answers (.enable true) s s 0 0) ∧
    Answers (.enable false) s { s with enable := false } 0 0

/-- What falls at a boundary between two atoms of a composite command (20_memory R81), as `order` schedules it: a waiting
word of port P for each entry that names port P, up to the first entry that names port C (log entries 5, 6). -/
def Obligations.EdgesAtBoundary : Prop :=
  (∀ s : State, s.order = [] → boundary s = s) ∧
  (∀ (s : State) (od : List Port), s.order = .c :: od → boundary s = { s with order := od }) ∧
  (∀ (s : State) (od : List Port), s.order = .p :: od → s.portP = [] → boundary s = boundary { s with order := od }) ∧
  (∀ (s t : State) (od : List Port) (cmd : Command) (rest : List Command), s.order = .p :: od → s.portP = cmd :: rest →
    InRange s → decode .p cmd.word = .ok .edge →
    exec .edge { s with order := od, portP := rest, tsNow := cmd.ts } = .next t → boundary s = boundary t)

/-- 20_memory R86: edges that fall at a boundary only add samples behind those buffered and write only the producer's side
(60_exceptions R262). -/
def Obligations.EdgesOnlyAppend : Prop :=
  ∀ s : State, Inv s → BetweenAtoms s (boundary s) ∧ (boundary s).head = s.head ∧
    ∃ new, buffered (boundary s) = buffered s ++ new ∧ new.length ≤ s.portP.length

/-! ### The classifier -/

/-- 41_classifier R150: the bands in priority order, over the integers. -/
def Obligations.ClassifyFirstMatch : Prop :=
  ∀ (p : Profile) (d : Nat), d ≤ 32767 →
    (Near p.shortW p.tol d → classify p d = .shortData) ∧
    (¬ Near p.shortW p.tol d → Near p.longW p.tol d → classify p d = .longData) ∧
    (¬ Near p.shortW p.tol d → ¬ Near p.longW p.tol d → Near p.syncW p.tol d → classify p d = .sync) ∧
    (¬ Near p.shortW p.tol d → ¬ Near p.longW p.tol d → ¬ Near p.syncW p.tol d → p.termMin.toNat ≤ d →
      classify p d = .termination) ∧
    (¬ Near p.shortW p.tol d → ¬ Near p.longW p.tol d → ¬ Near p.syncW p.tol d → d < p.termMin.toNat →
      classify p d = .invalid)

/-- 41_classifier R151. -/
def Obligations.ClassifyEffect : Prop :=
  (∀ dur : BitVec 15, Word (0x3000#16 ++ 0#1 ++ dur) .c (.classify (0#1 ++ dur)) ∧
    ∃ e, decode .c (0x3000#16 ++ 1#1 ++ dur) = .error e) ∧
  ∀ (s : State) (dur : BitVec 15), InRange s →
    (s.cfgValid = false → Refuses (.classify (0#1 ++ dur)) s .nocfg) ∧
    (s.cfgValid = true → Answers (.classify (0#1 ++ dur)) s s
      (match classify s.profile dur.toNat with
       | .shortData => 0 | .longData => 1 | .sync => 2 | .termination => 3 | .invalid => 4) 0)

/-- 41_classifier R152: both ends of a band are inside it, the next values outside. -/
def Obligations.BandEdges : Prop :=
  ∀ (p : Profile) (d : Nat),
    ((d : Int) = (p.shortW.toNat : Int) - p.tol.toNat ∨ d = p.shortW.toNat + p.tol.toNat → classify p d = .shortData) ∧
    ((d : Int) = (p.longW.toNat : Int) - p.tol.toNat ∨ d = p.longW.toNat + p.tol.toNat → ¬ Near p.shortW p.tol d →
      classify p d = .longData) ∧
    ((d : Int) = (p.syncW.toNat : Int) - p.tol.toNat ∨ d = p.syncW.toNat + p.tol.toNat → ¬ Near p.shortW p.tol d →
      ¬ Near p.longW p.tol d → classify p d = .sync) ∧
    ((d : Int) = (p.shortW.toNat : Int) - p.tol.toNat - 1 ∨ d = p.shortW.toNat + p.tol.toNat + 1 →
      classify p d ≠ .shortData) ∧
    ((d : Int) = (p.longW.toNat : Int) - p.tol.toNat - 1 ∨ d = p.longW.toNat + p.tol.toNat + 1 →
      classify p d ≠ .longData) ∧
    ((d : Int) = (p.syncW.toNat : Int) - p.tol.toNat - 1 ∨ d = p.syncW.toNat + p.tol.toNat + 1 → classify p d ≠ .sync) ∧
    (¬ Near p.shortW p.tol d → ¬ Near p.longW p.tol d → ¬ Near p.syncW p.tol d → d < p.termMin.toNat →
      classify p d = .invalid)

/-- Valid profiles with overlaps, and unreachable terminations (41_classifier R153, 70_reset_and_hazards R293). -/
def Obligations.OddProfiles : Prop :=
  ∀ (c : Config) (p : Profile) (d : Nat), ValidProfile c p → d ≤ 32767 →
    ¬ (Near p.shortW p.tol d ∧ Near p.longW p.tol d) ∧
    (Near p.longW p.tol d → classify p d = .longData) ∧
    (Near p.syncW p.tol d → p.termMin.toNat ≤ d → classify p d ≠ .termination) ∧
    (32767 < p.termMin.toNat → classify p d ≠ .termination)

/-- 30_encoding R111: what is refused without a profile; and that neither STEP nor SERVICE is. -/
def Obligations.NeedsProfile : Prop :=
  ∀ (s : State) (imm : BitVec 16), InRange s → s.cfgValid = false →
    Refuses (.classify imm) s .nocfg ∧ Refuses .synctrain s .nocfg ∧ Refuses .decbit s .nocfg ∧
    Refuses (.enable true) s .nocfg ∧
    (Inv s → Answers .step s { s with state := .syncSeek } 0 0 ∧ Answers .service s { s with state := .syncSeek } 0 0)

/-! ### The Sync Detector and the Bit Decoder -/

/-- SYNCTRAIN, whatever edges fall between its atoms; `new` are the samples those edges add
(42_sync_detector R160, R161). The clause on a count that `r1` cannot hold is the model's choice: a free value (log entry 2). -/
def Obligations.SynctrainEffect : Prop :=
  ∀ s : State, Inv s → (s.cfgValid = false → Refuses .synctrain s .nocfg) ∧
    (s.cfgValid = true → ∃ u new, (s.portP = [] → new = []) ∧
      BetweenAtoms { s with syncMin := u.syncMin, syncMax := u.syncMax } u ∧
      (((buffered s ++ new).length < s.profile.maxSync.toNat + 8 * s.profile.minMsgBytes.toNat ∧
          buffered u = buffered s ++ new ∧ u.head = s.head ∧ u.syncMin = s.syncMin ∧ u.syncMax = s.syncMax ∧
          Does .synctrain .c s u .precond 0 0 []) ∨
       (s.profile.maxSync.toNat + 8 * s.profile.minMsgBytes.toNat ≤ (buffered s ++ new).length ∧ ∃ retired,
          buffered s ++ new = retired ++ buffered u ∧ u.head = (s.head + retired.length) % s.cfg.n ∧
          (∀ d ∈ retired, classify s.profile d = .sync) ∧
          (∀ d rest, buffered u = d :: rest → classify s.profile d ≠ .sync) ∧
          u.syncMin.toNat = retired.foldl min 32767 ∧ u.syncMax.toNat = retired.foldl max 0 ∧
          Answers .synctrain s u (if s.profile.minSync.toNat < retired.length then 1 else 0)
            (if retired.length < 2 ^ 32 then retired.length else (Config.wideCount retired.length).toNat))))

/-- 42_sync_detector R161 with no edge waiting: one answer, no free choice. -/
def Obligations.SynctrainAlone : Prop :=
  Word 0x31000000#32 .c .synctrain ∧
  ∀ s : State, Inv s → s.portP = [] →
    (s.cfgValid = false → Refuses .synctrain s .nocfg) ∧
    (s.cfgValid = true → ∃ od,
      ((buffered s).length < s.profile.maxSync.toNat + 8 * s.profile.minMsgBytes.toNat →
        Does .synctrain .c s { s with order := od } .precond 0 0 []) ∧
      (∀ retired rest, buffered s = retired ++ rest →
        s.profile.maxSync.toNat + 8 * s.profile.minMsgBytes.toNat ≤ (buffered s).length →
        (∀ d ∈ retired, classify s.profile d = .sync) → (∀ d l, rest = d :: l → classify s.profile d ≠ .sync) →
        ∃ mn mx : BitVec 15, mn.toNat = retired.foldl min 32767 ∧ mx.toNat = retired.foldl max 0 ∧
          Answers .synctrain s
            { s with head := (s.head + retired.length) % s.cfg.n, syncMin := mn, syncMax := mx, order := od }
            (if s.profile.minSync.toNat < retired.length then 1 else 0) retired.length))

/-- 43_bit_decoder R171, R172, R173: the three rules in order, over the integers. -/
def Obligations.PairRules : Prop :=
  ∀ (p : Profile) (d0 d1 : Nat),
    (classify p d0 = .longData → classify p d1 = .shortData → decodePair p d0 d1 = .bit1) ∧
    (classify p d0 = .shortData → classify p d1 = .longData → decodePair p d0 d1 = .bit0) ∧
    (¬ (classify p d0 = .longData ∧ classify p d1 = .shortData) →
     ¬ (classify p d0 = .shortData ∧ classify p d1 = .longData) →
      (Recovers p d0 d1 → d1 < d0 → decodePair p d0 d1 = .bit1) ∧
      (Recovers p d0 d1 → d0 < d1 → decodePair p d0 d1 = .bit0) ∧
      (¬ Recovers p d0 d1 → classify p d0 = .shortData → classify p d1 = .termination →
        decodePair p d0 d1 = .termination) ∧
      (¬ Recovers p d0 d1 → ¬ (classify p d0 = .shortData ∧ classify p d1 = .termination) →
        decodePair p d0 d1 = .invalid))

/-- DECBIT, whatever edges fall between its atoms (43_bit_decoder R170, R174, R176). -/
def Obligations.DecbitEffect : Prop :=
  Word 0x32000000#32 .c .decbit ∧
  ∀ s : State, Inv s → (s.cfgValid = false → Refuses .decbit s .nocfg) ∧
    (s.cfgValid = true → ∃ u new, (s.portP = [] → new = []) ∧ BetweenAtoms s u ∧
      (((buffered s ++ new).length < 2 ∧ buffered u = buffered s ++ new ∧ u.head = s.head ∧
          Does .decbit .c s u .precond 0 0 []) ∨
       (∃ d0 d1 rest, buffered s ++ new = d0 :: d1 :: rest ∧
          ((decodePair s.profile d0 d1 = .bit0 ∧ Answers .decbit s u 0 0 ∧ buffered u = rest ∧
              u.head = (s.head + 2) % s.cfg.n) ∨
           (decodePair s.profile d0 d1 = .bit1 ∧ Answers .decbit s u 1 0 ∧ buffered u = rest ∧
              u.head = (s.head + 2) % s.cfg.n) ∨
           (decodePair s.profile d0 d1 = .termination ∧ Answers .decbit s u 2 0 ∧ buffered u = d0 :: d1 :: rest ∧
              u.head = s.head) ∨
           (decodePair s.profile d0 d1 = .invalid ∧ Answers .decbit s u 3 0 ∧ buffered u = d0 :: d1 :: rest ∧
              u.head = s.head)))))

/-- 43_bit_decoder R176 with no edge waiting: one answer, no free choice. -/
def Obligations.DecbitAlone : Prop :=
  ∀ s : State, Inv s → s.cfgValid = true → s.portP = [] → ∃ od,
    ((buffered s).length < 2 → Does .decbit .c s { s with order := od } .precond 0 0 []) ∧
    (∀ d0 d1 rest, buffered s = d0 :: d1 :: rest →
      (decodePair s.profile d0 d1 = .bit0 →
        Answers .decbit s { s with head := (s.head + 2) % s.cfg.n, order := od } 0 0) ∧
      (decodePair s.profile d0 d1 = .bit1 →
        Answers .decbit s { s with head := (s.head + 2) % s.cfg.n, order := od } 1 0) ∧
      (decodePair s.profile d0 d1 = .termination → Answers .decbit s { s with order := od } 2 0) ∧
      (decodePair s.profile d0 d1 = .invalid → Answers .decbit s { s with order := od } 3 0))

/-! ### The Protocol State Machine -/

/-- The disabled path of 44_state_machine R190: only `state` is written. -/
def Obligations.DisabledStep : Prop :=
  ∀ s : State, InRange s → s.enable = false →
    Answers .step s { s with state := .syncSeek } 0 0 ∧ Answers .service s { s with state := .syncSeek } 0 0

/-- STEP runs one handler (44_state_machine R197). -/
def Obligations.StepRunsOneHandler : Prop :=
  Word 0x33000000#32 .c .step ∧
  ∀ s : State, Inv s → ∃ p t, fsmStep s = some (p, t) ∧
    Answers .step s t (match p with | .progress => 1 | .blocked => 0)
      (match t.state with
       | .syncSeek => 0 | .syncPulseTrain => 1 | .accumulateWait => 2 | .accumulateData => 3 | .postData => 4) ∧
    (s.cfgValid = false → Answers .step s { s with state := .syncSeek } 0 0)

/-- The handler of SyncSeek (44_state_machine R191), whatever edges fall between its atoms. -/
def Obligations.StepSyncSeek : Prop :=
  ∀ s : State, Inv s → s.enable = true → s.state = .syncSeek → ∃ u new gone, (s.portP = [] → new = []) ∧
    BetweenAtoms s u ∧ buffered s ++ new = gone ++ buffered u ∧ u.head = (s.head + gone.length) % s.cfg.n ∧
    (∀ d ∈ gone, classify s.profile d ≠ .sync) ∧
    ((buffered u = [] ∧ Answers .step s u 0 0) ∨
     (∃ d rest, buffered u = d :: rest ∧ classify s.profile d = .sync ∧
        Answers .step s { u with state := .syncPulseTrain } 1 1))

/-- The handler of SyncPulseTrain (44_state_machine R192), whatever edges fall between its atoms. -/
def Obligations.StepSyncPulseTrain : Prop :=
  ∀ s : State, Inv s → s.enable = true → s.state = .syncPulseTrain → ∃ u new, (s.portP = [] → new = []) ∧
    BetweenAtoms { s with syncMin := u.syncMin, syncMax := u.syncMax } u ∧
    (((buffered s ++ new).length < s.profile.maxSync.toNat + 8 * s.profile.minMsgBytes.toNat ∧
        buffered u = buffered s ++ new ∧ u.head = s.head ∧ u.syncMin = s.syncMin ∧ u.syncMax = s.syncMax ∧
        Answers .step s u 0 1) ∨
     (s.profile.maxSync.toNat + 8 * s.profile.minMsgBytes.toNat ≤ (buffered s ++ new).length ∧ ∃ retired,
        buffered s ++ new = retired ++ buffered u ∧ u.head = (s.head + retired.length) % s.cfg.n ∧
        (∀ d ∈ retired, classify s.profile d = .sync) ∧
        (∀ d rest, buffered u = d :: rest → classify s.profile d ≠ .sync) ∧
        u.syncMin.toNat = retired.foldl min 32767 ∧ u.syncMax.toNat = retired.foldl max 0 ∧
        (s.profile.minSync.toNat < retired.length →
          Answers .step s { u with bitIndex := 0, oversize := false, state := .accumulateWait } 1 2) ∧
        (retired.length ≤ s.profile.minSync.toNat → Answers .step s { u with state := .syncSeek } 1 0)))

/-- The handler of AccumulateWait (44_state_machine R193). -/
def Obligations.StepAccumulateWait : Prop :=
  ∀ s : State, Inv s → s.enable = true → s.state = .accumulateWait → ∃ u new, (s.portP = [] → new = []) ∧
    BetweenAtoms s u ∧ buffered u = buffered s ++ new ∧ u.head = s.head ∧
    (((buffered u).length < 16 * s.profile.minMsgBytes.toNat ∧ Answers .step s u 0 2) ∨
     (16 * s.profile.minMsgBytes.toNat ≤ (buffered u).length ∧
        Answers .step s { u with state := .accumulateData } 1 3))

/-- The handler of AccumulateData (44_state_machine R194), whatever edges fall between its atoms: the leading pairs that
decode to `bits` are retired and packed into the pending buffer from bit `bit_index` on, most significant bit first, every
other bit of both buffers keeps its value, and the handler then waits for a pair, drops the bit that would not fit, or meets
a pair that is no bit. -/
def Obligations.StepAccumulateData : Prop :=
  ∀ s : State, Inv s → s.enable = true → s.state = .accumulateData → ∃ u new bits rest, (s.portP = [] → new = []) ∧
    BetweenAtoms { s with mb0 := u.mb0, mb1 := u.mb1, bitIndex := u.bitIndex } u ∧
    (∃ pairs, buffered s ++ new = pairs ++ rest ∧ DecodesTo s.profile pairs bits) ∧
    u.bitIndex.toNat = s.bitIndex.toNat + bits.length ∧ u.bitIndex.toNat ≤ 8 * s.profile.maxMsgBytes.toNat ∧
    (∀ j b, bits[j]? = some b → messageBit s.pend (s.bitIndex.toNat + j) u = b) ∧
    (∀ k, (k < s.bitIndex.toNat ∨ u.bitIndex.toNat ≤ k) → messageBit s.pend k u = messageBit s.pend k s) ∧
    (∀ i, mbRead (!s.pend) i u = mbRead (!s.pend) i s) ∧
    ((rest.length < 2 ∧ buffered u = rest ∧ u.head = (s.head + 2 * bits.length) % s.cfg.n ∧ Answers .step s u 0 3) ∨
     (∃ d0 d1 more, rest = d0 :: d1 :: more ∧
        (decodePair s.profile d0 d1 = .bit0 ∨ decodePair s.profile d0 d1 = .bit1) ∧
        u.bitIndex.toNat = 8 * s.profile.maxMsgBytes.toNat ∧ buffered u = more ∧
        u.head = (s.head + 2 * bits.length + 2) % s.cfg.n ∧
        Answers .step s { u with oversize := true, state := .postData } 1 4) ∨
     (∃ d0 d1 more, rest = d0 :: d1 :: more ∧
        (decodePair s.profile d0 d1 = .termination ∨ decodePair s.profile d0 d1 = .invalid) ∧
        buffered u = rest ∧ u.head = (s.head + 2 * bits.length) % s.cfg.n ∧
        Answers .step s { u with state := .postData } 1 4))

/-- The handler of PostData (44_state_machine R196): the attempt, the mark of an oversized message, then the first of the
four cases. `errors` moves at most once. -/
def Obligations.StepPostData : Prop :=
  ∀ (s : State) (attempts errors top : Nat) (noted : List Event), Inv s → s.enable = true → s.state = .postData →
    top = 2 ^ s.cfg.ctrW - 1 → attempts = min (s.attempts + 1) top →
    errors = (if s.oversize then min (s.errors + 1) top else s.errors) →
    noted = s.events ++ (if s.oversize then [.oversized (s.bitIndex.toNat / 8)] else []) →
    (s.bitIndex.toNat = 0 ∨ s.bitIndex.toNat % 8 ≠ 0 →
      Answers .step s { s with attempts := attempts, errors := min (errors + 1) top, state := .syncSeek,
                               events := noted ++ [.malformed s.bitIndex.toNat] } 1 0) ∧
    (s.bitIndex.toNat ≠ 0 → s.bitIndex.toNat % 8 = 0 → s.bitIndex.toNat / 8 < s.profile.minMsgBytes.toNat →
      Answers .step s { s with attempts := attempts, errors := min (errors + 1) top, state := .syncSeek,
                               events := noted ++ [.undersized (s.bitIndex.toNat / 8)] } 1 0) ∧
    (s.bitIndex.toNat ≠ 0 → s.bitIndex.toNat % 8 = 0 → s.profile.minMsgBytes.toNat ≤ s.bitIndex.toNat / 8 →
      (s.avail = true →
        Answers .step s { s with attempts := attempts, errors := errors, overruns := min (s.overruns + 1) top,
                                 state := .syncSeek, events := noted ++ [.overrun (s.bitIndex.toNat / 8)] } 1 0) ∧
      (s.avail = false → ∃ len : BitVec 8, len.toNat = s.bitIndex.toNat / 8 ∧
        Answers .step s { s with attempts := attempts, errors := errors, readyLen := len, pend := !s.pend, avail := true,
                                 state := .syncSeek, events := noted ++ [.published (s.bitIndex.toNat / 8)] } 1 0)) ∧
    (∀ t, exec .step s = .next t → t.errors ≤ s.errors + 1)

/-- 44_state_machine R195: the transitions of `state`, and who makes them. -/
def Obligations.StateTransitions : Prop :=
  ∀ (i : Instr) (s t : State), Inv s → exec i s = .next t →
    (i = .step → s.enable = false → t.state = .syncSeek) ∧
    (i = .step → s.enable = true → t.state = s.state ∨
      (s.state = .syncSeek ∧ t.state = .syncPulseTrain) ∨ (s.state = .syncPulseTrain ∧ t.state = .accumulateWait) ∨
      (s.state = .syncPulseTrain ∧ t.state = .syncSeek) ∨ (s.state = .accumulateWait ∧ t.state = .accumulateData) ∨
      (s.state = .accumulateData ∧ t.state = .postData) ∨ (s.state = .postData ∧ t.state = .syncSeek)) ∧
    (∀ pid, i = .seldev pid → t.state = .syncSeek ∨ t.state = s.state) ∧
    (i ≠ .step → i ≠ .service → (∀ pid, i ≠ .seldev pid) → t.state = s.state)

/-- 44_state_machine R198: SERVICE runs handlers until one blocks, reports the state and how many made progress, and never
ends in PostData. That it always ends, and the bound on `n`, rest on finitely many edges waiting, which is the model's
choice (log entry 8; 70_reset_and_hazards R296 denies it for an endless stream of edges). -/
def Obligations.ServiceRunsUntilBlocked : Prop :=
  Word 0x34000000#32 .c .service ∧
  ∀ s : State, Inv s → ∃ n t, Ticks n s t ∧ n < 5 * (buffered s).length + 5 * s.portP.length + 10 ∧
    (s.enable = false → n = 0 ∧ t = { s with state := .syncSeek }) ∧ t.state ≠ .postData ∧
    Answers .service s t
      (match t.state with
       | .syncSeek => 0 | .syncPulseTrain => 1 | .accumulateWait => 2 | .accumulateData => 3 | .postData => 4)
      (min n (2 ^ 32 - 1))

/-- 44_state_machine R199, round-trip decode: a sync train of more than `min_sync` pulses, then pairs that decode to the bits
of `bytes`, then a pair that ends the message, all buffered, no edge waiting: one SERVICE publishes and TAKE delivers exactly
those bytes. Edges that arrive meanwhile, and a message spread over several SERVICE calls, are not in this statement. -/
def Obligations.RoundTrip : Prop :=
  ∀ (s : State) (train pulses more : List Nat) (d0 d1 : Nat) (bytes : List Byte) (maxLen : BitVec 16), Inv s →
    s.enable = true → s.state = .syncSeek → s.avail = false → s.portP = [] →
    buffered s = train ++ pulses ++ d0 :: d1 :: more →
    (∀ d ∈ train, classify s.profile d = .sync) → s.profile.minSync.toNat < train.length →
    (∀ d rest, pulses = d :: rest → classify s.profile d ≠ .sync) →
    DecodesTo s.profile pulses (bitsOf bytes) →
    (decodePair s.profile d0 d1 = .termination ∨ decodePair s.profile d0 d1 = .invalid) →
    s.profile.minMsgBytes.toNat ≤ bytes.length → bytes.length ≤ s.profile.maxMsgBytes.toNat →
    s.profile.maxSync.toNat + 8 * s.profile.minMsgBytes.toNat ≤ (buffered s).length →
    bytes.length ≤ maxLen.toNat →
    ∃ t u, exec .service s = .next t ∧ t.avail = true ∧
      Does (.take maxLen) .c t u .ok bytes.length bytes.length bytes ∧ u.avail = false

/-! ### The Message Store -/

/-- 45_message_store R220. -/
def Obligations.TakeEffect : Prop :=
  (∀ maxLen : BitVec 16, Word (0x4000#16 ++ maxLen) .c (.take maxLen)) ∧
  ∀ (s : State) (maxLen : BitVec 16), InRange s →
    (s.avail = false → Does (.take maxLen) .c s s .ok 0 0 []) ∧
    (s.avail = true → ∃ data : List Byte, data.length = min s.readyLen.toNat maxLen.toNat ∧
      (∀ i, i < data.length → data[i]? = some (mbRead (!s.pend) i s)) ∧
      Does (.take maxLen) .c s { s with avail := false } .ok data.length s.readyLen.toNat data)

/-- 45_message_store R221: a published message stays as it is until it is taken. -/
def Obligations.PublishedMessageKept : Prop :=
  ∀ (i : Instr) (s t : State), Inv s → exec i s = .next t → s.avail = true →
    (∀ maxLen, i ≠ .take maxLen) → (∀ pid p, i = .seldev pid → ¬ Accepted s pid p) →
    t.avail = true ∧ t.pend = s.pend ∧ t.readyLen = s.readyLen ∧ ∀ k, mbRead (!t.pend) k t = mbRead (!s.pend) k s

/-! ### Configuration and diagnostics -/

/-- 46_config_diag R231 with the validity of 10_state R41. -/
def Obligations.SeldevEffect : Prop :=
  (∀ pid : BitVec 16, Word (0x2100#16 ++ pid) .c (.seldev pid)) ∧
  ∀ (s : State) (pid : BitVec 16), InRange s →
    (∀ p, Accepted s pid p →
      Answers (.seldev pid) s
        { s with profile := p, profileId := pid, cfgValid := true, head := s.tail, state := .syncSeek, bitIndex := 0,
                 oversize := false, pend := false, avail := false, readyLen := 0, attempts := 0, errors := 0,
                 overruns := 0, syncMin := 32767, syncMax := 0, ovf := false, lastEdge := s.tsNow, enable := true } 0 0) ∧
    ((∀ p, ¬ Accepted s pid p) →
      Does (.seldev pid) .c s { s with events := s.events ++ [.configError pid] } .cfgerr 0 0 [])

/-- 46_config_diag R233, R235, R237. -/
def Obligations.DiagnosticReads : Prop :=
  Word 0x50000000#32 .c .stats ∧ Word 0x52000000#32 .c .syncx ∧ Word 0x53000000#32 .c .ovrcnt ∧
  ∀ s : State, InRange s → Answers .stats s s s.attempts s.errors ∧
    Answers .syncx s s s.syncMin.toNat s.syncMax.toNat ∧ Answers .ovrcnt s s s.overruns 0

/-- 46_config_diag R234 with the packing of 10_state R47, bit by bit. -/
def Obligations.StatusBits : Prop :=
  Word 0x51000000#32 .c .status ∧
  ∀ s : State, InRange s → ∃ r0 r1 : BitVec 32, Answers .status s s r0.toNat r1.toNat ∧
    (r0.extractLsb' 0 3).toNat = (match s.state with
      | .syncSeek => 0 | .syncPulseTrain => 1 | .accumulateWait => 2 | .accumulateData => 3 | .postData => 4) ∧
    r0.getLsbD 3 = s.enable ∧ r0.getLsbD 4 = s.avail ∧ r0.getLsbD 5 = s.pend ∧ r0.getLsbD 6 = s.ovf ∧
    r0.getLsbD 7 = s.cfgValid ∧ r0.getLsbD 8 = s.oversize ∧ r0.extractLsb' 9 23 = 0 ∧
    r1.extractLsb' 0 16 = s.bitIndex ∧ r1.extractLsb' 16 8 = s.readyLen ∧ r1.extractLsb' 24 8 = 0

/-- 46_config_diag R236 with the fields of 10_state R40. -/
def Obligations.RdprofEffect : Prop :=
  (∀ idx : BitVec 16, Word (0x5400#16 ++ idx) .c (.rdprof idx)) ∧
  ∀ (s : State) (idx : BitVec 16), InRange s →
    (10 < idx.toNat → Refuses (.rdprof idx) s .precond) ∧
    (∀ v, [s.profile.syncW.toNat, s.profile.shortW.toNat, s.profile.longW.toNat, s.profile.termMin.toNat,
           s.profile.tol.toNat, s.profile.minSync.toNat, s.profile.maxSync.toNat, s.profile.minMsgBytes.toNat,
           s.profile.maxMsgBytes.toNat, if s.profile.fbEn then 1 else 0, s.profileId.toNat][idx.toNat]? = some v →
      Answers (.rdprof idx) s s v 0) ∧
    (Inv s → s.cfgValid = false → idx.toNat ≤ 10 → Answers (.rdprof idx) s s 0 0)

/-! ### Rules about the whole block -/

/-- 10_state R42: only an accepted SELDEV changes the profile, and the profile in force is valid. -/
def Obligations.ProfileImmutable : Prop :=
  (∀ (i : Instr) (s t : State), Inv s → exec i s = .next t → (∀ pid p, i = .seldev pid → ¬ Accepted s pid p) →
    t.profile = s.profile ∧ t.profileId = s.profileId ∧ t.cfgValid = s.cfgValid) ∧
  (∀ s : State, Inv s → s.cfgValid = true → ValidProfile s.cfg s.profile)

/-- Nothing but an accepted SELDEV lowers a counter or clears `ovf` (60_exceptions R258, 10_state R31, R43 to R45), and the
counters never pass their width. -/
def Obligations.CountersSticky : Prop :=
  ∀ (i : Instr) (s t : State), Inv s → exec i s = .next t → (∀ pid p, i = .seldev pid → ¬ Accepted s pid p) →
    s.attempts ≤ t.attempts ∧ s.errors ≤ t.errors ∧ s.overruns ≤ t.overruns ∧ (s.ovf = true → t.ovf = true) ∧
    t.attempts ≤ 2 ^ s.cfg.ctrW - 1 ∧ t.errors ≤ 2 ^ s.cfg.ctrW - 1 ∧ t.overruns ≤ 2 ^ s.cfg.ctrW - 1 ∧ t.cfg = s.cfg

/-- 30_encoding R108: a command ends with one response, on its port, the last of those given; with a status other than OK it
carries nothing, and only TAKE carries bytes. Before it stand only the responses of edges that fell inside the command. -/
def Obligations.OneResponse : Prop :=
  ∀ (i : Instr) (s t : State), Inv s → exec i s = .next t → ∃ edges r,
    t.responses = s.responses ++ edges ++ [(portOf i, r)] ∧ (∀ x ∈ edges, x.1 = .p) ∧
    (composite i = false ∨ s.portP = [] → edges = []) ∧ r.status ≠ .illegal ∧
    (r.status ≠ .ok → r.r0 = 0 ∧ r.r1 = 0 ∧ r.data = []) ∧ ((∀ maxLen, i ≠ .take maxLen) → r.data = [])

/-- 00_scope R12: a refused command changes no state at all. With no edge waiting the block after it is the block before. -/
def Obligations.RefusalChangesNothing : Prop :=
  ∀ (i : Instr) (s t : State) (port : Port) (r : Response), Inv s → s.portP = [] → exec i s = .next t →
    t.responses = s.responses ++ [(port, r)] → r.status ≠ .ok → blockOf t = blockOf s ∧ t.tsNow = s.tsNow

/-- 70_reset_and_hazards R283: the commands between reset and the first accepted SELDEV. -/
def Obligations.BeforeConfiguration : Prop :=
  ∀ (c : Config) (d : Draw) (s : State) (imm : BitVec 16), InRange s →
    blockOf s = blockOf (State.resetOf c d) →
    Does .edge .p s s .ok 0 0 [] ∧ Answers .count s s 0 0 ∧ Answers .isempty s s 1 0 ∧ Answers .isfull s s 0 0 ∧
    Refuses .pop s .precond ∧ Refuses (.peek imm) s .precond ∧ (imm ≠ 0 → Refuses (.adv imm) s .precond) ∧
    Answers (.adv 0) s s 0 0 ∧ Refuses (.enable true) s .nocfg ∧ Refuses (.classify imm) s .nocfg ∧
    Refuses .synctrain s .nocfg ∧ Refuses .decbit s .nocfg ∧ Answers (.enable false) s s 0 0 ∧ Answers .step s s 0 0 ∧
    Answers .service s s 0 0 ∧ Answers (.take imm) s s 0 0 ∧ Answers .stats s s 0 0 ∧ Answers .status s s 0 0 ∧
    Answers .syncx s s 32767 0 ∧ Answers .ovrcnt s s 0 0 ∧ (imm.toNat ≤ 10 → Answers (.rdprof imm) s s 0 0)

/-- 10_state R60: no command reads a ring slot outside the buffered ones. Two states that differ only in such slots give the
same response and differ only in such slots afterwards. -/
def Obligations.OtherSlotsUnread : Prop :=
  ∀ (i : Instr) (s s' t : State), Inv s → Inv s' → s' = { s with rb := s'.rb } → buffered s' = buffered s →
    exec i s = .next t → ∃ t', exec i s' = .next t' ∧ t' = { t with rb := t'.rb } ∧ buffered t' = buffered t

/-! ### Frames -/

/-- The commands that only read give a response and leave everything else (COUNT, ISFULL, ISEMPTY, PEEK, CLASSIFY, STATS,
STATUS, SYNCX, OVRCNT, RDPROF). -/
def Obligations.FrameReads : Prop :=
  ∀ (i : Instr) (s t : State), reads i = true → exec i s = .next t →
    t = { s with responses := t.responses } ∧ (∀ slot, memRead t.rb slot = memRead s.rb slot) ∧
    ∀ b k, mbRead b k t = mbRead b k s

/-- What POP, ADV, ENABLE, TAKE and SELDEV leave: POP and ADV write `head`, ENABLE writes `enable` and `last_edge`, TAKE
writes `avail`, SELDEV never writes `tail`; none of them writes a memory. -/
def Obligations.FrameConsumerAtoms : Prop :=
  ∀ (i : Instr) (s t : State), exec i s = .next t →
    (i = .pop ∨ (∃ k, i = .adv k) → t = { s with head := t.head, responses := t.responses }) ∧
    ((∃ en, i = .enable en) → t = { s with enable := t.enable, lastEdge := t.lastEdge, responses := t.responses }) ∧
    ((∃ maxLen, i = .take maxLen) → t = { s with avail := t.avail, responses := t.responses }) ∧
    ((∃ pid, i = .seldev pid) → t.tail = s.tail ∧ t.cfg = s.cfg ∧ t.tsNow = s.tsNow ∧ t.portP = s.portP ∧
      t.portC = s.portC ∧ t.order = s.order ∧ t.rst = s.rst) ∧
    (i = .pop ∨ (∃ k, i = .adv k) ∨ (∃ en, i = .enable en) ∨ (∃ maxLen, i = .take maxLen) ∨ (∃ pid, i = .seldev pid) →
      (∀ slot, memRead t.rb slot = memRead s.rb slot) ∧ ∀ b k, mbRead b k t = mbRead b k s)

/-- EDGE writes the producer's side only, and of the memories only slot `tail` of `RB` (60_exceptions R262, 10_state R58). -/
def Obligations.FrameEdge : Prop :=
  ∀ s t : State, Inv s → exec .edge s = .next t →
    t = { s with rb := t.rb, tail := t.tail, lastEdge := t.lastEdge, ovf := t.ovf, responses := t.responses,
                 events := t.events } ∧
    (∀ slot, slot ≠ s.tail → memRead t.rb slot = memRead s.rb slot) ∧ (∀ b k, mbRead b k t = mbRead b k s) ∧
    (t.tail = s.tail → ∀ slot, memRead t.rb slot = memRead s.rb slot)

/-- What SYNCTRAIN, DECBIT, STEP and SERVICE leave when no edge falls inside them: never the producer's side or the
configuration; SYNCTRAIN and DECBIT no memory; STEP of the memories only bytes `bit_index >> 3 .. max_msg_bytes - 1` of the
pending buffer; SERVICE only bytes below `max_msg_bytes`. -/
def Obligations.FrameComposite : Prop :=
  ∀ (i : Instr) (s t : State), Inv s → s.portP = [] → exec i s = .next t →
    (i = .decbit → t = { s with head := t.head, order := t.order, responses := t.responses }) ∧
    (i = .synctrain → t = { s with head := t.head, syncMin := t.syncMin, syncMax := t.syncMax, order := t.order,
                                   responses := t.responses }) ∧
    (i = .step ∨ i = .service →
      t = { s with head := t.head, bitIndex := t.bitIndex, readyLen := t.readyLen, state := t.state, avail := t.avail,
                   pend := t.pend, oversize := t.oversize, attempts := t.attempts, errors := t.errors,
                   overruns := t.overruns, syncMin := t.syncMin, syncMax := t.syncMax, mb0 := t.mb0, mb1 := t.mb1,
                   order := t.order, responses := t.responses, events := t.events }) ∧
    (composite i = true → ∀ slot, memRead t.rb slot = memRead s.rb slot) ∧
    (i = .decbit ∨ i = .synctrain → ∀ b k, mbRead b k t = mbRead b k s) ∧
    (i = .step → (∀ k, mbRead (!s.pend) k t = mbRead (!s.pend) k s) ∧
      ∀ k, (k < s.bitIndex.toNat / 8 ∨ s.profile.maxMsgBytes.toNat ≤ k) → mbRead s.pend k t = mbRead s.pend k s) ∧
    (i = .service → ∀ b k, s.profile.maxMsgBytes.toNat ≤ k → mbRead b k t = mbRead b k s)

end Statements
end

