-- ==== Sys2Proof/Laws/Arith.lean ====
section
/-! SUPPORT. The laws of 47_arithmetic R245 for the operations with a modulus, and saturation. -/

namespace Sys2Proof.Machine

/-- `(a - b) mod m` for residues: the difference, or the difference plus the modulus. -/
theorem modSub_eq {a b m : Nat} (ha : a < m) (hb : b < m) : modSub a b m = if b ≤ a then a - b else a + m - b := by
  unfold modSub
  split
  · rw [Int.emod_eq_of_lt (by omega) (by omega)]; omega
  · rw [← Int.add_emod_right (a := (a : Int) - b), Int.emod_eq_of_lt (by omega) (by omega)]; omega

theorem modSub_lt (a b : Nat) {m : Nat} (hm : 0 < m) : modSub a b m < m := by
  unfold modSub
  have h1 := Int.emod_lt_of_pos ((a : Int) - b) (by omega : (0 : Int) < m)
  have h2 := Int.emod_nonneg ((a : Int) - b) (by omega : (m : Int) ≠ 0)
  omega

/-- An index moved forward by at most the modulus. -/
theorem addMod_eq {a k m : Nat} (ha : a < m) (hk : k ≤ m) : (a + k) % m = if a + k < m then a + k else a + k - m := by
  split
  · next h => exact Nat.mod_eq_of_lt h
  · next h =>
    rw [Nat.mod_eq_sub_mod (Nat.le_of_not_lt h)]
    exact Nat.mod_eq_of_lt (by omega)

theorem satAdd1_le (w c : Nat) : satAdd1 w c ≤ c + 1 := Nat.min_le_left _ _

theorem satAdd1_lt (w c : Nat) : satAdd1 w c < 2 ^ w :=
  Nat.lt_of_le_of_lt (Nat.min_le_right _ _) (Nat.sub_lt (Nat.two_pow_pos w) Nat.one_pos)

/-- A counter never goes down (10_state R43). -/
theorem le_satAdd1 {w c : Nat} (h : c < 2 ^ w) : c ≤ satAdd1 w c := by
  unfold satAdd1
  omega

theorem satAdd1_mono {w a b : Nat} (h : a ≤ b) : satAdd1 w a ≤ satAdd1 w b := by
  unfold satAdd1
  omega

end Sys2Proof.Machine
end

