-- ==== Sys2Proof/Laws/Memory.lean ====
section
/-! SUPPORT. The laws of a memory in canonical form: read after write, and that a write keeps the form. -/

namespace Sys2Proof.Machine

variable {w : Nat}

theorem Memory.wf_nil : Memory.wf ([] : Cells w) := ⟨List.Pairwise.nil, by simp⟩

theorem Memory.wf_tail {e : Nat × BitVec w} {m : Cells w} (h : Memory.wf (e :: m)) : Memory.wf m :=
  ⟨(List.pairwise_cons.mp h.1).2, fun x hx => h.2 x (List.mem_cons_of_mem _ hx)⟩

/-- An index below every listed one is unlisted. -/
theorem memRead_below {m : Cells w} {i : Nat} (h : ∀ e ∈ m, i < e.1) : memRead m i = unlisted w := by
  induction m with
  | nil => rfl
  | cons e m ih =>
    have he := h e (by simp)
    simp only [memRead, if_neg (show e.1 ≠ i by omega)]
    exact ih fun x hx => h x (List.mem_cons_of_mem _ hx)

/-- What a write leaves at every index. -/
theorem memRead_memWrite {m : Cells w} (h : Memory.wf m) (i j : Nat) (v : BitVec w) :
    memRead (memWrite m i v) j = if i = j then v else memRead m j := by
  induction m with
  | nil =>
    by_cases hv : v = unlisted w <;> by_cases hj : i = j <;> simp [memWrite, memRead, hv, hj]
  | cons e m ih =>
    obtain ⟨a, x⟩ := e
    have hab : ∀ e ∈ m, a < e.1 := fun e he => (List.pairwise_cons.mp h.1).1 e he
    have ih := ih (Memory.wf_tail h)
    unfold memWrite
    by_cases h1 : i < a
    · have hi : memRead ((a, x) :: m) i = unlisted w :=
        memRead_below fun e he => by
          rcases List.mem_cons.mp he with rfl | he
          · exact h1
          · exact Nat.lt_trans h1 (hab e he)
      by_cases hv : v = unlisted w
      · simp only [h1, hv, ↓reduceIte]
        split
        · next hij => rw [← hij, hi]
        · rfl
      · simp only [h1, hv, ↓reduceIte, memRead]
    · by_cases h2 : i = a
      · subst h2
        have hi : memRead m i = unlisted w := memRead_below hab
        by_cases hv : v = unlisted w
        · simp only [Nat.lt_irrefl, hv, ↓reduceIte, memRead]
          split
          · next hij => rw [← hij, hi]
          · rfl
        · simp only [Nat.lt_irrefl, hv, ↓reduceIte, memRead]
          split <;> rfl
      · simp only [h1, h2, ↓reduceIte, memRead, ih]
        by_cases h3 : a = j
        · subst h3
          simp [h2]
        · simp [h3]

theorem memRead_memWrite_same {m : Cells w} (h : Memory.wf m) (i : Nat) (v : BitVec w) :
    memRead (memWrite m i v) i = v := by simp [memRead_memWrite h]

theorem memRead_memWrite_other {m : Cells w} (h : Memory.wf m) {i j : Nat} (hij : i ≠ j) (v : BitVec w) :
    memRead (memWrite m i v) j = memRead m j := by simp [memRead_memWrite h, hij]

/-- A write lists no index but its own and those listed before. -/
theorem mem_memWrite {m : Cells w} {i : Nat} {v : BitVec w} {e : Nat × BitVec w} (h : e ∈ memWrite m i v) :
    e ∈ m ∨ (e = (i, v) ∧ v ≠ unlisted w) := by
  induction m with
  | nil =>
    unfold memWrite at h
    split at h
    · simp at h
    · next hv => exact .inr ⟨by simpa using h, hv⟩
  | cons x m ih =>
    unfold memWrite at h
    split at h
    · split at h
      · exact .inl h
      · next hv =>
        rcases List.mem_cons.mp h with rfl | h
        · exact .inr ⟨rfl, hv⟩
        · exact .inl h
    · split at h
      · split at h
        · exact .inl (List.mem_cons_of_mem _ h)
        · next hv =>
          rcases List.mem_cons.mp h with rfl | h
          · exact .inr ⟨rfl, hv⟩
          · exact .inl (List.mem_cons_of_mem _ h)
      · rcases List.mem_cons.mp h with rfl | h
        · exact .inl (by simp)
        · rcases ih h with h | h
          · exact .inl (List.mem_cons_of_mem _ h)
          · exact .inr h

/-- A write keeps the canonical form. -/
theorem memWrite_wf {m : Cells w} (h : Memory.wf m) (i : Nat) (v : BitVec w) : Memory.wf (memWrite m i v) := by
  refine ⟨?_, fun e he => ?_⟩
  · induction m with
    | nil => unfold memWrite; split <;> simp
    | cons x m ih =>
      have hx := (List.pairwise_cons.mp h.1).1
      have hm := (List.pairwise_cons.mp h.1).2
      unfold memWrite
      split
      · next hlt =>
        split
        · exact h.1
        · refine List.pairwise_cons.mpr ⟨fun e he => ?_, h.1⟩
          rcases List.mem_cons.mp he with rfl | he
          · exact hlt
          · exact Nat.lt_trans hlt (hx e he)
      · split
        · next hia =>
          split
          · exact hm
          · exact List.pairwise_cons.mpr ⟨fun e he => by simpa [hia] using hx e he, hm⟩
        · next h1 h2 =>
          refine List.pairwise_cons.mpr ⟨fun e he => ?_, ih (Memory.wf_tail h)⟩
          rcases mem_memWrite he with he | ⟨rfl, _⟩
          · exact hx e he
          · exact Nat.lt_of_le_of_ne (Nat.le_of_not_lt h1) (Ne.symm h2)
  · rcases mem_memWrite he with he | ⟨rfl, hv⟩
    · exact h.2 e he
    · exact hv

/-- A write inside a memory's size stays inside. -/
theorem memWrite_within {m : Cells w} {size i : Nat} (h : Memory.within m size) (hi : i < size) (v : BitVec w) :
    Memory.within (memWrite m i v) size := by
  intro e he
  rcases mem_memWrite he with he | ⟨rfl, _⟩
  · exact h e he
  · exact hi

end Sys2Proof.Machine
end

