-- ==== Sys2Proof/Laws/State.lean ====
section
/-! SUPPORT. One lemma per field per named update of State, true by unfolding the update once, so that no proof unfolds it again. -/

namespace Sys2Proof.Machine

variable (s : State)

/-! ### `respond` -/

@[simp] theorem respond_head (port : Port) (st : Status) (r0 r1 : Nat) (data : List Byte) :
    (respond port st r0 r1 data s).head = s.head := rfl
@[simp] theorem respond_tail (port : Port) (st : Status) (r0 r1 : Nat) (data : List Byte) :
    (respond port st r0 r1 data s).tail = s.tail := rfl
@[simp] theorem respond_lastEdge (port : Port) (st : Status) (r0 r1 : Nat) (data : List Byte) :
    (respond port st r0 r1 data s).lastEdge = s.lastEdge := rfl
@[simp] theorem respond_bitIndex (port : Port) (st : Status) (r0 r1 : Nat) (data : List Byte) :
    (respond port st r0 r1 data s).bitIndex = s.bitIndex := rfl
@[simp] theorem respond_readyLen (port : Port) (st : Status) (r0 r1 : Nat) (data : List Byte) :
    (respond port st r0 r1 data s).readyLen = s.readyLen := rfl
@[simp] theorem respond_state (port : Port) (st : Status) (r0 r1 : Nat) (data : List Byte) :
    (respond port st r0 r1 data s).state = s.state := rfl
@[simp] theorem respond_enable (port : Port) (st : Status) (r0 r1 : Nat) (data : List Byte) :
    (respond port st r0 r1 data s).enable = s.enable := rfl
@[simp] theorem respond_avail (port : Port) (st : Status) (r0 r1 : Nat) (data : List Byte) :
    (respond port st r0 r1 data s).avail = s.avail := rfl
@[simp] theorem respond_pend (port : Port) (st : Status) (r0 r1 : Nat) (data : List Byte) :
    (respond port st r0 r1 data s).pend = s.pend := rfl
@[simp] theorem respond_ovf (port : Port) (st : Status) (r0 r1 : Nat) (data : List Byte) :
    (respond port st r0 r1 data s).ovf = s.ovf := rfl
@[simp] theorem respond_oversize (port : Port) (st : Status) (r0 r1 : Nat) (data : List Byte) :
    (respond port st r0 r1 data s).oversize = s.oversize := rfl
@[simp] theorem respond_cfgValid (port : Port) (st : Status) (r0 r1 : Nat) (data : List Byte) :
    (respond port st r0 r1 data s).cfgValid = s.cfgValid := rfl
@[simp] theorem respond_profile (port : Port) (st : Status) (r0 r1 : Nat) (data : List Byte) :
    (respond port st r0 r1 data s).profile = s.profile := rfl
@[simp] theorem respond_profileId (port : Port) (st : Status) (r0 r1 : Nat) (data : List Byte) :
    (respond port st r0 r1 data s).profileId = s.profileId := rfl
@[simp] theorem respond_attempts (port : Port) (st : Status) (r0 r1 : Nat) (data : List Byte) :
    (respond port st r0 r1 data s).attempts = s.attempts := rfl
@[simp] theorem respond_errors (port : Port) (st : Status) (r0 r1 : Nat) (data : List Byte) :
    (respond port st r0 r1 data s).errors = s.errors := rfl
@[simp] theorem respond_overruns (port : Port) (st : Status) (r0 r1 : Nat) (data : List Byte) :
    (respond port st r0 r1 data s).overruns = s.overruns := rfl
@[simp] theorem respond_syncMin (port : Port) (st : Status) (r0 r1 : Nat) (data : List Byte) :
    (respond port st r0 r1 data s).syncMin = s.syncMin := rfl
@[simp] theorem respond_syncMax (port : Port) (st : Status) (r0 r1 : Nat) (data : List Byte) :
    (respond port st r0 r1 data s).syncMax = s.syncMax := rfl
@[simp] theorem respond_rb (port : Port) (st : Status) (r0 r1 : Nat) (data : List Byte) :
    (respond port st r0 r1 data s).rb = s.rb := rfl
@[simp] theorem respond_mb0 (port : Port) (st : Status) (r0 r1 : Nat) (data : List Byte) :
    (respond port st r0 r1 data s).mb0 = s.mb0 := rfl
@[simp] theorem respond_mb1 (port : Port) (st : Status) (r0 r1 : Nat) (data : List Byte) :
    (respond port st r0 r1 data s).mb1 = s.mb1 := rfl
@[simp] theorem respond_cfg (port : Port) (st : Status) (r0 r1 : Nat) (data : List Byte) :
    (respond port st r0 r1 data s).cfg = s.cfg := rfl
@[simp] theorem respond_tsNow (port : Port) (st : Status) (r0 r1 : Nat) (data : List Byte) :
    (respond port st r0 r1 data s).tsNow = s.tsNow := rfl
@[simp] theorem respond_portP (port : Port) (st : Status) (r0 r1 : Nat) (data : List Byte) :
    (respond port st r0 r1 data s).portP = s.portP := rfl
@[simp] theorem respond_portC (port : Port) (st : Status) (r0 r1 : Nat) (data : List Byte) :
    (respond port st r0 r1 data s).portC = s.portC := rfl
@[simp] theorem respond_order (port : Port) (st : Status) (r0 r1 : Nat) (data : List Byte) :
    (respond port st r0 r1 data s).order = s.order := rfl
@[simp] theorem respond_rst (port : Port) (st : Status) (r0 r1 : Nat) (data : List Byte) :
    (respond port st r0 r1 data s).rst = s.rst := rfl
@[simp] theorem respond_responses (port : Port) (st : Status) (r0 r1 : Nat) (data : List Byte) :
    (respond port st r0 r1 data s).responses = s.responses ++ [(port, { status := st, r0 := BitVec.ofNat 32 r0, r1 := BitVec.ofNat 32 r1, data := data })] := rfl
@[simp] theorem respond_events (port : Port) (st : Status) (r0 r1 : Nat) (data : List Byte) :
    (respond port st r0 r1 data s).events = s.events := rfl

/-! ### `raise` -/

@[simp] theorem raise_head (e : Event) : (raise e s).head = s.head := rfl
@[simp] theorem raise_tail (e : Event) : (raise e s).tail = s.tail := rfl
@[simp] theorem raise_lastEdge (e : Event) : (raise e s).lastEdge = s.lastEdge := rfl
@[simp] theorem raise_bitIndex (e : Event) : (raise e s).bitIndex = s.bitIndex := rfl
@[simp] theorem raise_readyLen (e : Event) : (raise e s).readyLen = s.readyLen := rfl
@[simp] theorem raise_state (e : Event) : (raise e s).state = s.state := rfl
@[simp] theorem raise_enable (e : Event) : (raise e s).enable = s.enable := rfl
@[simp] theorem raise_avail (e : Event) : (raise e s).avail = s.avail := rfl
@[simp] theorem raise_pend (e : Event) : (raise e s).pend = s.pend := rfl
@[simp] theorem raise_ovf (e : Event) : (raise e s).ovf = s.ovf := rfl
@[simp] theorem raise_oversize (e : Event) : (raise e s).oversize = s.oversize := rfl
@[simp] theorem raise_cfgValid (e : Event) : (raise e s).cfgValid = s.cfgValid := rfl
@[simp] theorem raise_profile (e : Event) : (raise e s).profile = s.profile := rfl
@[simp] theorem raise_profileId (e : Event) : (raise e s).profileId = s.profileId := rfl
@[simp] theorem raise_attempts (e : Event) : (raise e s).attempts = s.attempts := rfl
@[simp] theorem raise_errors (e : Event) : (raise e s).errors = s.errors := rfl
@[simp] theorem raise_overruns (e : Event) : (raise e s).overruns = s.overruns := rfl
@[simp] theorem raise_syncMin (e : Event) : (raise e s).syncMin = s.syncMin := rfl
@[simp] theorem raise_syncMax (e : Event) : (raise e s).syncMax = s.syncMax := rfl
@[simp] theorem raise_rb (e : Event) : (raise e s).rb = s.rb := rfl
@[simp] theorem raise_mb0 (e : Event) : (raise e s).mb0 = s.mb0 := rfl
@[simp] theorem raise_mb1 (e : Event) : (raise e s).mb1 = s.mb1 := rfl
@[simp] theorem raise_cfg (e : Event) : (raise e s).cfg = s.cfg := rfl
@[simp] theorem raise_tsNow (e : Event) : (raise e s).tsNow = s.tsNow := rfl
@[simp] theorem raise_portP (e : Event) : (raise e s).portP = s.portP := rfl
@[simp] theorem raise_portC (e : Event) : (raise e s).portC = s.portC := rfl
@[simp] theorem raise_order (e : Event) : (raise e s).order = s.order := rfl
@[simp] theorem raise_rst (e : Event) : (raise e s).rst = s.rst := rfl
@[simp] theorem raise_responses (e : Event) : (raise e s).responses = s.responses := rfl
@[simp] theorem raise_events (e : Event) : (raise e s).events = s.events ++ [e] := rfl

/-! ### `rbAdv` -/

@[simp] theorem rbAdv_head (k : Nat) : (rbAdv k s).head = (s.head + k) % s.cfg.n := rfl
@[simp] theorem rbAdv_tail (k : Nat) : (rbAdv k s).tail = s.tail := rfl
@[simp] theorem rbAdv_lastEdge (k : Nat) : (rbAdv k s).lastEdge = s.lastEdge := rfl
@[simp] theorem rbAdv_bitIndex (k : Nat) : (rbAdv k s).bitIndex = s.bitIndex := rfl
@[simp] theorem rbAdv_readyLen (k : Nat) : (rbAdv k s).readyLen = s.readyLen := rfl
@[simp] theorem rbAdv_state (k : Nat) : (rbAdv k s).state = s.state := rfl
@[simp] theorem rbAdv_enable (k : Nat) : (rbAdv k s).enable = s.enable := rfl
@[simp] theorem rbAdv_avail (k : Nat) : (rbAdv k s).avail = s.avail := rfl
@[simp] theorem rbAdv_pend (k : Nat) : (rbAdv k s).pend = s.pend := rfl
@[simp] theorem rbAdv_ovf (k : Nat) : (rbAdv k s).ovf = s.ovf := rfl
@[simp] theorem rbAdv_oversize (k : Nat) : (rbAdv k s).oversize = s.oversize := rfl
@[simp] theorem rbAdv_cfgValid (k : Nat) : (rbAdv k s).cfgValid = s.cfgValid := rfl
@[simp] theorem rbAdv_profile (k : Nat) : (rbAdv k s).profile = s.profile := rfl
@[simp] theorem rbAdv_profileId (k : Nat) : (rbAdv k s).profileId = s.profileId := rfl
@[simp] theorem rbAdv_attempts (k : Nat) : (rbAdv k s).attempts = s.attempts := rfl
@[simp] theorem rbAdv_errors (k : Nat) : (rbAdv k s).errors = s.errors := rfl
@[simp] theorem rbAdv_overruns (k : Nat) : (rbAdv k s).overruns = s.overruns := rfl
@[simp] theorem rbAdv_syncMin (k : Nat) : (rbAdv k s).syncMin = s.syncMin := rfl
@[simp] theorem rbAdv_syncMax (k : Nat) : (rbAdv k s).syncMax = s.syncMax := rfl
@[simp] theorem rbAdv_rb (k : Nat) : (rbAdv k s).rb = s.rb := rfl
@[simp] theorem rbAdv_mb0 (k : Nat) : (rbAdv k s).mb0 = s.mb0 := rfl
@[simp] theorem rbAdv_mb1 (k : Nat) : (rbAdv k s).mb1 = s.mb1 := rfl
@[simp] theorem rbAdv_cfg (k : Nat) : (rbAdv k s).cfg = s.cfg := rfl
@[simp] theorem rbAdv_tsNow (k : Nat) : (rbAdv k s).tsNow = s.tsNow := rfl
@[simp] theorem rbAdv_portP (k : Nat) : (rbAdv k s).portP = s.portP := rfl
@[simp] theorem rbAdv_portC (k : Nat) : (rbAdv k s).portC = s.portC := rfl
@[simp] theorem rbAdv_order (k : Nat) : (rbAdv k s).order = s.order := rfl
@[simp] theorem rbAdv_rst (k : Nat) : (rbAdv k s).rst = s.rst := rfl
@[simp] theorem rbAdv_responses (k : Nat) : (rbAdv k s).responses = s.responses := rfl
@[simp] theorem rbAdv_events (k : Nat) : (rbAdv k s).events = s.events := rfl

/-! ### `storeEdge` -/

@[simp] theorem storeEdge_head (now : Nat) : (storeEdge now s).head = s.head := rfl
@[simp] theorem storeEdge_tail (now : Nat) : (storeEdge now s).tail = (s.tail + 1) % s.cfg.n := rfl
@[simp] theorem storeEdge_lastEdge (now : Nat) : (storeEdge now s).lastEdge = now := rfl
@[simp] theorem storeEdge_bitIndex (now : Nat) : (storeEdge now s).bitIndex = s.bitIndex := rfl
@[simp] theorem storeEdge_readyLen (now : Nat) : (storeEdge now s).readyLen = s.readyLen := rfl
@[simp] theorem storeEdge_state (now : Nat) : (storeEdge now s).state = s.state := rfl
@[simp] theorem storeEdge_enable (now : Nat) : (storeEdge now s).enable = s.enable := rfl
@[simp] theorem storeEdge_avail (now : Nat) : (storeEdge now s).avail = s.avail := rfl
@[simp] theorem storeEdge_pend (now : Nat) : (storeEdge now s).pend = s.pend := rfl
@[simp] theorem storeEdge_ovf (now : Nat) : (storeEdge now s).ovf = s.ovf := rfl
@[simp] theorem storeEdge_oversize (now : Nat) : (storeEdge now s).oversize = s.oversize := rfl
@[simp] theorem storeEdge_cfgValid (now : Nat) : (storeEdge now s).cfgValid = s.cfgValid := rfl
@[simp] theorem storeEdge_profile (now : Nat) : (storeEdge now s).profile = s.profile := rfl
@[simp] theorem storeEdge_profileId (now : Nat) : (storeEdge now s).profileId = s.profileId := rfl
@[simp] theorem storeEdge_attempts (now : Nat) : (storeEdge now s).attempts = s.attempts := rfl
@[simp] theorem storeEdge_errors (now : Nat) : (storeEdge now s).errors = s.errors := rfl
@[simp] theorem storeEdge_overruns (now : Nat) : (storeEdge now s).overruns = s.overruns := rfl
@[simp] theorem storeEdge_syncMin (now : Nat) : (storeEdge now s).syncMin = s.syncMin := rfl
@[simp] theorem storeEdge_syncMax (now : Nat) : (storeEdge now s).syncMax = s.syncMax := rfl
@[simp] theorem storeEdge_rb (now : Nat) :
    (storeEdge now s).rb = memWrite s.rb s.tail (BitVec.ofNat 16 (edgeDuration now s)) := rfl
@[simp] theorem storeEdge_mb0 (now : Nat) : (storeEdge now s).mb0 = s.mb0 := rfl
@[simp] theorem storeEdge_mb1 (now : Nat) : (storeEdge now s).mb1 = s.mb1 := rfl
@[simp] theorem storeEdge_cfg (now : Nat) : (storeEdge now s).cfg = s.cfg := rfl
@[simp] theorem storeEdge_tsNow (now : Nat) : (storeEdge now s).tsNow = s.tsNow := rfl
@[simp] theorem storeEdge_portP (now : Nat) : (storeEdge now s).portP = s.portP := rfl
@[simp] theorem storeEdge_portC (now : Nat) : (storeEdge now s).portC = s.portC := rfl
@[simp] theorem storeEdge_order (now : Nat) : (storeEdge now s).order = s.order := rfl
@[simp] theorem storeEdge_rst (now : Nat) : (storeEdge now s).rst = s.rst := rfl
@[simp] theorem storeEdge_responses (now : Nat) : (storeEdge now s).responses = s.responses := rfl
@[simp] theorem storeEdge_events (now : Nat) : (storeEdge now s).events = s.events := rfl

/-! ### `widenExtremes` -/

@[simp] theorem widenExtremes_head (d : Nat) : (widenExtremes d s).head = s.head := rfl
@[simp] theorem widenExtremes_tail (d : Nat) : (widenExtremes d s).tail = s.tail := rfl
@[simp] theorem widenExtremes_lastEdge (d : Nat) : (widenExtremes d s).lastEdge = s.lastEdge := rfl
@[simp] theorem widenExtremes_bitIndex (d : Nat) : (widenExtremes d s).bitIndex = s.bitIndex := rfl
@[simp] theorem widenExtremes_readyLen (d : Nat) : (widenExtremes d s).readyLen = s.readyLen := rfl
@[simp] theorem widenExtremes_state (d : Nat) : (widenExtremes d s).state = s.state := rfl
@[simp] theorem widenExtremes_enable (d : Nat) : (widenExtremes d s).enable = s.enable := rfl
@[simp] theorem widenExtremes_avail (d : Nat) : (widenExtremes d s).avail = s.avail := rfl
@[simp] theorem widenExtremes_pend (d : Nat) : (widenExtremes d s).pend = s.pend := rfl
@[simp] theorem widenExtremes_ovf (d : Nat) : (widenExtremes d s).ovf = s.ovf := rfl
@[simp] theorem widenExtremes_oversize (d : Nat) : (widenExtremes d s).oversize = s.oversize := rfl
@[simp] theorem widenExtremes_cfgValid (d : Nat) : (widenExtremes d s).cfgValid = s.cfgValid := rfl
@[simp] theorem widenExtremes_profile (d : Nat) : (widenExtremes d s).profile = s.profile := rfl
@[simp] theorem widenExtremes_profileId (d : Nat) : (widenExtremes d s).profileId = s.profileId := rfl
@[simp] theorem widenExtremes_attempts (d : Nat) : (widenExtremes d s).attempts = s.attempts := rfl
@[simp] theorem widenExtremes_errors (d : Nat) : (widenExtremes d s).errors = s.errors := rfl
@[simp] theorem widenExtremes_overruns (d : Nat) : (widenExtremes d s).overruns = s.overruns := rfl
@[simp] theorem widenExtremes_syncMin (d : Nat) :
    (widenExtremes d s).syncMin = BitVec.ofNat 15 (min s.syncMin.toNat d) := rfl
@[simp] theorem widenExtremes_syncMax (d : Nat) :
    (widenExtremes d s).syncMax = BitVec.ofNat 15 (max s.syncMax.toNat d) := rfl
@[simp] theorem widenExtremes_rb (d : Nat) : (widenExtremes d s).rb = s.rb := rfl
@[simp] theorem widenExtremes_mb0 (d : Nat) : (widenExtremes d s).mb0 = s.mb0 := rfl
@[simp] theorem widenExtremes_mb1 (d : Nat) : (widenExtremes d s).mb1 = s.mb1 := rfl
@[simp] theorem widenExtremes_cfg (d : Nat) : (widenExtremes d s).cfg = s.cfg := rfl
@[simp] theorem widenExtremes_tsNow (d : Nat) : (widenExtremes d s).tsNow = s.tsNow := rfl
@[simp] theorem widenExtremes_portP (d : Nat) : (widenExtremes d s).portP = s.portP := rfl
@[simp] theorem widenExtremes_portC (d : Nat) : (widenExtremes d s).portC = s.portC := rfl
@[simp] theorem widenExtremes_order (d : Nat) : (widenExtremes d s).order = s.order := rfl
@[simp] theorem widenExtremes_rst (d : Nat) : (widenExtremes d s).rst = s.rst := rfl
@[simp] theorem widenExtremes_responses (d : Nat) : (widenExtremes d s).responses = s.responses := rfl
@[simp] theorem widenExtremes_events (d : Nat) : (widenExtremes d s).events = s.events := rfl

/-! ### `countAttempt` -/

@[simp] theorem countAttempt_head : (countAttempt s).head = s.head := rfl
@[simp] theorem countAttempt_tail : (countAttempt s).tail = s.tail := rfl
@[simp] theorem countAttempt_lastEdge : (countAttempt s).lastEdge = s.lastEdge := rfl
@[simp] theorem countAttempt_bitIndex : (countAttempt s).bitIndex = s.bitIndex := rfl
@[simp] theorem countAttempt_readyLen : (countAttempt s).readyLen = s.readyLen := rfl
@[simp] theorem countAttempt_state : (countAttempt s).state = s.state := rfl
@[simp] theorem countAttempt_enable : (countAttempt s).enable = s.enable := rfl
@[simp] theorem countAttempt_avail : (countAttempt s).avail = s.avail := rfl
@[simp] theorem countAttempt_pend : (countAttempt s).pend = s.pend := rfl
@[simp] theorem countAttempt_ovf : (countAttempt s).ovf = s.ovf := rfl
@[simp] theorem countAttempt_oversize : (countAttempt s).oversize = s.oversize := rfl
@[simp] theorem countAttempt_cfgValid : (countAttempt s).cfgValid = s.cfgValid := rfl
@[simp] theorem countAttempt_profile : (countAttempt s).profile = s.profile := rfl
@[simp] theorem countAttempt_profileId : (countAttempt s).profileId = s.profileId := rfl
@[simp] theorem countAttempt_attempts : (countAttempt s).attempts = satAdd1 s.cfg.ctrW s.attempts := rfl
@[simp] theorem countAttempt_errors : (countAttempt s).errors = s.errors := rfl
@[simp] theorem countAttempt_overruns : (countAttempt s).overruns = s.overruns := rfl
@[simp] theorem countAttempt_syncMin : (countAttempt s).syncMin = s.syncMin := rfl
@[simp] theorem countAttempt_syncMax : (countAttempt s).syncMax = s.syncMax := rfl
@[simp] theorem countAttempt_rb : (countAttempt s).rb = s.rb := rfl
@[simp] theorem countAttempt_mb0 : (countAttempt s).mb0 = s.mb0 := rfl
@[simp] theorem countAttempt_mb1 : (countAttempt s).mb1 = s.mb1 := rfl
@[simp] theorem countAttempt_cfg : (countAttempt s).cfg = s.cfg := rfl
@[simp] theorem countAttempt_tsNow : (countAttempt s).tsNow = s.tsNow := rfl
@[simp] theorem countAttempt_portP : (countAttempt s).portP = s.portP := rfl
@[simp] theorem countAttempt_portC : (countAttempt s).portC = s.portC := rfl
@[simp] theorem countAttempt_order : (countAttempt s).order = s.order := rfl
@[simp] theorem countAttempt_rst : (countAttempt s).rst = s.rst := rfl
@[simp] theorem countAttempt_responses : (countAttempt s).responses = s.responses := rfl
@[simp] theorem countAttempt_events : (countAttempt s).events = s.events := rfl

/-! ### `countError` -/

@[simp] theorem countError_head : (countError s).head = s.head := rfl
@[simp] theorem countError_tail : (countError s).tail = s.tail := rfl
@[simp] theorem countError_lastEdge : (countError s).lastEdge = s.lastEdge := rfl
@[simp] theorem countError_bitIndex : (countError s).bitIndex = s.bitIndex := rfl
@[simp] theorem countError_readyLen : (countError s).readyLen = s.readyLen := rfl
@[simp] theorem countError_state : (countError s).state = s.state := rfl
@[simp] theorem countError_enable : (countError s).enable = s.enable := rfl
@[simp] theorem countError_avail : (countError s).avail = s.avail := rfl
@[simp] theorem countError_pend : (countError s).pend = s.pend := rfl
@[simp] theorem countError_ovf : (countError s).ovf = s.ovf := rfl
@[simp] theorem countError_oversize : (countError s).oversize = s.oversize := rfl
@[simp] theorem countError_cfgValid : (countError s).cfgValid = s.cfgValid := rfl
@[simp] theorem countError_profile : (countError s).profile = s.profile := rfl
@[simp] theorem countError_profileId : (countError s).profileId = s.profileId := rfl
@[simp] theorem countError_attempts : (countError s).attempts = s.attempts := rfl
@[simp] theorem countError_errors : (countError s).errors = satAdd1 s.cfg.ctrW s.errors := rfl
@[simp] theorem countError_overruns : (countError s).overruns = s.overruns := rfl
@[simp] theorem countError_syncMin : (countError s).syncMin = s.syncMin := rfl
@[simp] theorem countError_syncMax : (countError s).syncMax = s.syncMax := rfl
@[simp] theorem countError_rb : (countError s).rb = s.rb := rfl
@[simp] theorem countError_mb0 : (countError s).mb0 = s.mb0 := rfl
@[simp] theorem countError_mb1 : (countError s).mb1 = s.mb1 := rfl
@[simp] theorem countError_cfg : (countError s).cfg = s.cfg := rfl
@[simp] theorem countError_tsNow : (countError s).tsNow = s.tsNow := rfl
@[simp] theorem countError_portP : (countError s).portP = s.portP := rfl
@[simp] theorem countError_portC : (countError s).portC = s.portC := rfl
@[simp] theorem countError_order : (countError s).order = s.order := rfl
@[simp] theorem countError_rst : (countError s).rst = s.rst := rfl
@[simp] theorem countError_responses : (countError s).responses = s.responses := rfl
@[simp] theorem countError_events : (countError s).events = s.events := rfl

/-! ### `countOverrun` -/

@[simp] theorem countOverrun_head : (countOverrun s).head = s.head := rfl
@[simp] theorem countOverrun_tail : (countOverrun s).tail = s.tail := rfl
@[simp] theorem countOverrun_lastEdge : (countOverrun s).lastEdge = s.lastEdge := rfl
@[simp] theorem countOverrun_bitIndex : (countOverrun s).bitIndex = s.bitIndex := rfl
@[simp] theorem countOverrun_readyLen : (countOverrun s).readyLen = s.readyLen := rfl
@[simp] theorem countOverrun_state : (countOverrun s).state = s.state := rfl
@[simp] theorem countOverrun_enable : (countOverrun s).enable = s.enable := rfl
@[simp] theorem countOverrun_avail : (countOverrun s).avail = s.avail := rfl
@[simp] theorem countOverrun_pend : (countOverrun s).pend = s.pend := rfl
@[simp] theorem countOverrun_ovf : (countOverrun s).ovf = s.ovf := rfl
@[simp] theorem countOverrun_oversize : (countOverrun s).oversize = s.oversize := rfl
@[simp] theorem countOverrun_cfgValid : (countOverrun s).cfgValid = s.cfgValid := rfl
@[simp] theorem countOverrun_profile : (countOverrun s).profile = s.profile := rfl
@[simp] theorem countOverrun_profileId : (countOverrun s).profileId = s.profileId := rfl
@[simp] theorem countOverrun_attempts : (countOverrun s).attempts = s.attempts := rfl
@[simp] theorem countOverrun_errors : (countOverrun s).errors = s.errors := rfl
@[simp] theorem countOverrun_overruns : (countOverrun s).overruns = satAdd1 s.cfg.ctrW s.overruns := rfl
@[simp] theorem countOverrun_syncMin : (countOverrun s).syncMin = s.syncMin := rfl
@[simp] theorem countOverrun_syncMax : (countOverrun s).syncMax = s.syncMax := rfl
@[simp] theorem countOverrun_rb : (countOverrun s).rb = s.rb := rfl
@[simp] theorem countOverrun_mb0 : (countOverrun s).mb0 = s.mb0 := rfl
@[simp] theorem countOverrun_mb1 : (countOverrun s).mb1 = s.mb1 := rfl
@[simp] theorem countOverrun_cfg : (countOverrun s).cfg = s.cfg := rfl
@[simp] theorem countOverrun_tsNow : (countOverrun s).tsNow = s.tsNow := rfl
@[simp] theorem countOverrun_portP : (countOverrun s).portP = s.portP := rfl
@[simp] theorem countOverrun_portC : (countOverrun s).portC = s.portC := rfl
@[simp] theorem countOverrun_order : (countOverrun s).order = s.order := rfl
@[simp] theorem countOverrun_rst : (countOverrun s).rst = s.rst := rfl
@[simp] theorem countOverrun_responses : (countOverrun s).responses = s.responses := rfl
@[simp] theorem countOverrun_events : (countOverrun s).events = s.events := rfl

/-! ### `mbWrite`: a message buffer write leaves every other field alone -/

@[simp] theorem mbWrite_head (b : Bool) (i : Nat) (v : Byte) : (mbWrite b i v s).head = s.head := by
  cases b <;> rfl
@[simp] theorem mbWrite_tail (b : Bool) (i : Nat) (v : Byte) : (mbWrite b i v s).tail = s.tail := by
  cases b <;> rfl
@[simp] theorem mbWrite_lastEdge (b : Bool) (i : Nat) (v : Byte) : (mbWrite b i v s).lastEdge = s.lastEdge := by
  cases b <;> rfl
@[simp] theorem mbWrite_bitIndex (b : Bool) (i : Nat) (v : Byte) : (mbWrite b i v s).bitIndex = s.bitIndex := by
  cases b <;> rfl
@[simp] theorem mbWrite_readyLen (b : Bool) (i : Nat) (v : Byte) : (mbWrite b i v s).readyLen = s.readyLen := by
  cases b <;> rfl
@[simp] theorem mbWrite_state (b : Bool) (i : Nat) (v : Byte) : (mbWrite b i v s).state = s.state := by
  cases b <;> rfl
@[simp] theorem mbWrite_enable (b : Bool) (i : Nat) (v : Byte) : (mbWrite b i v s).enable = s.enable := by
  cases b <;> rfl
@[simp] theorem mbWrite_avail (b : Bool) (i : Nat) (v : Byte) : (mbWrite b i v s).avail = s.avail := by
  cases b <;> rfl
@[simp] theorem mbWrite_pend (b : Bool) (i : Nat) (v : Byte) : (mbWrite b i v s).pend = s.pend := by
  cases b <;> rfl
@[simp] theorem mbWrite_ovf (b : Bool) (i : Nat) (v : Byte) : (mbWrite b i v s).ovf = s.ovf := by
  cases b <;> rfl
@[simp] theorem mbWrite_oversize (b : Bool) (i : Nat) (v : Byte) : (mbWrite b i v s).oversize = s.oversize := by
  cases b <;> rfl
@[simp] theorem mbWrite_cfgValid (b : Bool) (i : Nat) (v : Byte) : (mbWrite b i v s).cfgValid = s.cfgValid := by
  cases b <;> rfl
@[simp] theorem mbWrite_profile (b : Bool) (i : Nat) (v : Byte) : (mbWrite b i v s).profile = s.profile := by
  cases b <;> rfl
@[simp] theorem mbWrite_profileId (b : Bool) (i : Nat) (v : Byte) : (mbWrite b i v s).profileId = s.profileId := by
  cases b <;> rfl
@[simp] theorem mbWrite_attempts (b : Bool) (i : Nat) (v : Byte) : (mbWrite b i v s).attempts = s.attempts := by
  cases b <;> rfl
@[simp] theorem mbWrite_errors (b : Bool) (i : Nat) (v : Byte) : (mbWrite b i v s).errors = s.errors := by
  cases b <;> rfl
@[simp] theorem mbWrite_overruns (b : Bool) (i : Nat) (v : Byte) : (mbWrite b i v s).overruns = s.overruns := by
  cases b <;> rfl
@[simp] theorem mbWrite_syncMin (b : Bool) (i : Nat) (v : Byte) : (mbWrite b i v s).syncMin = s.syncMin := by
  cases b <;> rfl
@[simp] theorem mbWrite_syncMax (b : Bool) (i : Nat) (v : Byte) : (mbWrite b i v s).syncMax = s.syncMax := by
  cases b <;> rfl
@[simp] theorem mbWrite_rb (b : Bool) (i : Nat) (v : Byte) : (mbWrite b i v s).rb = s.rb := by
  cases b <;> rfl
@[simp] theorem mbWrite_cfg (b : Bool) (i : Nat) (v : Byte) : (mbWrite b i v s).cfg = s.cfg := by
  cases b <;> rfl
@[simp] theorem mbWrite_tsNow (b : Bool) (i : Nat) (v : Byte) : (mbWrite b i v s).tsNow = s.tsNow := by
  cases b <;> rfl
@[simp] theorem mbWrite_portP (b : Bool) (i : Nat) (v : Byte) : (mbWrite b i v s).portP = s.portP := by
  cases b <;> rfl
@[simp] theorem mbWrite_portC (b : Bool) (i : Nat) (v : Byte) : (mbWrite b i v s).portC = s.portC := by
  cases b <;> rfl
@[simp] theorem mbWrite_order (b : Bool) (i : Nat) (v : Byte) : (mbWrite b i v s).order = s.order := by
  cases b <;> rfl
@[simp] theorem mbWrite_rst (b : Bool) (i : Nat) (v : Byte) : (mbWrite b i v s).rst = s.rst := by
  cases b <;> rfl
@[simp] theorem mbWrite_responses (b : Bool) (i : Nat) (v : Byte) : (mbWrite b i v s).responses = s.responses := by
  cases b <;> rfl
@[simp] theorem mbWrite_events (b : Bool) (i : Nat) (v : Byte) : (mbWrite b i v s).events = s.events := by
  cases b <;> rfl

end Sys2Proof.Machine
end

