-- ==== Sys2Proof/Laws/Ring.lean ====
section
/-! SUPPORT. The ring as a first-in first-out list of durations: what `rbAdv` and an accepted edge do to `buffered`. -/

namespace Sys2Proof.Machine

/-- The indices are slots and the ring memory is in canonical form. -/
structure RingOk (s : State) : Prop where
  two : 2 ≤ s.cfg.n
  head : s.head < s.cfg.n
  tail : s.tail < s.cfg.n
  mem : Memory.wf s.rb

theorem Inv.ringOk {s : State} (h : Inv s) : RingOk s :=
  ⟨h.inRange.1.1.1, h.inRange.2.2.1, h.inRange.2.2.2.1, h.rbMem.1⟩

/-- Fields the ring operations read. -/
theorem buffered_congr {s t : State} (hh : t.head = s.head) (ht : t.tail = s.tail) (hc : t.cfg = s.cfg) (hr : t.rb = s.rb) :
    buffered t = buffered s := by
  simp only [buffered, rbCount, rbPeek, rbSlot, hh, ht, hc, hr]

theorem rbCount_congr {s t : State} (hh : t.head = s.head) (ht : t.tail = s.tail) (hc : t.cfg = s.cfg) :
    rbCount t = rbCount s := by
  simp only [rbCount, hh, ht, hc]

@[simp] theorem buffered_length (s : State) : (buffered s).length = rbCount s := by simp [buffered]

theorem buffered_getElem? (s : State) (o : Nat) :
    (buffered s)[o]? = if o < rbCount s then some (rbPeek o s) else none := by
  unfold buffered
  split
  · next h => simp [List.getElem?_range h]
  · next h => simp [h]

theorem RingOk.count_lt {s : State} (h : RingOk s) : rbCount s < s.cfg.n := modSub_lt _ _ (by have := h.two; omega)

theorem RingOk.count_cases {s : State} (h : RingOk s) :
    (s.head ≤ s.tail ∧ rbCount s = s.tail - s.head) ∨ (s.tail < s.head ∧ rbCount s = s.tail + s.cfg.n - s.head) := by
  have := modSub_eq h.tail h.head
  unfold rbCount
  split at this <;> omega

theorem RingOk.retire {s : State} (h : RingOk s) (k : Nat) : RingOk (rbAdv k s) :=
  ⟨h.two, Nat.mod_lt _ (by have := h.two; simp; omega), h.tail, h.mem⟩

/-- Retiring `k` samples (40_ring_buffer R130). -/
theorem RingOk.count_rbAdv {s : State} (h : RingOk s) {k : Nat} (hk : k ≤ rbCount s) :
    rbCount (rbAdv k s) = rbCount s - k := by
  have hlt := h.count_lt
  have h1 := (h.retire k).count_cases
  have h2 := h.count_cases
  simp only [rbAdv_head, rbAdv_tail, rbAdv_cfg] at h1
  have h3 := addMod_eq h.head (k := k) (by omega)
  have := h.head
  have := h.tail
  split at h3 <;> omega

theorem rbPeek_rbAdv (s : State) (k o : Nat) : rbPeek o (rbAdv k s) = rbPeek (k + o) s := by
  simp only [rbPeek, rbSlot, rbAdv_head, rbAdv_cfg, rbAdv_rb, Nat.mod_add_mod, Nat.add_assoc]

theorem RingOk.buffered_rbAdv {s : State} (h : RingOk s) {k : Nat} (hk : k ≤ rbCount s) :
    buffered (rbAdv k s) = (buffered s).drop k := by
  apply List.ext_getElem?
  intro o
  rw [List.getElem?_drop, buffered_getElem?, buffered_getElem?, h.count_rbAdv hk, rbPeek_rbAdv]
  by_cases ho : k + o < rbCount s
  · rw [if_pos ho, if_pos (by omega)]
  · rw [if_neg ho, if_neg (by omega)]

/-- Offsets below `N` name distinct slots. -/
theorem RingOk.slot_ne_tail {s : State} (h : RingOk s) {o : Nat} (ho : o < rbCount s) : s.tail ≠ rbSlot o s := by
  have hlt := h.count_lt
  have hc := h.count_cases
  have := h.head
  have := h.tail
  unfold rbSlot
  rw [addMod_eq h.head (by omega)]
  split <;> omega

theorem RingOk.slot_count {s : State} (h : RingOk s) : rbSlot (rbCount s) s = s.tail := by
  have hlt := h.count_lt
  have hc := h.count_cases
  have := h.head
  have := h.tail
  unfold rbSlot
  rw [addMod_eq h.head (by omega)]
  split <;> omega

theorem edgeDuration_le (now : Nat) (s : State) : edgeDuration now s ≤ 32767 := Nat.min_le_right _ _

theorem RingOk.accept {s : State} (h : RingOk s) (now : Nat) : RingOk (storeEdge now s) :=
  ⟨h.two, h.head, Nat.mod_lt _ (by have := h.two; simp; omega), by simpa using memWrite_wf h.mem _ _⟩

/-- An accepted edge makes the count one larger (40_ring_buffer R131). -/
theorem RingOk.count_storeEdge {s : State} (h : RingOk s) (hf : ringFull s = false) (now : Nat) :
    rbCount (storeEdge now s) = rbCount s + 1 := by
  have hlt := h.count_lt
  have h1 := (h.accept now).count_cases
  have h2 := h.count_cases
  have hne : rbCount s ≠ s.cfg.n - 1 := by simpa [ringFull] using hf
  simp only [storeEdge_head, storeEdge_tail, storeEdge_cfg] at h1
  have h3 := addMod_eq h.tail (k := 1) (by omega)
  have := h.head
  have := h.tail
  split at h3 <;> omega

theorem slot_storeEdge (s : State) (now o : Nat) : rbSlot o (storeEdge now s) = rbSlot o s := rfl

/-- What an accepted edge stores: a word whose bit 15 is 0 (10_state R50). -/
theorem RingOk.read_storeEdge {s : State} (h : RingOk s) (now i : Nat) :
    memRead (storeEdge now s).rb i =
      if s.tail = i then BitVec.ofNat 16 (edgeDuration now s) else memRead s.rb i := by
  rw [storeEdge_rb, memRead_memWrite h.mem]

theorem duration_of_sample {d : Nat} (h : d ≤ 32767) : ((BitVec.ofNat 16 d).extractLsb' 0 15).toNat = d := by
  simp only [BitVec.extractLsb'_toNat, BitVec.toNat_ofNat, Nat.shiftRight_zero]
  omega

theorem RingOk.buffered_storeEdge {s : State} (h : RingOk s) (hf : ringFull s = false) (now : Nat) :
    buffered (storeEdge now s) = buffered s ++ [edgeDuration now s] := by
  apply List.ext_getElem?
  intro o
  rw [buffered_getElem?, h.count_storeEdge hf]
  by_cases ho : o < rbCount s
  · rw [if_pos (by omega), List.getElem?_append_left (by simpa using ho), buffered_getElem?, if_pos ho]
    simp only [rbPeek, slot_storeEdge, h.read_storeEdge, if_neg (h.slot_ne_tail ho)]
  · rw [List.getElem?_append_right (by simpa using Nat.le_of_not_lt ho)]
    by_cases ho' : o = rbCount s
    · subst ho'
      simp only [rbPeek, slot_storeEdge, h.read_storeEdge, h.slot_count, buffered_length, Nat.sub_self]
      simp [duration_of_sample (edgeDuration_le now s)]
    · rw [if_neg (by omega), List.getElem?_eq_none (by simp; omega)]

end Sys2Proof.Machine
end

