-- ==== Sys2Proof/Laws/Invariant.lean ====
section
/-! SUPPORT. How `Inv` and `InRange` survive the updates that touch only inputs and outputs, and the decoded facts about the
record of responses. -/

namespace Sys2Proof.Machine

/-- Two states with the same block differ only in inputs and outputs. -/
theorem eq_of_blockOf {s t : State} (h : blockOf t = blockOf s) :
    t = { s with tsNow := t.tsNow, portP := t.portP, portC := t.portC, order := t.order, rst := t.rst,
                 responses := t.responses, events := t.events } := by
  cases s
  cases t
  simp only [blockOf, State.mk.injEq] at h ⊢
  simp [h]

/-- `Inv` speaks of the block and asks only that the inputs be in range. -/
theorem Inv.of_blockOf {s t : State} (h : Inv s) (hb : blockOf t = blockOf s) (hi : inputsInRange t) : Inv t := by
  have e := eq_of_blockOf hb
  generalize t.tsNow = a1 at e
  generalize t.portP = a2 at e
  generalize t.portC = a3 at e
  generalize t.order = a4 at e
  generalize t.rst = a5 at e
  generalize t.responses = a6 at e
  generalize t.events = a7 at e
  subst e
  exact ⟨⟨h.inRange.1, hi, h.inRange.2.2⟩, h.rbMem, h.mbMem, h.samples, h.enabled, h.profileOk, h.unconfigured,
    h.bitIndexOk, h.oversizeFull, h.readyOk, h.counters⟩

@[simp] theorem blockOf_respond (port : Port) (st : Status) (r0 r1 : Nat) (data : List Byte) (s : State) :
    blockOf (respond port st r0 r1 data s) = blockOf s := rfl

@[simp] theorem blockOf_raise (e : Event) (s : State) : blockOf (raise e s) = blockOf s := rfl

theorem Inv.respond {s : State} (h : Inv s) (port : Port) (st : Status) (r0 r1 : Nat) (data : List Byte) :
    Inv (respond port st r0 r1 data s) := h.of_blockOf rfl h.inRange.2.1

theorem Inv.raise {s : State} (h : Inv s) (e : Event) : Inv (raise e s) := h.of_blockOf rfl h.inRange.2.1

theorem InRange.respond {s : State} (h : InRange s) (port : Port) (st : Status) (r0 r1 : Nat) (data : List Byte) :
    InRange (Machine.respond port st r0 r1 data s) := h

end Sys2Proof.Machine
end

