-- ==== Sys2Proof/Laws/Outcome.lean ====
section
/-! SUPPORT. What the guarded outcomes answer, and the induction rules of `iterate`. -/

namespace Sys2Proof.Machine

variable {α β : Type}

theorem guarded_eq {s : State} (h : InRange s) (k : State → Host.Outcome State Fault Refusal) : guarded s k = k s := by
  simp only [guarded, if_pos h.1, if_pos h.2.1, if_pos h.2.2]

theorem completes_eq {s : State} (h : InRange s) (f : State → State) : completes s f = .next (f s) := guarded_eq h _

theorem returns_eq {s t : State} (h : InRange s) {f : State → Option State} (hf : f s = some t) :
    returns s f = .next t := by
  simp only [returns, guarded_eq h, hf]

/-- A guarded command gives a next state only in range. -/
theorem guarded_next {s t : State} {k : State → Host.Outcome State Fault Refusal} (h : guarded s k = .next t) :
    InRange s ∧ k s = .next t := by
  unfold guarded at h
  split at h
  · next h1 =>
    split at h
    · next h2 =>
      split at h
      · next h3 => exact ⟨⟨h1, h2, h3⟩, h⟩
      · cases h
    · cases h
  · cases h

theorem completes_next {s t : State} {f : State → State} (h : completes s f = .next t) : InRange s ∧ t = f s := by
  obtain ⟨hr, h⟩ := guarded_next h
  exact ⟨hr, by cases h; rfl⟩

theorem returns_next {s t : State} {f : State → Option State} (h : returns s f = .next t) :
    InRange s ∧ f s = some t := by
  obtain ⟨hr, h⟩ := guarded_next h
  refine ⟨hr, ?_⟩
  split at h
  · next u hu => cases h; exact hu
  · cases h

/-- What a turn may leave: `P` if the loop goes on, `Q` if it ends. -/
def TurnLeaves (P : α → State → Prop) (Q : β → State → Prop) : Turn α β → Prop
  | .again a s => P a s
  | .done b s => Q b s

/-- A loop whose every turn keeps `P` until it ends with `Q` ends with `Q`. -/
theorem iterate_leaves {body : α → State → Option (Turn α β)} (P : α → State → Prop) (Q : β → State → Prop)
    (turn : ∀ a s r, P a s → body a s = some r → TurnLeaves P Q r) :
    ∀ {fuel : Nat} {a : α} {s : State} {b : β} {t : State}, P a s → iterate body fuel a s = some (b, t) → Q b t
  | 0, _, _, _, _, _, h => by simp [iterate] at h
  | fuel + 1, a, s, b, t, hP, h => by
    unfold iterate at h
    split at h
    · cases h
    · next a' s' hb => exact iterate_leaves P Q turn (turn a s _ hP hb) h
    · next b' s' hb =>
      cases h
      exact turn a s _ hP hb

/-- A loop whose turns lower a measure ends, given more fuel than the measure. -/
theorem iterate_ends {body : α → State → Option (Turn α β)} (P : α → State → Prop) (μ : α → State → Nat)
    (turn : ∀ a s, P a s → ∃ r, body a s = some r ∧
      TurnLeaves (fun a' s' => P a' s' ∧ μ a' s' < μ a s) (fun _ _ => True) r) :
    ∀ {fuel : Nat} {a : α} {s : State}, P a s → μ a s < fuel → ∃ b t, iterate body fuel a s = some (b, t)
  | 0, _, _, _, h => by omega
  | fuel + 1, a, s, hP, h => by
    obtain ⟨r, hr, hl⟩ := turn a s hP
    unfold iterate
    rw [hr]
    match r, hl with
    | .again a' s', hl => exact iterate_ends P μ turn hl.1 (Nat.lt_of_lt_of_le hl.2 (Nat.le_of_lt_succ h))
    | .done b t, _ => exact ⟨b, t, rfl⟩

end Sys2Proof.Machine
end

