-- ==== Sys2Proof/Laws/Evolve.lean ====
section
/-! SUPPORT. What a composite consumer command and the edges that fall inside it can do to the state (`Evolves`), and what
the edges at one boundary can do (`EdgesFell`): said once, composed by transitivity. -/

namespace Sys2Proof.Machine

/-- The three counters fit their width (10_state R43 to R45). -/
def CountersOk (s : State) : Prop :=
  s.attempts < 2 ^ s.cfg.ctrW ∧ s.errors < 2 ^ s.cfg.ctrW ∧ s.overruns < 2 ^ s.cfg.ctrW

/-- What every atom of a composite command, and every edge between two atoms, keeps. -/
structure Evolves (s t : State) : Prop where
  cfg : t.cfg = s.cfg
  profile : t.profile = s.profile
  profileId : t.profileId = s.profileId
  cfgValid : t.cfgValid = s.cfgValid
  enable : t.enable = s.enable
  portC : t.portC = s.portC
  rst : t.rst = s.rst
  /-- a published message stays as it is (45_message_store R221) -/
  store : s.avail = true → t.avail = true ∧ t.pend = s.pend ∧ t.readyLen = s.readyLen ∧
    ∀ i, mbRead (!s.pend) i t = mbRead (!s.pend) i s
  /-- counters only grow (10_state R43) -/
  counters : CountersOk s → CountersOk t ∧ s.attempts ≤ t.attempts ∧ s.errors ≤ t.errors ∧ s.overruns ≤ t.overruns
  /-- the overflow flag is sticky (10_state R31) -/
  sticky : s.ovf = true → t.ovf = true
  /-- samples only come from waiting edges -/
  ring : RingOk s → RingOk t ∧ supply t ≤ supply s
  /-- the only responses are those of edges -/
  responses : ∃ rs, t.responses = s.responses ++ rs ∧ ∀ r ∈ rs, r.1 = Port.p
  /-- with no edge waiting, nothing of the producer's side moves (60_exceptions R262) -/
  quiet : s.portP = [] → t.portP = [] ∧ t.tail = s.tail ∧ t.rb = s.rb ∧ t.lastEdge = s.lastEdge ∧ t.ovf = s.ovf ∧
    t.responses = s.responses ∧ t.tsNow = s.tsNow
  /-- no message byte at or above `max_msg_bytes` is written (44_state_machine R194) -/
  above : Inv s → ∀ b k, s.profile.maxMsgBytes.toNat ≤ k → mbRead b k t = mbRead b k s
  inv : Inv s → Inv t

theorem Evolves.refl (s : State) : Evolves s s where
  cfg := rfl
  profile := rfl
  profileId := rfl
  cfgValid := rfl
  enable := rfl
  portC := rfl
  rst := rfl
  store h := ⟨h, rfl, rfl, fun _ => rfl⟩
  counters h := ⟨h, Nat.le_refl _, Nat.le_refl _, Nat.le_refl _⟩
  sticky h := h
  ring h := ⟨h, Nat.le_refl _⟩
  responses := ⟨[], by simp⟩
  quiet h := ⟨h, rfl, rfl, rfl, rfl, rfl, rfl⟩
  above _ _ _ _ := rfl
  inv h := h

theorem Evolves.trans {s t u : State} (h : Evolves s t) (k : Evolves t u) : Evolves s u where
  cfg := k.cfg.trans h.cfg
  profile := k.profile.trans h.profile
  profileId := k.profileId.trans h.profileId
  cfgValid := k.cfgValid.trans h.cfgValid
  enable := k.enable.trans h.enable
  portC := k.portC.trans h.portC
  rst := k.rst.trans h.rst
  store ha := by
    obtain ⟨h1, h2, h3, h4⟩ := h.store ha
    obtain ⟨k1, k2, k3, k4⟩ := k.store h1
    exact ⟨k1, k2.trans h2, k3.trans h3, fun i => by rw [← h4 i, ← h2]; exact k4 i⟩
  counters hc := by
    obtain ⟨h1, h2, h3, h4⟩ := h.counters hc
    obtain ⟨k1, k2, k3, k4⟩ := k.counters h1
    exact ⟨k1, Nat.le_trans h2 k2, Nat.le_trans h3 k3, Nat.le_trans h4 k4⟩
  sticky ho := k.sticky (h.sticky ho)
  ring hr := by
    obtain ⟨h1, h2⟩ := h.ring hr
    obtain ⟨k1, k2⟩ := k.ring h1
    exact ⟨k1, Nat.le_trans k2 h2⟩
  responses := by
    obtain ⟨rs, h1, h2⟩ := h.responses
    obtain ⟨rs', k1, k2⟩ := k.responses
    exact ⟨rs ++ rs', by simp [k1, h1], fun r hr => (List.mem_append.mp hr).elim (h2 r) (k2 r)⟩
  quiet hq := by
    obtain ⟨h1, h2, h3, h4, h5, h6, h7⟩ := h.quiet hq
    obtain ⟨k1, k2, k3, k4, k5, k6, k7⟩ := k.quiet h1
    exact ⟨k1, k2.trans h2, k3.trans h3, k4.trans h4, k5.trans h5, k6.trans h6, k7.trans h7⟩
  above hi b i hb := (k.above (h.inv hi) b i (by rw [h.profile]; exact hb)).trans (h.above hi b i hb)
  inv hi := k.inv (h.inv hi)

/-- What the edges that fall at one boundary can do (20_memory R86): everything is kept but the producer's side and the
record of outputs, and the buffered samples are extended at the end. -/
structure EdgesFell (s t : State) : Prop extends Evolves s t where
  frame : ∃ tl rb le ov ts pp od rs ev, t =
    { s with tail := tl, rb := rb, lastEdge := le, ovf := ov, tsNow := ts, portP := pp, order := od, responses := rs,
             events := ev }
  appended : RingOk s → ∃ new, buffered t = buffered s ++ new ∧ (s.portP = [] → new = [])
  silent : s.portP = [] → t.events = s.events

theorem EdgesFell.refl (s : State) : EdgesFell s s :=
  { Evolves.refl s with
    frame := ⟨_, _, _, _, _, _, _, _, _, rfl⟩
    appended := fun _ => ⟨[], by simp⟩
    silent := fun _ => rfl }

theorem EdgesFell.trans {s t u : State} (h : EdgesFell s t) (k : EdgesFell t u) : EdgesFell s u :=
  { h.toEvolves.trans k.toEvolves with
    frame := by
      obtain ⟨_, _, _, _, _, _, _, _, _, e⟩ := h.frame
      obtain ⟨_, _, _, _, _, _, _, _, _, e'⟩ := k.frame
      rw [e] at e'
      exact ⟨_, _, _, _, _, _, _, _, _, e'⟩
    appended := fun hr => by
      obtain ⟨new, h1, h2⟩ := h.appended hr
      obtain ⟨new', k1, k2⟩ := k.appended (h.ring hr).1
      exact ⟨new ++ new', by simp [k1, h1], fun hq => by simp [h2 hq, k2 (h.quiet hq).1]⟩
    silent := fun hq => (k.silent (h.quiet hq).1).trans (h.silent hq) }

/-- Consuming schedule entries is no event. -/
theorem EdgesFell.order (s : State) (od : List Port) : EdgesFell s { s with order := od } where
  cfg := rfl
  profile := rfl
  profileId := rfl
  cfgValid := rfl
  enable := rfl
  portC := rfl
  rst := rfl
  store h := ⟨h, rfl, rfl, fun _ => rfl⟩
  counters h := ⟨h, Nat.le_refl _, Nat.le_refl _, Nat.le_refl _⟩
  sticky h := h
  ring h := ⟨⟨h.two, h.head, h.tail, h.mem⟩, Nat.le_refl _⟩
  responses := ⟨[], by simp⟩
  quiet h := ⟨h, rfl, rfl, rfl, rfl, rfl, rfl⟩
  above _ _ _ _ := rfl
  inv h := h.of_blockOf rfl h.inRange.2.1
  frame := ⟨_, _, _, _, _, _, _, _, _, rfl⟩
  appended _ := ⟨[], (buffered_congr rfl rfl rfl rfl).trans (List.append_nil _).symm, by simp⟩
  silent _ := rfl

/-- The EDGE atom keeps the invariant (40_ring_buffer R131). -/
theorem Inv.edgeAtom {s : State} (h : Inv s) {now : Nat} (hn : now < s.cfg.tsMod) : Inv (edgeAtom now s) := by
  unfold Machine.edgeAtom
  split
  · exact h.respond _ _ _ _ _
  · split
    · refine Inv.respond (Inv.raise ?_ _) _ _ _ _ _
      exact ⟨h.inRange, h.rbMem, h.mbMem, h.samples, h.enabled, h.profileOk, h.unconfigured, h.bitIndexOk, h.oversizeFull,
        h.readyOk, h.counters⟩
    · next hf =>
      have hf : ringFull s = false := by simpa using hf
      refine Inv.respond ?_ _ _ _ _ _
      have hr := h.ringOk
      have hr' := hr.accept now
      refine ⟨⟨h.inRange.1, h.inRange.2.1, h.inRange.2.2.1, hr'.tail, hn, h.inRange.2.2.2.2.2⟩,
        ⟨hr'.mem, memWrite_within h.rbMem.2 hr.tail _⟩, h.mbMem, fun o ho => ?_, h.enabled, h.profileOk, h.unconfigured,
        h.bitIndexOk, h.oversizeFull, h.readyOk, h.counters⟩
      rw [hr.count_storeEdge hf] at ho
      rw [slot_storeEdge, hr.read_storeEdge]
      have hd := edgeDuration_le now s
      split
      · rw [BitVec.getLsbD_ofNat, Nat.testBit_lt_two_pow (by omega)]
        exact Bool.and_false _
      · next hne =>
        by_cases ho' : o = rbCount s
        · exact absurd (ho' ▸ hr.slot_count).symm hne
        · exact h.samples o (by omega)

/-- What a word on port P can do between two consumer atoms. -/
theorem EdgesFell.producerAtom (cmd : Command) (cmds : List Command) (s : State) (hp : s.portP = cmd :: cmds) :
    EdgesFell s (producerAtom cmd { s with portP := cmds }) := by
  have hb (s' : State) (h1 : s'.head = s.head) (h2 : s'.tail = s.tail) (h3 : s'.cfg = s.cfg) (h4 : s'.rb = s.rb)
      (h5 : s'.portP = cmds) (hr : RingOk s) : RingOk s' ∧ supply s' ≤ supply s :=
    ⟨⟨h3 ▸ hr.two, by rw [h1, h3]; exact hr.head, by rw [h2, h3]; exact hr.tail, h4 ▸ hr.mem⟩, by
      simp only [supply, rbCount_congr h1 h2 h3, h5, hp, List.length_cons]; omega⟩
  have hin (hi : Inv s) : Inv { s with portP := cmds, tsNow := cmd.ts } ∧ cmd.ts < s.cfg.tsMod := by
    have := hi.inRange.2.1
    rw [inputsInRange, hp] at this
    exact ⟨hi.of_blockOf rfl ⟨this.2.1 cmd (by simp), fun c hc => this.2.1 c (by simp [hc]), this.2.2⟩,
      this.2.1 cmd (by simp)⟩
  have hs (s' : State) (h1 : s'.avail = s.avail) (h2 : s'.pend = s.pend) (h3 : s'.readyLen = s.readyLen)
      (h4 : s'.mb0 = s.mb0) (h5 : s'.mb1 = s.mb1) (ha : s.avail = true) :
      s'.avail = true ∧ s'.pend = s.pend ∧ s'.readyLen = s.readyLen ∧
        ∀ i, mbRead (!s.pend) i s' = mbRead (!s.pend) i s :=
    ⟨h1 ▸ ha, h2, h3, fun i => by simp only [mbRead, msgBuf, h4, h5]⟩
  have hq : s.portP ≠ [] := by simp [hp]
  unfold Machine.producerAtom
  split
  · unfold Machine.edgeAtom
    split
    · refine ⟨⟨rfl, rfl, rfl, rfl, rfl, rfl, rfl, hs _ rfl rfl rfl rfl rfl, fun h => ⟨h, ?_⟩, id, hb _ rfl rfl rfl rfl rfl,
        ⟨_, rfl, by simp⟩, fun h => absurd h hq, fun _ _ _ _ => rfl, fun hi => ?_⟩, ⟨_, _, _, _, _, _, _, _, _, rfl⟩,
        fun _ => ⟨[], (buffered_congr rfl rfl rfl rfl).trans (List.append_nil _).symm, by simp⟩, fun h => absurd h hq⟩
      · exact ⟨Nat.le_refl _, Nat.le_refl _, Nat.le_refl _⟩
      · exact (hin hi).1.respond _ _ _ _ _
    · next he =>
      split
      · next hf =>
        refine ⟨⟨rfl, rfl, rfl, rfl, rfl, rfl, rfl, hs _ rfl rfl rfl rfl rfl, fun h => ⟨h, ?_⟩, fun _ => rfl, hb _ rfl rfl rfl rfl rfl,
          ⟨_, rfl, by simp⟩, fun h => absurd h hq, fun _ _ _ _ => rfl, fun hi => ?_⟩, ⟨_, _, _, _, _, _, _, _, _, rfl⟩,
          fun _ => ⟨[], (buffered_congr rfl rfl rfl rfl).trans (List.append_nil _).symm, by simp⟩, fun h => absurd h hq⟩
        · exact ⟨Nat.le_refl _, Nat.le_refl _, Nat.le_refl _⟩
        · have := (hin hi).1.edgeAtom (hin hi).2
          unfold Machine.edgeAtom at this
          rw [if_neg he, if_pos hf] at this
          exact this
      · next hf =>
        have hf' : ringFull { s with portP := cmds, tsNow := cmd.ts } = false := by simpa using hf
        have hk (hr : RingOk s) : RingOk { s with portP := cmds, tsNow := cmd.ts } :=
          ⟨hr.two, hr.head, hr.tail, hr.mem⟩
        refine ⟨⟨rfl, rfl, rfl, rfl, rfl, rfl, rfl, hs _ rfl rfl rfl rfl rfl, fun h => ⟨h, ?_⟩, id, fun hr => ⟨?_, ?_⟩,
          ⟨_, rfl, by simp⟩, fun h => absurd h hq, fun _ _ _ _ => rfl, fun hi => ?_⟩, ⟨_, _, _, _, _, _, _, _, _, rfl⟩, fun hr => ?_,
          fun h => absurd h hq⟩
        · exact ⟨Nat.le_refl _, Nat.le_refl _, Nat.le_refl _⟩
        · have := (hk hr).accept cmd.ts
          exact ⟨this.two, this.head, this.tail, this.mem⟩
        · have := (hk hr).count_storeEdge hf' cmd.ts
          simp only [supply, hp, List.length_cons]
          have e : rbCount { s with portP := cmds, tsNow := cmd.ts } = rbCount s := rfl
          have e2 : rbCount (respond Port.p Status.ok 1 0 []
              (storeEdge cmd.ts { s with portP := cmds, tsNow := cmd.ts })) =
            rbCount (storeEdge cmd.ts { s with portP := cmds, tsNow := cmd.ts }) := rfl
          simp only [respond_portP, storeEdge_portP, e2, this, e]
          omega
        · have := (hin hi).1.edgeAtom (hin hi).2
          unfold Machine.edgeAtom at this
          rw [if_neg he, if_neg hf] at this
          exact this
        · exact ⟨[edgeDuration cmd.ts { s with portP := cmds, tsNow := cmd.ts }],
            (hk hr).buffered_storeEdge hf' cmd.ts, fun h => absurd h hq⟩
  · refine ⟨⟨rfl, rfl, rfl, rfl, rfl, rfl, rfl, hs _ rfl rfl rfl rfl rfl, fun h => ⟨h, ?_⟩, id, hb _ rfl rfl rfl rfl rfl,
      ⟨_, rfl, by simp⟩, fun h => absurd h hq, fun _ _ _ _ => rfl, fun hi => ?_⟩, ⟨_, _, _, _, _, _, _, _, _, rfl⟩,
      fun _ => ⟨[], (buffered_congr rfl rfl rfl rfl).trans (List.append_nil _).symm, by simp⟩, fun h => absurd h hq⟩
    · exact ⟨Nat.le_refl _, Nat.le_refl _, Nat.le_refl _⟩
    · exact ((hin hi).1.raise _).respond _ _ _ _ _

theorem EdgesFell.producerTurns (s : State) : ∀ od, EdgesFell s (producerTurns od s)
  | [] => .order s []
  | .c :: rest => .order s rest
  | .p :: rest => by
    unfold Machine.producerTurns
    split
    · exact EdgesFell.producerTurns s rest
    · next cmd cmds hp => exact (EdgesFell.producerAtom cmd cmds s hp).trans (EdgesFell.producerTurns _ rest)

/-- What the edges at a boundary can do. -/
theorem EdgesFell.boundary (s : State) : EdgesFell s (boundary s) := EdgesFell.producerTurns s s.order

/-- A sample that was buffered before an edge fell is still at its offset (20_memory R86). -/
theorem EdgesFell.kept {s t : State} (h : EdgesFell s t) (hr : RingOk s) :
    rbCount s ≤ rbCount t ∧ ∀ o, o < rbCount s → rbPeek o t = rbPeek o s := by
  obtain ⟨new, hn, _⟩ := h.appended hr
  have hl : rbCount t = rbCount s + new.length := by
    rw [← buffered_length, hn, List.length_append, buffered_length]
  refine ⟨by omega, fun o ho => ?_⟩
  have h1 := buffered_getElem? t o
  rw [hn, List.getElem?_append_left (by simpa using ho), buffered_getElem?, if_pos ho, if_pos (by omega)] at h1
  exact (Option.some.inj h1).symm

/-! ### What falls at a boundary does not read the schedule -/

theorem edgeAtom_order (now : Nat) (s : State) (od : List Port) :
    edgeAtom now { s with order := od } = { edgeAtom now s with order := od } := by
  have e : ringFull { s with order := od } = ringFull s := rfl
  unfold edgeAtom
  rw [e]
  split
  · rfl
  · split <;> rfl

theorem producerAtom_order (cmd : Command) (s : State) (od : List Port) :
    producerAtom cmd { s with order := od } = { producerAtom cmd s with order := od } := by
  unfold producerAtom
  split
  · exact edgeAtom_order cmd.ts { s with tsNow := cmd.ts } od
  · rfl

theorem producerTurns_order (turns : List Port) :
    ∀ (s : State) (od : List Port), producerTurns turns { s with order := od } = producerTurns turns s := by
  induction turns with
  | nil => exact fun _ _ => rfl
  | cons port rest ih =>
    intro s od
    cases port with
    | c => rfl
    | p =>
      unfold producerTurns
      simp only []
      cases hp : s.portP with
      | nil =>
        have := ih s od
        rwa [hp] at this
      | cons cmd cmds =>
        have := producerAtom_order cmd { s with portP := cmds } od
        simp only [] at this ⊢
        rw [this, ih]

end Sys2Proof.Machine
end

