-- ==== Sys2Proof/Laws/Handlers.lean ====
section
/-! SUPPORT. The consumer's own updates, the Sync Detector, the Bit Decoder and the five handlers: what each keeps
(`Evolves`), and that each ends. -/

namespace Sys2Proof.Machine

theorem Inv.countersOk {s : State} (h : Inv s) : CountersOk s :=
  ⟨h.inRange.2.2.2.2.2.1, h.inRange.2.2.2.2.2.2.1, h.inRange.2.2.2.2.2.2.2.1⟩

/-! ### The consumer's own updates -/

/-- `rb_adv` moves only the head. -/
theorem Evolves.rbAdv {s : State} (hr : RingOk s) {k : Nat} (hk : k ≤ rbCount s) : Evolves s (rbAdv k s) where
  cfg := rfl
  profile := rfl
  profileId := rfl
  cfgValid := rfl
  enable := rfl
  portC := rfl
  rst := rfl
  store h := ⟨h, rfl, rfl, fun _ => rfl⟩
  counters h := ⟨h, Nat.le_refl _, Nat.le_refl _, Nat.le_refl _⟩
  sticky h := h
  ring _ := ⟨hr.retire k, by simp only [supply, hr.count_rbAdv hk, rbAdv_portP]; omega⟩
  responses := ⟨[], by simp⟩
  quiet h := ⟨h, rfl, rfl, rfl, rfl, rfl, rfl⟩
  above _ _ _ _ := rfl
  inv h := by
    refine ⟨⟨h.inRange.1, h.inRange.2.1, (hr.retire k).head, h.inRange.2.2.2⟩, h.rbMem, h.mbMem, fun o ho => ?_,
      h.enabled, h.profileOk, h.unconfigured, h.bitIndexOk, h.oversizeFull, h.readyOk, h.counters⟩
    rw [hr.count_rbAdv hk] at ho
    have := h.samples (k + o) (by omega)
    simpa only [rbSlot, rbAdv_head, rbAdv_cfg, rbAdv_rb, Nat.mod_add_mod, Nat.add_assoc] using this

theorem supply_rbAdv {s : State} (hr : RingOk s) {k : Nat} (hk : k ≤ rbCount s) :
    supply (rbAdv k s) + k = supply s := by
  simp only [supply, hr.count_rbAdv hk, rbAdv_portP]
  omega

/-- The decoder's registers: protocol state, bit index, oversize mark, extremes. -/
abbrev withDecoder (st : ProtocolState) (bi : BitVec 16) (os : Bool) (mn mx : BitVec 15) (s : State) : State :=
  { s with state := st, bitIndex := bi, oversize := os, syncMin := mn, syncMax := mx }

theorem Inv.withDecoder {s : State} (h : Inv s) (st : ProtocolState) {bi : BitVec 16} {os : Bool} (mn mx : BitVec 15)
    (h1 : bi.toNat ≤ 8 * s.profile.maxMsgBytes.toNat)
    (h2 : os = true → bi.toNat = 8 * s.profile.maxMsgBytes.toNat) : Inv (withDecoder st bi os mn mx s) :=
  ⟨h.inRange, h.rbMem, h.mbMem, h.samples, h.enabled, h.profileOk, h.unconfigured, h1, h2, h.readyOk, h.counters⟩

theorem Evolves.withDecoder {s : State} (st : ProtocolState) (bi : BitVec 16) (os : Bool) (mn mx : BitVec 15)
    (h1 : Inv s → bi.toNat ≤ 8 * s.profile.maxMsgBytes.toNat)
    (h2 : Inv s → os = true → bi.toNat = 8 * s.profile.maxMsgBytes.toNat) :
    Evolves s (withDecoder st bi os mn mx s) where
  cfg := rfl
  profile := rfl
  profileId := rfl
  cfgValid := rfl
  enable := rfl
  portC := rfl
  rst := rfl
  store h := ⟨h, rfl, rfl, fun _ => rfl⟩
  counters h := ⟨h, Nat.le_refl _, Nat.le_refl _, Nat.le_refl _⟩
  sticky h := h
  ring h := ⟨⟨h.two, h.head, h.tail, h.mem⟩, Nat.le_refl _⟩
  responses := ⟨[], by simp⟩
  quiet h := ⟨h, rfl, rfl, rfl, rfl, rfl, rfl⟩
  above _ _ _ _ := rfl
  inv h := h.withDecoder st mn mx (h1 h) (h2 h)

theorem Evolves.setState (s : State) (st : ProtocolState) : Evolves s { s with state := st } :=
  .withDecoder st s.bitIndex s.oversize s.syncMin s.syncMax (fun h => h.bitIndexOk) (fun h => h.oversizeFull)

theorem Evolves.setExtremes (s : State) (mn mx : BitVec 15) : Evolves s { s with syncMin := mn, syncMax := mx } :=
  .withDecoder s.state s.bitIndex s.oversize mn mx (fun h => h.bitIndexOk) (fun h => h.oversizeFull)

theorem Evolves.widenExtremes (s : State) (d : Nat) : Evolves s (widenExtremes d s) := .setExtremes s _ _

/-- A bit write stays inside the pending buffer while the size test fails (44_state_machine R194). -/
theorem Inv.storeBit {s : State} (h : Inv s) (hw : wouldExceed s = false) (b : Nat) : Inv (storeBit b s) := by
  have hlt : s.bitIndex.toNat / 8 < s.profile.maxMsgBytes.toNat := by
    exact Nat.lt_of_not_le (of_decide_eq_false hw)
  have hbuf : s.profile.maxMsgBytes.toNat ≤ s.cfg.msgBufBytes := h.inRange.2.2.2.2.2.2.2.2.2
  have hmax : s.profile.maxMsgBytes.toNat < 256 := s.profile.maxMsgBytes.isLt
  have hbi : (s.bitIndex + 1).toNat = s.bitIndex.toNat + 1 := by
    rw [BitVec.toNat_add]
    have := h.bitIndexOk
    simp
    omega
  refine ⟨?_, ?_, fun b' => ?_, ?_, ?_, ?_, ?_, ?_, fun ho => ?_, ?_, ?_⟩
  · have := h.inRange
    cases hp : s.pend <;> exact (by simpa [Machine.storeBit, mbWrite, hp] using this)
  · have := h.rbMem
    simpa [Machine.storeBit] using this
  · have hm0 := h.mbMem false
    have hm1 := h.mbMem true
    simp only [msgBuf] at hm0 hm1
    have hi : s.bitIndex.toNat / 8 < s.cfg.msgBufBytes := by omega
    cases hp : s.pend <;> cases b' <;>
      simp only [Machine.storeBit, mbWrite, msgBuf, hp, ↓reduceIte, Bool.false_eq_true] at hm0 hm1 ⊢
    · exact ⟨memWrite_wf hm0.1 _ _, memWrite_within hm0.2 hi _⟩
    · exact hm1
    · exact hm0
    · exact ⟨memWrite_wf hm1.1 _ _, memWrite_within hm1.2 hi _⟩
  · have := h.samples
    cases hp : s.pend <;> exact (by simpa [Machine.storeBit, mbWrite, hp, rbCount, rbSlot] using this)
  · simpa [Machine.storeBit] using h.enabled
  · simpa [Machine.storeBit] using h.profileOk
  · simpa [Machine.storeBit] using h.unconfigured
  · simp only [Machine.storeBit, mbWrite_profile, hbi]
    omega
  · simp only [Machine.storeBit, mbWrite_oversize] at ho
    have := h.oversizeFull ho
    omega
  · simpa [Machine.storeBit] using h.readyOk
  · simpa [Machine.storeBit] using h.counters

theorem Evolves.storeBit {s : State} (hw : wouldExceed s = false) (b : Nat) : Evolves s (storeBit b s) where
  cfg := by simp [Machine.storeBit]
  profile := by simp [Machine.storeBit]
  profileId := by simp [Machine.storeBit]
  cfgValid := by simp [Machine.storeBit]
  enable := by simp [Machine.storeBit]
  portC := by simp [Machine.storeBit]
  rst := by simp [Machine.storeBit]
  store h := ⟨by simpa [Machine.storeBit] using h, by simp [Machine.storeBit], by simp [Machine.storeBit], fun i => by
    cases hp : s.pend <;> simp [Machine.storeBit, mbRead, mbWrite, msgBuf, hp]⟩
  counters h := ⟨by simpa [CountersOk, Machine.storeBit] using h, by simp [Machine.storeBit], by simp [Machine.storeBit],
    by simp [Machine.storeBit]⟩
  sticky h := by simpa [Machine.storeBit] using h
  ring h := by
    refine ⟨⟨?_, ?_, ?_, ?_⟩, ?_⟩
    · simpa [Machine.storeBit] using h.two
    · simpa [Machine.storeBit] using h.head
    · simpa [Machine.storeBit] using h.tail
    · simpa [Machine.storeBit] using h.mem
    · simp [supply, Machine.storeBit, rbCount]
  responses := ⟨[], by simp [Machine.storeBit]⟩
  quiet h := by simp [Machine.storeBit, h]
  above h b' k hk := by
    have hlt : s.bitIndex.toNat / 8 < s.profile.maxMsgBytes.toNat := Nat.lt_of_not_le (of_decide_eq_false hw)
    have hm0 := (h.mbMem false).1
    have hm1 := (h.mbMem true).1
    simp only [msgBuf] at hm0 hm1
    cases hp : s.pend <;> cases b' <;>
      simp only [Machine.storeBit, mbRead, mbWrite, msgBuf, hp, ↓reduceIte, Bool.false_eq_true] at hm0 hm1 ⊢
    · exact memRead_memWrite_other hm0 (by omega) _
    · exact memRead_memWrite_other hm1 (by omega) _
  inv h := h.storeBit hw b

/-- The fields `h_post_data` writes. -/
abbrev withVerdict (at_ er ov : Nat) (rl : BitVec 8) (pd av : Bool) (st : ProtocolState) (ev : List Event) (s : State) :
    State :=
  { s with attempts := at_, errors := er, overruns := ov, readyLen := rl, pend := pd, avail := av, state := st,
           events := ev }

/-- `h_post_data` writes nothing else, and `attempts` always (44_state_machine R196). -/
theorem hPostData_eq (s : State) :
    ∃ ev, hPostData s = withVerdict (satAdd1 s.cfg.ctrW s.attempts)
      (let er := if s.oversize then satAdd1 s.cfg.ctrW s.errors else s.errors
       if isMalformed s || decide (byteCount s < s.profile.minMsgBytes.toNat) then satAdd1 s.cfg.ctrW er else er)
      (if isMalformed s || decide (byteCount s < s.profile.minMsgBytes.toNat) then s.overruns
       else if s.avail then satAdd1 s.cfg.ctrW s.overruns else s.overruns)
      (if isMalformed s || decide (byteCount s < s.profile.minMsgBytes.toNat) || s.avail then s.readyLen
       else BitVec.ofNat 8 (byteCount s))
      (if isMalformed s || decide (byteCount s < s.profile.minMsgBytes.toNat) || s.avail then s.pend else !s.pend)
      (if isMalformed s || decide (byteCount s < s.profile.minMsgBytes.toNat) || s.avail then s.avail else true)
      .syncSeek ev s := by
  have e1 : isMalformed (noteAttempt s) = isMalformed s := by unfold noteAttempt; split <;> rfl
  have e2 : byteCount (noteAttempt s) = byteCount s := by unfold noteAttempt; split <;> rfl
  have e3 : (noteAttempt s).profile = s.profile := by unfold noteAttempt; split <;> rfl
  have e4 : (noteAttempt s).avail = s.avail := by unfold noteAttempt; split <;> rfl
  unfold hPostData judgeMessage
  rw [e1, e2, e3, e4]
  by_cases h1 : isMalformed s = true
  · refine ⟨(noteAttempt s).events ++ [.malformed (noteAttempt s).bitIndex.toNat], ?_⟩
    cases ho : s.oversize <;> simp [noteAttempt, ho, h1, countAttempt, countError, raise]
  · by_cases h2 : byteCount s < s.profile.minMsgBytes.toNat
    · refine ⟨(noteAttempt s).events ++ [.undersized (byteCount s)], ?_⟩
      cases ho : s.oversize <;> simp [noteAttempt, ho, h1, h2, countAttempt, countError, raise]
    · by_cases h3 : s.avail = true
      · refine ⟨(noteAttempt s).events ++ [.overrun (byteCount s)], ?_⟩
        cases ho : s.oversize <;> simp [noteAttempt, ho, h1, h2, h3, countAttempt, countError, countOverrun, raise]
      · refine ⟨(noteAttempt s).events ++ [.published (byteCount s)], ?_⟩
        cases ho : s.oversize <;> simp [noteAttempt, ho, h1, h2, h3, countAttempt, countError, raise]

/-- With the invariant an oversized message is neither malformed nor undersized (44_state_machine R196). -/
theorem Inv.oversize_ok {s : State} (h : Inv s) (hv : s.cfgValid = true) (ho : s.oversize = true) :
    isMalformed s = false ∧ ¬ byteCount s < s.profile.minMsgBytes.toNat := by
  have hb := h.oversizeFull ho
  have hp := h.profileOk hv
  simp only [profileValid, Bool.and_eq_true, decide_eq_true_eq] at hp
  refine ⟨?_, by unfold byteCount; omega⟩
  simp only [isMalformed, Bool.or_eq_false_iff, beq_eq_false_iff_ne, bne_eq_false_iff_eq]
  omega

/-- Judging the message keeps the invariant: a published length lies between the profile's bounds (10_state R61 I4). -/
theorem Inv.hPostData {s : State} (h : Inv s) (he : s.enable = true) : Inv (hPostData s) := by
  have hv := h.enabled he
  have hmax : s.profile.maxMsgBytes.toNat < 256 := s.profile.maxMsgBytes.isLt
  have hbi := h.bitIndexOk
  have hc := h.countersOk
  obtain ⟨hle1, hle2⟩ := h.counters
  obtain ⟨hg1, hg2, ⟨r1, r2, r3, r4, r5, r6, r7, r8⟩⟩ := h.inRange
  have hover := h.oversize_ok hv
  obtain ⟨ev, e⟩ := hPostData_eq s
  rw [e]
  have a1 := satAdd1_lt s.cfg.ctrW s.attempts
  have a2 := satAdd1_lt s.cfg.ctrW s.errors
  have a3 := satAdd1_lt s.cfg.ctrW s.overruns
  have m1 := satAdd1_mono (w := s.cfg.ctrW) hle1
  have m2 := satAdd1_mono (w := s.cfg.ctrW) hle2
  have g1 := le_satAdd1 hc.1
  have g2 := le_satAdd1 hc.2.1
  have g3 := le_satAdd1 hc.2.2
  have hbc : byteCount s ≤ s.profile.maxMsgBytes.toNat := by unfold byteCount; omega
  have hrl : (BitVec.ofNat 8 (byteCount s)).toNat = byteCount s := by
    rw [BitVec.toNat_ofNat]
    exact Nat.mod_eq_of_lt (by omega)
  by_cases hbad : (isMalformed s || decide (byteCount s < s.profile.minMsgBytes.toNat)) = true
  · have ho : s.oversize = false := by
      cases ho : s.oversize
      · rfl
      · have := hover ho
        simp [this.1, this.2] at hbad
    simp only [hbad, ho, Bool.true_or, ↓reduceIte, Bool.false_eq_true]
    exact ⟨⟨hg1, hg2, r1, r2, r3, a1, a2, r6, r7, r8⟩, h.rbMem, h.mbMem, h.samples, h.enabled, h.profileOk, h.unconfigured,
      h.bitIndexOk, h.oversizeFull, h.readyOk, m1, Nat.le_trans hle2 g1⟩
  · have hok : ¬ byteCount s < s.profile.minMsgBytes.toNat := by simp at hbad; omega
    have her : (if s.oversize = true then satAdd1 s.cfg.ctrW s.errors else s.errors) < 2 ^ s.cfg.ctrW ∧
        (if s.oversize = true then satAdd1 s.cfg.ctrW s.errors else s.errors) ≤ satAdd1 s.cfg.ctrW s.attempts := by
      split
      · exact ⟨a2, m1⟩
      · exact ⟨r5, Nat.le_trans hle1 g1⟩
    simp only [hbad, Bool.false_or, ↓reduceIte, Bool.false_eq_true]
    by_cases hav : s.avail = true
    · simp only [hav, ↓reduceIte]
      exact ⟨⟨hg1, hg2, r1, r2, r3, a1, her.1, a3, r7, r8⟩, h.rbMem, h.mbMem, h.samples, h.enabled, h.profileOk,
        h.unconfigured, h.bitIndexOk, h.oversizeFull, fun _ => h.readyOk hav, her.2, m2⟩
    · simp only [hav, ↓reduceIte, Bool.false_eq_true]
      have l1 : (BitVec.ofNat 8 (byteCount s)).toNat ≤ s.cfg.msgBufBytes := by rw [hrl]; exact Nat.le_trans hbc r8
      have l2 : s.profile.minMsgBytes.toNat ≤ (BitVec.ofNat 8 (byteCount s)).toNat := by
        rw [hrl]; exact Nat.le_of_not_lt hok
      have l3 : (BitVec.ofNat 8 (byteCount s)).toNat ≤ s.profile.maxMsgBytes.toNat := by rw [hrl]; exact hbc
      exact ⟨⟨hg1, hg2, r1, r2, r3, a1, her.1, r6, l1, r8⟩, h.rbMem, h.mbMem, h.samples, h.enabled,
        h.profileOk, h.unconfigured, h.bitIndexOk, h.oversizeFull,
        fun _ => ⟨hv, l2, l3⟩, her.2, Nat.le_trans hle2 g1⟩

theorem Evolves.hPostData {s : State} (he : s.enable = true) : Evolves s (Machine.hPostData s) := by
  have hinv : Inv s → Inv (Machine.hPostData s) := fun h => h.hPostData he
  obtain ⟨ev, e⟩ := hPostData_eq s
  rw [e] at hinv ⊢
  refine ⟨rfl, rfl, rfl, rfl, rfl, rfl, rfl, fun ha => ?_, fun hc => ?_, id, fun hr => ⟨⟨hr.two, hr.head, hr.tail, hr.mem⟩,
    Nat.le_refl _⟩, ⟨[], by simp⟩, fun hq => ⟨hq, rfl, rfl, rfl, rfl, rfl, rfl⟩,
    fun _ _ _ _ => rfl, hinv⟩
  · exact ⟨by simp [ha], by simp [ha], by simp [ha], fun _ => rfl⟩
  · have a1 := satAdd1_lt s.cfg.ctrW s.attempts
    have a3 := satAdd1_lt s.cfg.ctrW s.overruns
    have a2 := satAdd1_lt s.cfg.ctrW s.errors
    have a4 := satAdd1_lt s.cfg.ctrW (satAdd1 s.cfg.ctrW s.errors)
    have g1 := le_satAdd1 hc.1
    have g2 := le_satAdd1 hc.2.1
    have g3 := le_satAdd1 hc.2.2
    have g4 := le_satAdd1 a2
    refine ⟨⟨a1, ?_, ?_⟩, g1, ?_, ?_⟩
    · simp only []
      split <;> split <;> first | assumption | exact hc.2.1
    · simp only []
      split
      · exact hc.2.2
      · split
        · exact a3
        · exact hc.2.2
    · simp only []
      split <;> split <;> omega
    · simp only []
      split
      · exact Nat.le_refl _
      · split
        · exact g3
        · exact Nat.le_refl _

end Sys2Proof.Machine
end

