-- ==== Sys2Proof/Laws/Composite.lean ====
section
/-! SUPPORT. The composite commands: the Sync Detector, the Bit Decoder, the handlers and SERVICE keep what `Evolves` says
and end within their fuel. -/

namespace Sys2Proof.Machine

/-- The state of a loop of ring operations started in `s`. -/
structure Reaches (s t : State) : Prop where
  evolves : Evolves s t
  ringOk : RingOk t

theorem Reaches.refl {s : State} (hr : RingOk s) : Reaches s s := ⟨.refl s, hr⟩

theorem Reaches.then {s t u : State} (h : Reaches s t) (k : Evolves t u) : Reaches s u :=
  ⟨h.evolves.trans k, (k.ring h.ringOk).1⟩

theorem Reaches.boundary {s t : State} (h : Reaches s t) : Reaches s (boundary t) := h.then (EdgesFell.boundary t).toEvolves

theorem Reaches.supply_le {s t : State} (h : Reaches s t) (hr : RingOk s) : supply t ≤ supply s := (h.evolves.ring hr).2

theorem count_boundary {s : State} (hr : RingOk s) : rbCount s ≤ rbCount (boundary s) :=
  ((EdgesFell.boundary s).kept hr).1

theorem ringOk_boundary {s : State} (hr : RingOk s) : RingOk (boundary s) := ((EdgesFell.boundary s).ring hr).1

theorem supply_boundary {s : State} (hr : RingOk s) : supply (boundary s) ≤ supply s := ((EdgesFell.boundary s).ring hr).2

theorem peek_boundary {s : State} (hr : RingOk s) {o : Nat} (ho : o < rbCount s) : rbPeek o (boundary s) = rbPeek o s :=
  ((EdgesFell.boundary s).kept hr).2 o ho

theorem EdgesFell.head_eq {s t : State} (h : EdgesFell s t) : t.head = s.head := by
  obtain ⟨_, _, _, _, _, _, _, _, _, e⟩ := h.frame
  rw [e]

theorem EdgesFell.portP_eq {s t : State} (h : EdgesFell s t) (hq : s.portP = []) : t.portP = [] := (h.quiet hq).1

theorem head_boundary (s : State) : (boundary s).head = s.head := (EdgesFell.boundary s).head_eq

/-! ### The Sync Detector -/

/-- What one turn of the Sync Detector does: it ends on an empty ring or a sample that is not Sync, or retires one. -/
theorem syncTurn_spec {s : State} (hr : RingOk s) (n : Nat) :
    ∃ r, syncTurn n s = some r ∧
      TurnLeaves (fun n' t => n' = n + 1 ∧ Reaches s t ∧ supply t + 1 ≤ supply s) (fun n' t => n' = n ∧ Reaches s t ∧
        (0 < rbCount s → classify s.profile (rbPeek 0 s) ≠ .sync)) r := by
  have h1 := (Reaches.refl hr).boundary
  unfold syncTurn
  simp only []
  split
  · next hc =>
    have := count_boundary hr
    exact ⟨_, rfl, rfl, h1, fun h => by omega⟩
  · next hc =>
    have h2 := h1.boundary
    split
    · next hs =>
      refine ⟨_, rfl, rfl, h2, fun h => ?_⟩
      have := count_boundary hr
      rwa [peek_boundary h1.ringOk (by omega), peek_boundary hr h, h2.evolves.profile] at hs
    · have h3 := h2.then (.widenExtremes _ (rbPeek 0 (boundary (boundary s))))
      have h4 := h3.boundary
      have k1 : 1 ≤ rbCount (boundary (widenExtremes (rbPeek 0 (boundary (boundary s))) (boundary (boundary s)))) := by
        have e : rbCount (widenExtremes (rbPeek 0 (boundary (boundary s))) (boundary (boundary s))) =
          rbCount (boundary (boundary s)) := rfl
        have := count_boundary h1.ringOk
        have := count_boundary h3.ringOk
        omega
      refine ⟨_, rfl, rfl, h4.then (.rbAdv h4.ringOk k1), ?_⟩
      rw [supply_rbAdv h4.ringOk k1]
      exact h4.supply_le hr

/-- The Sync Detector ends; it retires `n` samples, at least one if a Sync sample was at the head. -/
theorem tryConsumeSyncTrain_spec {s : State} (hr : RingOk s) :
    ∃ n t, tryConsumeSyncTrain s = some (n, t) ∧ Reaches s t ∧ supply t + n ≤ supply s ∧
      (0 < rbCount s → classify s.profile (rbPeek 0 s) = .sync → 1 ≤ n) := by
  have h0 := (Reaches.refl hr).then (.setExtremes s 32767 0)
  have e0 : supply { s with syncMin := 32767, syncMax := 0 } = supply s := rfl
  have hends := iterate_ends (body := syncTurn) (fun _ t => RingOk t) (fun _ t => supply t) (fun n t ht => by
    obtain ⟨r, h1, h2⟩ := syncTurn_spec ht n
    refine ⟨r, h1, ?_⟩
    cases r with
    | again a u => exact ⟨h2.2.1.ringOk, h2.2.2⟩
    | done b u => trivial) (fuel := ringFuel s) (a := 0) h0.ringOk (by rw [e0]; exact Nat.lt_succ_self _)
  obtain ⟨n, t, ht⟩ := hends
  refine ⟨n, t, ht, ?_⟩
  refine iterate_leaves
    (fun n t => (Reaches s t ∧ supply t + n ≤ supply s) ∧ (0 < rbCount s → classify s.profile (rbPeek 0 s) = .sync →
      1 ≤ n ∨ 0 < rbCount t ∧ classify t.profile (rbPeek 0 t) = .sync))
    (fun n t => Reaches s t ∧ supply t + n ≤ supply s ∧ (0 < rbCount s → classify s.profile (rbPeek 0 s) = .sync → 1 ≤ n))
    (fun n t r hP hb => ?_) ⟨⟨h0, by rw [e0]; omega⟩, fun h1 h2 => .inr ⟨h1, h2⟩⟩ ht
  obtain ⟨⟨hre, hsup⟩, hhead⟩ := hP
  obtain ⟨r', h1, h2⟩ := syncTurn_spec hre.ringOk n
  rw [hb] at h1
  cases h1
  cases r with
  | again a u =>
    refine ⟨⟨hre.then h2.2.1.evolves, ?_⟩, fun _ _ => .inl ?_⟩
    · have := h2.2.2
      have := h2.1
      omega
    · have := h2.1
      omega
  | done b u =>
    obtain ⟨rfl, h3, h4⟩ := h2
    refine ⟨hre.then h3.evolves, ?_, fun g1 g2 => ?_⟩
    · have := h3.supply_le hre.ringOk
      omega
    · rcases hhead g1 g2 with h | ⟨k1, k2⟩
      · exact h
      · exact absurd k2 (h4 k1)

/-! ### The Bit Decoder -/

/-- What the Bit Decoder does with a pair: it looks at the two oldest samples, whatever falls between its atoms, and retires
them exactly when they make a bit (43_bit_decoder R170, R174). -/
theorem tryDecodeBit_spec {s : State} (hr : RingOk s) (hc : 2 ≤ rbCount s) :
    ∃ u, EdgesFell s u ∧ tryDecodeBit s =
      (decodePair s.profile (rbPeek 0 s) (rbPeek 1 s),
        if isBit (decodePair s.profile (rbPeek 0 s) (rbPeek 1 s)) then rbAdv 2 u else u) := by
  have h1 := EdgesFell.boundary s
  have h2 := h1.trans (EdgesFell.boundary _)
  have h3 := h2.trans (EdgesFell.boundary _)
  have e : decodePair (boundary (boundary s)).profile (rbPeek 0 (boundary s)) (rbPeek 1 (boundary (boundary s))) =
      decodePair s.profile (rbPeek 0 s) (rbPeek 1 s) := by
    rw [(h1.kept hr).2 0 (by omega), (h2.kept hr).2 1 (by omega), h2.profile]
  unfold tryDecodeBit
  simp only [e]
  cases hb : isBit (decodePair s.profile (rbPeek 0 s) (rbPeek 1 s))
  · exact ⟨_, h2, rfl⟩
  · exact ⟨_, h3, rfl⟩

theorem tryDecodeBit_reaches {s : State} (hr : RingOk s) (hc : 2 ≤ rbCount s) :
    Reaches s (tryDecodeBit s).2 ∧
      (isBit (tryDecodeBit s).1 = true → supply (tryDecodeBit s).2 + 1 ≤ supply s) := by
  obtain ⟨u, hu, e⟩ := tryDecodeBit_spec hr hc
  have h1 : Reaches s u := (Reaches.refl hr).then hu.toEvolves
  have h2 : 2 ≤ rbCount u := Nat.le_trans hc (hu.kept hr).1
  simp only [e]
  split
  · exact ⟨h1.then (.rbAdv h1.ringOk h2), fun _ => by
      have := supply_rbAdv h1.ringOk h2
      have := h1.supply_le hr
      omega⟩
  · next hb => exact ⟨h1, fun h => absurd h hb⟩

/-! ### The handlers -/

theorem seekTurn_spec {s : State} (hr : RingOk s) (a : Unit) :
    ∃ r, seekTurn a s = some r ∧
      TurnLeaves (fun _ t => Reaches s t ∧ t.state = s.state ∧ supply t + 1 ≤ supply s)
        (fun p t => Reaches s t ∧
          (p = .blocked ∧ t.state = s.state ∨
           p = .progress ∧ t.state = .syncPulseTrain ∧ 0 < rbCount t ∧ classify t.profile (rbPeek 0 t) = .sync)) r := by
  have h1 := (Reaches.refl hr).boundary
  have st (u : State) : (boundary u).state = u.state := by
    obtain ⟨_, _, _, _, _, _, _, _, _, e⟩ := (EdgesFell.boundary u).frame
    rw [e]
  unfold seekTurn
  simp only []
  split
  · exact ⟨_, rfl, h1, .inl ⟨rfl, st s⟩⟩
  · next hc =>
    have h2 := h1.boundary
    split
    · next hs =>
      refine ⟨_, rfl, h2.then (.setState _ _), .inr ⟨rfl, rfl, ?_, hs⟩⟩
      have := count_boundary h1.ringOk
      exact Nat.lt_of_lt_of_le (Nat.pos_of_ne_zero hc) this
    · have h3 := h2.boundary
      have k1 : 1 ≤ rbCount (boundary (boundary (boundary s))) := by
        have := count_boundary h1.ringOk
        have := count_boundary h2.ringOk
        omega
      refine ⟨_, rfl, h3.then (.rbAdv h3.ringOk k1), ?_, ?_⟩
      · rw [rbAdv_state, st, st, st]
      · rw [supply_rbAdv h3.ringOk k1]
        exact h3.supply_le hr

theorem hSyncSeek_spec {s : State} (hr : RingOk s) :
    ∃ p t, hSyncSeek s = some (p, t) ∧ Reaches s t ∧
      (p = .blocked ∧ t.state = s.state ∨
       p = .progress ∧ t.state = .syncPulseTrain ∧ 0 < rbCount t ∧ classify t.profile (rbPeek 0 t) = .sync) := by
  obtain ⟨p, t, ht⟩ := iterate_ends (body := seekTurn) (fun _ t => RingOk t) (fun _ t => supply t) (fun a t ht => by
    obtain ⟨r, h1, h2⟩ := seekTurn_spec ht a
    refine ⟨r, h1, ?_⟩
    cases r with
    | again a u => exact ⟨h2.1.ringOk, h2.2.2⟩
    | done b u => trivial) (fuel := ringFuel s) (a := ()) hr (Nat.lt_succ_self _)
  refine ⟨p, t, ht, ?_⟩
  refine iterate_leaves (fun _ t => Reaches s t ∧ t.state = s.state) (fun p t => Reaches s t ∧
      (p = .blocked ∧ t.state = s.state ∨
       p = .progress ∧ t.state = .syncPulseTrain ∧ 0 < rbCount t ∧ classify t.profile (rbPeek 0 t) = .sync))
    (fun a t r hP hb => ?_) ⟨Reaches.refl hr, rfl⟩ ht
  obtain ⟨r', h1, h2⟩ := seekTurn_spec hP.1.ringOk a
  rw [hb] at h1
  cases h1
  cases r with
  | again a u => exact ⟨hP.1.then h2.1.evolves, h2.2.1.trans hP.2⟩
  | done b u => exact ⟨hP.1.then h2.1.evolves, h2.2.imp (fun h => ⟨h.1, h.2.trans hP.2⟩) id⟩

theorem state_boundary (s : State) : (boundary s).state = s.state := by
  obtain ⟨_, _, _, _, _, _, _, _, _, e⟩ := (EdgesFell.boundary s).frame
  rw [e]

/-- The handler of SyncPulseTrain: blocked, or the detector ran; a success retired at least one sample, and so did a failure
that found a Sync sample at the head. -/
theorem hSyncPulseTrain_spec {s : State} (hr : RingOk s) :
    ∃ p t, hSyncPulseTrain s = some (p, t) ∧ Reaches s t ∧
      (p = .blocked ∧ t.state = s.state ∨
       p = .progress ∧ (t.state = .accumulateWait ∧ supply t + 1 ≤ supply s ∨ t.state = .syncSeek ∧ supply t ≤ supply s) ∧
         (0 < rbCount s → classify s.profile (rbPeek 0 s) = .sync → supply t + 1 ≤ supply s)) := by
  have h1 := (Reaches.refl hr).boundary
  unfold hSyncPulseTrain
  simp only []
  split
  · exact ⟨_, _, rfl, h1, .inl ⟨rfl, state_boundary s⟩⟩
  · obtain ⟨n, t, ht, h2, hs, hhead⟩ := tryConsumeSyncTrain_spec h1.ringOk
    have h3 := h1.then h2.evolves
    have h4 := h1.supply_le hr
    have h5 : 0 < rbCount s → classify s.profile (rbPeek 0 s) = .sync → 1 ≤ n := fun g1 g2 => by
      refine hhead (Nat.lt_of_lt_of_le g1 (count_boundary hr)) ?_
      rwa [peek_boundary hr g1, h1.evolves.profile]
    rw [ht]
    simp only []
    split
    · next hok =>
      have hn : 1 ≤ n := by
        have := of_decide_eq_true hok
        omega
      refine ⟨_, _, rfl, h3.then (.withDecoder .accumulateWait 0 false t.syncMin t.syncMax (fun _ => by simp) (by simp)),
        .inr ⟨rfl, ?_⟩⟩
      have e : supply { t with bitIndex := 0, oversize := false, state := .accumulateWait } = supply t := rfl
      exact ⟨.inl ⟨rfl, by omega⟩, fun _ _ => by omega⟩
    · refine ⟨_, _, rfl, h3.then (.setState _ _), .inr ⟨rfl, ?_⟩⟩
      have e : supply { t with state := .syncSeek } = supply t := rfl
      refine ⟨.inr ⟨rfl, by omega⟩, fun g1 g2 => ?_⟩
      have := h5 g1 g2
      omega

theorem hAccumulateWait_spec {s : State} (hr : RingOk s) :
    ∃ p t, hAccumulateWait s = some (p, t) ∧ Reaches s t ∧
      (p = .blocked ∧ t.state = s.state ∨ p = .progress ∧ t.state = .accumulateData) := by
  have h1 := (Reaches.refl hr).boundary
  unfold hAccumulateWait
  simp only []
  split
  · exact ⟨_, _, rfl, h1, .inl ⟨rfl, state_boundary s⟩⟩
  · exact ⟨_, _, rfl, h1.then (.setState _ _), .inr ⟨rfl, rfl⟩⟩

theorem state_tryDecodeBit (s : State) : (tryDecodeBit s).2.state = s.state := by
  unfold tryDecodeBit
  simp only []
  split <;> simp [state_boundary]

/-- A pair decoded when the size test holds finds the message full (44_state_machine R194). -/
theorem Evolves.markOversize {s : State} (hw : wouldExceed s = true) :
    Evolves s { s with oversize := true, state := .postData } :=
  .withDecoder .postData s.bitIndex true s.syncMin s.syncMax (fun h => h.bitIndexOk) fun h _ => by
    have h1 := h.bitIndexOk
    have h2 : s.profile.maxMsgBytes.toNat ≤ s.bitIndex.toNat / 8 := of_decide_eq_true hw
    omega

theorem dataTurn_spec {s : State} (hr : RingOk s) (a : Unit) :
    ∃ r, dataTurn a s = some r ∧
      TurnLeaves (fun _ t => Reaches s t ∧ t.state = s.state ∧ supply t + 1 ≤ supply s)
        (fun p t => Reaches s t ∧ (p = .blocked ∧ t.state = s.state ∨ p = .progress ∧ t.state = .postData)) r := by
  have h1 := (Reaches.refl hr).boundary
  unfold dataTurn
  simp only []
  split
  · exact ⟨_, rfl, h1, .inl ⟨rfl, state_boundary s⟩⟩
  · next hc =>
    obtain ⟨h2, h3⟩ := tryDecodeBit_reaches h1.ringOk (Nat.le_of_not_lt hc)
    have h4 := h1.then h2.evolves
    split
    · next hb =>
      split
      · next hw => exact ⟨_, rfl, h4.then (.markOversize hw), .inr ⟨rfl, rfl⟩⟩
      · next hw =>
        have hst := Evolves.storeBit (by simpa using hw) (decodedBit (tryDecodeBit (boundary s)).1)
        refine ⟨_, rfl, h4.then hst, ?_, ?_⟩
        · simp [storeBit, state_tryDecodeBit, state_boundary]
        · have := (hst.ring h4.ringOk).2
          have := h3 hb
          have := h1.supply_le hr
          omega
    · exact ⟨_, rfl, h4.then (.setState _ _), .inr ⟨rfl, rfl⟩⟩

theorem hAccumulateData_spec {s : State} (hr : RingOk s) :
    ∃ p t, hAccumulateData s = some (p, t) ∧ Reaches s t ∧
      (p = .blocked ∧ t.state = s.state ∨ p = .progress ∧ t.state = .postData) := by
  obtain ⟨p, t, ht⟩ := iterate_ends (body := dataTurn) (fun _ t => RingOk t) (fun _ t => supply t) (fun a t ht => by
    obtain ⟨r, h1, h2⟩ := dataTurn_spec ht a
    refine ⟨r, h1, ?_⟩
    cases r with
    | again a u => exact ⟨h2.1.ringOk, h2.2.2⟩
    | done b u => trivial) (fuel := ringFuel s) (a := ()) hr (Nat.lt_succ_self _)
  refine ⟨p, t, ht, ?_⟩
  refine iterate_leaves (fun _ t => Reaches s t ∧ t.state = s.state) (fun p t => Reaches s t ∧
      (p = .blocked ∧ t.state = s.state ∨ p = .progress ∧ t.state = .postData))
    (fun a t r hP hb => ?_) ⟨Reaches.refl hr, rfl⟩ ht
  obtain ⟨r', h1, h2⟩ := dataTurn_spec hP.1.ringOk a
  rw [hb] at h1
  cases h1
  cases r with
  | again a u => exact ⟨hP.1.then h2.1.evolves, h2.2.1.trans hP.2⟩
  | done b u => exact ⟨hP.1.then h2.1.evolves, h2.2.imp (fun h => ⟨h.1, h.2.trans hP.2⟩) id⟩

/-! ### The driver and SERVICE -/

/-- How many more handlers can make progress, at most: five for each sample left, and the way from `state` to the next
handler that retires one (44_state_machine R198, 70_reset_and_hazards R296). -/
def rank (s : State) : Nat :=
  5 * supply s +
    match s.state with
    | .syncSeek => 1
    | .syncPulseTrain => if 0 < rbCount s ∧ classify s.profile (rbPeek 0 s) = .sync then 0 else 2
    | .accumulateWait => 4
    | .accumulateData => 3
    | .postData => 2

theorem rank_lt_serviceFuel (s : State) : rank s < serviceFuel s := by
  unfold rank serviceFuel
  split
  · omega
  · split <;> omega
  · omega
  · omega
  · omega

/-- The transitions of an enabled handler that makes progress (44_state_machine R195). -/
def Advances : ProtocolState → ProtocolState → Prop
  | .syncSeek, t => t = .syncPulseTrain
  | .syncPulseTrain, t => t = .accumulateWait ∨ t = .syncSeek
  | .accumulateWait, t => t = .accumulateData
  | .accumulateData, t => t = .postData
  | .postData, t => t = .syncSeek

/-- What `fsm_step` does (44_state_machine R190): it always returns; disabled it only forces SyncSeek; enabled it either
blocks with `state` unchanged, never in PostData, or takes one of the transitions of R195 and lowers the rank. -/
theorem fsmStep_spec {s : State} (hr : RingOk s) :
    ∃ p t, fsmStep s = some (p, t) ∧ Reaches s t ∧
      (s.enable = false ∧ p = .blocked ∧ t = { s with state := .syncSeek } ∨
       s.enable = true ∧ p = .blocked ∧ t.state = s.state ∧ s.state ≠ .postData ∨
       s.enable = true ∧ p = .progress ∧ Advances s.state t.state ∧ rank t < rank s) := by
  unfold fsmStep
  split
  · next he => exact ⟨_, _, rfl, (Reaches.refl hr).then (.setState _ _), .inl ⟨he, rfl, rfl⟩⟩
  · next he =>
    have he : s.enable = true := by simpa using he
    split
    · next hs =>
      obtain ⟨p, t, h1, h2, h3⟩ := hSyncSeek_spec hr
      refine ⟨p, t, h1, h2, .inr (h3.imp (fun h => ⟨he, h.1, h.2, by simp [hs]⟩) fun h => ⟨he, h.1, ?_, ?_⟩)⟩
      · rw [hs]
        exact h.2.1
      · have := h2.supply_le hr
        simp only [rank, h.2.1, hs, h.2.2.1, h.2.2.2, and_self, ↓reduceIte]
        omega
    · next hs =>
      obtain ⟨p, t, h1, h2, h3⟩ := hSyncPulseTrain_spec hr
      refine ⟨p, t, h1, h2, .inr (h3.imp (fun h => ⟨he, h.1, h.2, by simp [hs]⟩) fun h => ⟨he, h.1, ?_, ?_⟩)⟩
      · rw [hs]
        exact h.2.1.imp (·.1) (·.1)
      · obtain ⟨_, hA, hB⟩ := h
        have e : rank s = 5 * supply s + if 0 < rbCount s ∧ classify s.profile (rbPeek 0 s) = .sync then 0 else 2 := by
          simp only [rank, hs]
        rw [e]
        rcases hA with ⟨k1, k2⟩ | ⟨k1, k2⟩ <;> simp only [rank, k1] <;> split
        · omega
        · omega
        · next hh =>
          have := hB hh.1 hh.2
          omega
        · omega
    · next hs =>
      obtain ⟨p, t, h1, h2, h3⟩ := hAccumulateWait_spec hr
      refine ⟨p, t, h1, h2, .inr (h3.imp (fun h => ⟨he, h.1, h.2, by simp [hs]⟩) fun h => ⟨he, h.1, ?_, ?_⟩)⟩
      · rw [hs]
        exact h.2
      · have := h2.supply_le hr
        simp only [rank, h.2, hs]
        omega
    · next hs =>
      obtain ⟨p, t, h1, h2, h3⟩ := hAccumulateData_spec hr
      refine ⟨p, t, h1, h2, .inr (h3.imp (fun h => ⟨he, h.1, h.2, by simp [hs]⟩) fun h => ⟨he, h.1, ?_, ?_⟩)⟩
      · rw [hs]
        exact h.2
      · have := h2.supply_le hr
        simp only [rank, h.2, hs]
        omega
    · next hs =>
      have h2 := (Reaches.refl hr).then (Evolves.hPostData he)
      refine ⟨_, _, rfl, h2, .inr (.inr ⟨he, rfl, ?_, ?_⟩)⟩
      · rw [hs]
        rfl
      · have := h2.supply_le hr
        have e : (hPostData s).state = .syncSeek := rfl
        simp only [rank, e, hs]
        omega

/-- SERVICE's loop ends, and never in PostData (44_state_machine R198). -/
theorem serviceLoop_spec {s : State} (hr : RingOk s) :
    ∃ n t, iterate serviceTurn (serviceFuel s) 0 s = some (n, t) ∧ Reaches s t ∧ t.state ≠ .postData := by
  obtain ⟨n, t, ht⟩ := iterate_ends (body := serviceTurn) (fun _ t => RingOk t) (fun _ t => rank t) (fun n t ht => by
    obtain ⟨p, u, h1, h2, h3⟩ := fsmStep_spec ht
    unfold serviceTurn
    rw [h1]
    rcases h3 with ⟨_, rfl, _⟩ | ⟨_, rfl, _⟩ | ⟨_, rfl, _, h4⟩
    · exact ⟨_, rfl, trivial⟩
    · exact ⟨_, rfl, trivial⟩
    · exact ⟨_, rfl, h2.ringOk, h4⟩) (fuel := serviceFuel s) (a := 0) hr (rank_lt_serviceFuel s)
  refine ⟨n, t, ht, ?_⟩
  refine iterate_leaves (fun _ t => Reaches s t) (fun _ t => Reaches s t ∧ t.state ≠ .postData)
    (fun n t r hP hb => ?_) (Reaches.refl hr) ht
  obtain ⟨p, u, h1, h2, h3⟩ := fsmStep_spec hP.ringOk
  unfold serviceTurn at hb
  rw [h1] at hb
  rcases h3 with ⟨_, rfl, h4⟩ | ⟨_, rfl, h4, h5⟩ | ⟨_, rfl, _⟩
  · cases hb
    exact ⟨hP.then h2.evolves, by rw [h4]; simp⟩
  · cases hb
    exact ⟨hP.then h2.evolves, by rw [h4]; exact h5⟩
  · cases hb
    exact hP.then h2.evolves

end Sys2Proof.Machine
end

