-- ==== Sys2Proof/Laws/Handled.lean ====
section
/-! SUPPORT. What the Sync Detector and the handlers do to the buffered samples, whatever edges fall between their atoms:
`new` stands for the samples those edges add. -/

namespace Sys2Proof.Machine

/-- The fields that retiring samples and edges at boundaries write. -/
abbrev withRing (hd tl : Nat) (rb : Cells 16) (le : Nat) (ov : Bool) (ts : Nat) (pp : List Command) (od : List Port)
    (rs : List (Port × Response)) (ev : List Event) (s : State) : State :=
  { s with head := hd, tail := tl, rb := rb, lastEdge := le, ovf := ov, tsNow := ts, portP := pp, order := od,
           responses := rs, events := ev }

/-- `t` differs from `s` only in the ring, the baseline, `ovf`, and the inputs and outputs of edges; with no edge waiting, only
in the head and the schedule. -/
structure RingOnly (s t : State) : Prop where
  frame : ∃ hd tl rb le ov ts pp od rs ev, t = withRing hd tl rb le ov ts pp od rs ev s
  still : s.portP = [] → ∃ hd od, t = { s with head := hd, order := od }

theorem RingOnly.refl (s : State) : RingOnly s s := ⟨⟨_, _, _, _, _, _, _, _, _, _, rfl⟩, fun _ => ⟨_, _, rfl⟩⟩

theorem RingOnly.trans {s t u : State} (h : RingOnly s t) (k : RingOnly t u) : RingOnly s u := by
  constructor
  · obtain ⟨_, _, _, _, _, _, _, _, _, _, e⟩ := h.frame
    obtain ⟨_, _, _, _, _, _, _, _, _, _, e'⟩ := k.frame
    rw [e', e]
    exact ⟨_, _, _, _, _, _, _, _, _, _, rfl⟩
  · intro hq
    obtain ⟨_, _, e⟩ := h.still hq
    obtain ⟨_, _, e'⟩ := k.still (by rw [e]; exact hq)
    rw [e', e]
    exact ⟨_, _, rfl⟩

theorem RingOnly.edges {s t : State} (h : EdgesFell s t) : RingOnly s t := by
  obtain ⟨_, _, _, _, _, _, _, _, _, e⟩ := h.frame
  refine ⟨by rw [e]; exact ⟨_, _, _, _, _, _, _, _, _, _, rfl⟩, fun hq => ⟨s.head, t.order, ?_⟩⟩
  obtain ⟨h1, h2, h3, h4, h5, h6, h7⟩ := h.quiet hq
  have h8 := h.silent hq
  rw [e] at h1 h2 h3 h4 h5 h6 h7 h8 ⊢
  simp only at h1 h2 h3 h4 h5 h6 h7 h8
  simp only [h1, h2, h3, h4, h5, h6, h7, h8, hq]

theorem RingOnly.boundary (s : State) : RingOnly s (boundary s) := .edges (EdgesFell.boundary s)

theorem RingOnly.rbAdv (k : Nat) (s : State) : RingOnly s (rbAdv k s) :=
  ⟨⟨_, _, _, _, _, _, _, _, _, _, rfl⟩, fun _ => ⟨_, _, rfl⟩⟩

/-- Other fields may be set on both sides. -/
theorem RingOnly.of_frame {s t s' t' : State} (h : RingOnly s t) (f : State → State)
    (hf : ∀ hd tl rb le ov ts pp od rs ev, f (withRing hd tl rb le ov ts pp od rs ev s) =
      withRing hd tl rb le ov ts pp od rs ev (f s)) (hs : s' = f s) (ht : t' = f t) (hp : (f s).portP = s.portP)
    (hg : ∀ hd od, f { s with head := hd, order := od } = { f s with head := hd, order := od }) : RingOnly s' t' := by
  subst hs ht
  constructor
  · obtain ⟨hd, tl, rb, le, ov, ts, pp, od, rs, ev, e⟩ := h.frame
    exact ⟨hd, tl, rb, le, ov, ts, pp, od, rs, ev, by rw [e, hf]⟩
  · intro hq
    obtain ⟨hd, od, e⟩ := h.still (hp ▸ hq)
    exact ⟨hd, od, by rw [e, hg]⟩

/-- Samples added at the end by edges: none if no edge waits. -/
def Appends (s t : State) (new : List Nat) : Prop := buffered t = buffered s ++ new ∧ (s.portP = [] → new = [])

theorem appends_boundary {s : State} (hr : RingOk s) : ∃ new, Appends s (boundary s) new := (EdgesFell.boundary s).appended hr

theorem buffered_cons {s : State} (h : 0 < rbCount s) : ∃ rest, buffered s = rbPeek 0 s :: rest := by
  have h0 := buffered_getElem? s 0
  rw [if_pos h] at h0
  match hb : buffered s with
  | [] => simp [hb] at h0
  | x :: rest =>
    rw [hb] at h0
    exact ⟨rest, by simp at h0; rw [h0]⟩

theorem buffered_cons_cons {s : State} (h : 2 ≤ rbCount s) :
    ∃ rest, buffered s = rbPeek 0 s :: rbPeek 1 s :: rest := by
  obtain ⟨rest, e⟩ := buffered_cons (s := s) (by omega)
  have h1 := buffered_getElem? s 1
  rw [if_pos (by omega), e] at h1
  match rest with
  | [] => simp at h1
  | x :: rest => exact ⟨rest, by rw [e]; simp at h1; rw [h1]⟩

theorem buffered_nil {s : State} (h : rbCount s = 0) : buffered s = [] := by
  rw [← List.length_eq_zero_iff, buffered_length, h]

theorem rbPeek_lt (o : Nat) (s : State) : rbPeek o s < 32768 := (BitVec.extractLsb' 0 15 _).isLt

theorem Reaches.portP {s t : State} (h : Reaches s t) (hq : s.portP = []) : t.portP = [] := (h.evolves.quiet hq).1

/-! ### The Sync Detector -/

/-- The detector's loop after `n` retired samples. -/
structure Syncing (s : State) (n : Nat) (t : State) : Prop where
  reaches : Reaches s t
  head : t.head = (s.head + n) % s.cfg.n
  samples : ∃ new retired, buffered s ++ new = retired ++ buffered t ∧ retired.length = n ∧ (s.portP = [] → new = []) ∧
    (∀ d ∈ retired, classify s.profile d = .sync) ∧
    t.syncMin.toNat = retired.foldl min 32767 ∧ t.syncMax.toNat = retired.foldl max 0
  frame : ∃ mn mx, RingOnly { s with syncMin := mn, syncMax := mx } t

theorem Syncing.turn {s t : State} {n : Nat} (h : Syncing s n t) {r : Turn Nat Nat} (hb : syncTurn n t = some r) :
    TurnLeaves (Syncing s)
      (fun n' u => Syncing s n' u ∧ ∀ d rest, buffered u = d :: rest → classify s.profile d ≠ .sync) r := by
  obtain ⟨hre, hhead, ⟨new, retired, e, hn, hq, hall, hmn, hmx⟩, mn, mx, hf⟩ := h
  have h1 := hre.boundary
  obtain ⟨n1, a1⟩ := appends_boundary hre.ringOk
  have hprof (u : State) (hu : Reaches s u) : u.profile = s.profile := hu.evolves.profile
  have hext (u : State) : (boundary u).syncMin = u.syncMin ∧ (boundary u).syncMax = u.syncMax := by
    obtain ⟨_, _, _, _, _, _, _, _, _, e⟩ := (EdgesFell.boundary u).frame
    rw [e]
    exact ⟨rfl, rfl⟩
  unfold syncTurn at hb
  simp only [] at hb
  split at hb
  · next hc =>
    cases hb
    refine ⟨⟨h1, (head_boundary t).trans hhead, ⟨new ++ n1, retired, ?_, hn, fun h => ?_, hall, ?_, ?_⟩, mn, mx, hf.trans (.boundary t)⟩, fun d rest hd => ?_⟩
    · rw [a1.1, ← List.append_assoc, e, List.append_assoc]
    · simp [hq h, a1.2 (hre.portP h)]
    · rw [(hext t).1, hmn]
    · rw [(hext t).2, hmx]
    · rw [buffered_nil hc] at hd
      cases hd
  · next hc =>
    have h2 := h1.boundary
    obtain ⟨n2, a2⟩ := appends_boundary h1.ringOk
    have hpos : 0 < rbCount (boundary (boundary t)) := by
      have := count_boundary h1.ringOk
      omega
    obtain ⟨rest, hcons⟩ := buffered_cons hpos
    have hall2 : buffered s ++ (new ++ n1 ++ n2) = retired ++ buffered (boundary (boundary t)) := by
      rw [a2.1, a1.1]
      simp only [← List.append_assoc, e]
    have hmn2 : (boundary (boundary t)).syncMin.toNat = retired.foldl min 32767 := by rw [(hext _).1, (hext _).1, hmn]
    have hmx2 : (boundary (boundary t)).syncMax.toNat = retired.foldl max 0 := by rw [(hext _).2, (hext _).2, hmx]
    split at hb
    · next hs =>
      cases hb
      refine ⟨⟨h2, by rw [head_boundary, head_boundary, hhead], ⟨new ++ n1 ++ n2, retired, hall2, hn, fun h => ?_, hall, hmn2, hmx2⟩, mn, mx,
        (hf.trans (.boundary t)).trans (.boundary _)⟩, fun d rest' hd => ?_⟩
      · simp [hq h, a1.2 (hre.portP h), a2.2 (h1.portP h)]
      · rw [hcons] at hd
        cases hd
        rwa [hprof _ h2] at hs
    · next hs =>
      cases hb
      have hs : classify (boundary (boundary t)).profile (rbPeek 0 (boundary (boundary t))) = .sync := by simpa using hs
      rw [hprof _ h2] at hs
      generalize hw : widenExtremes (rbPeek 0 (boundary (boundary t))) (boundary (boundary t)) = w
      have h3 : Reaches s w := hw ▸ h2.then (.widenExtremes _ _)
      have hbw : buffered w = rbPeek 0 (boundary (boundary t)) :: rest := by
        rw [← hw, ← hcons]
        exact buffered_congr rfl rfl rfl rfl
      have h4 := h3.boundary
      obtain ⟨n3, a3⟩ := appends_boundary h3.ringOk
      have k1 : 1 ≤ rbCount (boundary w) := by
        rw [← buffered_length, a3.1, hbw]
        simp
      have hpk := rbPeek_lt 0 (boundary (boundary t))
      have hlen : (retired ++ [rbPeek 0 (boundary (boundary t))]).length = n + 1 := by simp [hn]
      have hnext : (rbAdv 1 (boundary w)).head = (s.head + (n + 1)) % s.cfg.n := by
        rw [rbAdv_head, head_boundary, h4.evolves.cfg, ← hw, widenExtremes_head, head_boundary, head_boundary, hhead,
          Nat.mod_add_mod, Nat.add_assoc]
      refine ⟨h4.then (.rbAdv h4.ringOk k1), hnext, ⟨new ++ n1 ++ n2 ++ n3, retired ++ [rbPeek 0 (boundary (boundary t))], ?_, hlen,
        fun h => ?_, ?_, ?_, ?_⟩, w.syncMin, w.syncMax, ?_⟩
      · rw [h4.ringOk.buffered_rbAdv k1, a3.1, hbw, ← List.append_assoc, hall2, hcons]
        simp
      · simp [hq h, a1.2 (hre.portP h), a2.2 (h1.portP h), a3.2 (h3.portP h)]
      · intro d hd
        rcases List.mem_append.mp hd with hd | hd
        · exact hall d hd
        · rw [List.mem_singleton.mp hd]
          exact hs
      · rw [rbAdv_syncMin, (hext w).1, ← hw, widenExtremes_syncMin, List.foldl_append, ← hmn2]
        simp only [BitVec.toNat_ofNat, List.foldl_cons, List.foldl_nil]
        omega
      · rw [rbAdv_syncMax, (hext w).2, ← hw, widenExtremes_syncMax, List.foldl_append, ← hmx2]
        simp only [BitVec.toNat_ofNat, List.foldl_cons, List.foldl_nil]
        have := (boundary (boundary t)).syncMax.isLt
        omega
      · refine RingOnly.trans ?_ ((RingOnly.boundary w).trans (.rbAdv 1 _))
        have hb2 := (hf.trans (.boundary t)).trans (.boundary _)
        exact hb2.of_frame (fun v => { v with syncMin := w.syncMin, syncMax := w.syncMax })
          (fun _ _ _ _ _ _ _ _ _ _ => rfl) rfl (by rw [← hw]; rfl) rfl (fun _ _ => rfl)

/-- The Sync Detector: it retires the longest run of Sync samples at the head and records their extremes
(42_sync_detector R160). -/
theorem tryConsumeSyncTrain_samples {s : State} (hr : RingOk s) :
    ∃ n t, tryConsumeSyncTrain s = some (n, t) ∧ Syncing s n t ∧
      ∀ d rest, buffered t = d :: rest → classify s.profile d ≠ .sync := by
  obtain ⟨n, t, ht, _⟩ := tryConsumeSyncTrain_spec hr
  refine ⟨n, t, ht, ?_⟩
  refine iterate_leaves (Syncing s)
    (fun n u => Syncing s n u ∧ ∀ d rest, buffered u = d :: rest → classify s.profile d ≠ .sync)
    (fun n u r h hb => h.turn hb) ?_ ht
  exact ⟨(Reaches.refl hr).then (.setExtremes s 32767 0), (Nat.mod_eq_of_lt hr.head).symm, ⟨[], [], by simp; exact buffered_congr rfl rfl rfl rfl, rfl,
    fun _ => rfl, by simp, rfl, rfl⟩, 32767, 0, .refl _⟩

/-! ### SyncSeek -/

/-- `h_sync_seek`'s loop: samples that are not Sync are discarded. -/
structure Seeking (s t : State) : Prop where
  reaches : Reaches s t
  samples : ∃ new gone, buffered s ++ new = gone ++ buffered t ∧ (s.portP = [] → new = []) ∧
    t.head = (s.head + gone.length) % s.cfg.n ∧ ∀ d ∈ gone, classify s.profile d ≠ .sync
  frame : RingOnly s t

theorem Seeking.turn {s t : State} (h : Seeking s t) {r : Turn Unit Progress} (hb : seekTurn () t = some r) :
    TurnLeaves (fun _ u => Seeking s u)
      (fun p v => ∃ u, Seeking s u ∧ (p = .blocked ∧ v = u ∧ buffered u = [] ∨
        p = .progress ∧ v = { u with state := .syncPulseTrain } ∧
          ∃ d rest, buffered u = d :: rest ∧ classify s.profile d = .sync)) r := by
  obtain ⟨hre, ⟨new, gone, e, hq, hhead, hall⟩, hf⟩ := h
  have h1 := hre.boundary
  obtain ⟨n1, a1⟩ := appends_boundary hre.ringOk
  unfold seekTurn at hb
  simp only [] at hb
  split at hb
  · next hc =>
    cases hb
    refine ⟨_, ⟨h1, ⟨new ++ n1, gone, ?_, fun h => ?_, (head_boundary t).trans hhead, hall⟩, hf.trans (.boundary t)⟩, .inl ⟨rfl, rfl, buffered_nil hc⟩⟩
    · rw [a1.1, ← List.append_assoc, e, List.append_assoc]
    · simp [hq h, a1.2 (hre.portP h)]
  · next hc =>
    have h2 := h1.boundary
    obtain ⟨n2, a2⟩ := appends_boundary h1.ringOk
    have hpos : 0 < rbCount (boundary (boundary t)) := by
      have := count_boundary h1.ringOk
      omega
    obtain ⟨rest, hcons⟩ := buffered_cons hpos
    have hall2 : buffered s ++ (new ++ n1 ++ n2) = gone ++ buffered (boundary (boundary t)) := by
      rw [a2.1, a1.1]
      simp only [← List.append_assoc, e]
    split at hb
    · next hs =>
      cases hb
      refine ⟨_, ⟨h2, ⟨new ++ n1 ++ n2, gone, hall2, fun h => ?_, by rw [head_boundary, head_boundary, hhead], hall⟩, (hf.trans (.boundary t)).trans (.boundary _)⟩,
        .inr ⟨rfl, rfl, _, _, hcons, ?_⟩⟩
      · simp [hq h, a1.2 (hre.portP h), a2.2 (h1.portP h)]
      · rw [← h2.evolves.profile]
        exact hs
    · next hs =>
      cases hb
      rw [h2.evolves.profile] at hs
      have h3 := h2.boundary
      obtain ⟨n3, a3⟩ := appends_boundary h2.ringOk
      have k1 : 1 ≤ rbCount (boundary (boundary (boundary t))) := by
        rw [← buffered_length, a3.1, hcons]
        simp
      refine ⟨h3.then (.rbAdv h3.ringOk k1),
        ⟨new ++ n1 ++ n2 ++ n3, gone ++ [rbPeek 0 (boundary (boundary t))], ?_, fun h => ?_, ?_, ?_⟩, ?_⟩
      · rw [h3.ringOk.buffered_rbAdv k1, a3.1, ← List.append_assoc, hall2, hcons]
        simp
      · simp [hq h, a1.2 (hre.portP h), a2.2 (h1.portP h), a3.2 (h2.portP h)]
      · rw [rbAdv_head, head_boundary, h3.evolves.cfg, head_boundary, head_boundary, hhead, Nat.mod_add_mod,
          List.length_append, Nat.add_assoc]
        rfl
      · intro d hd
        rcases List.mem_append.mp hd with hd | hd
        · exact hall d hd
        · rw [List.mem_singleton.mp hd]
          exact hs
      · exact (((hf.trans (.boundary t)).trans (.boundary _)).trans (.boundary _)).trans (.rbAdv 1 _)

/-- `h_sync_seek` (44_state_machine R191): it discards up to the first Sync sample, or everything. -/
theorem hSyncSeek_samples {s : State} (hr : RingOk s) :
    ∃ p t u, hSyncSeek s = some (p, t) ∧ Seeking s u ∧ (p = .blocked ∧ t = u ∧ buffered u = [] ∨
        p = .progress ∧ t = { u with state := .syncPulseTrain } ∧
          ∃ d rest, buffered u = d :: rest ∧ classify s.profile d = .sync) := by
  obtain ⟨p, t, ht, _⟩ := hSyncSeek_spec hr
  obtain ⟨u, h⟩ := iterate_leaves (fun _ u => Seeking s u)
      (fun p v => ∃ u, Seeking s u ∧ (p = .blocked ∧ v = u ∧ buffered u = [] ∨
        p = .progress ∧ v = { u with state := .syncPulseTrain } ∧
          ∃ d rest, buffered u = d :: rest ∧ classify s.profile d = .sync))
      (fun _ u r h hb => h.turn hb) ⟨Reaches.refl hr, ⟨[], [], by simp, fun _ => rfl, (Nat.mod_eq_of_lt hr.head).symm, by simp⟩, .refl s⟩ ht
  exact ⟨p, t, u, ht, h⟩

end Sys2Proof.Machine
end

