-- ==== Sys2Proof/Laws/Collect.lean ====
section
/-! SUPPORT. Packing bits into the pending buffer (44_state_machine R194): what one stored bit changes, and what the
AccumulateData handler does to the buffered samples and the message, whatever edges fall between its atoms. -/

namespace Sys2Proof.Machine

/-- The integer formula of R194 sets or clears exactly one bit. -/
theorem putBit_eq (v : Byte) {bp b : Nat} (hbp : bp < 8) (hb : b ≤ 1) :
    putBit v bp b = (v &&& ~~~BitVec.twoPow 8 bp) ||| (if b = 1 then BitVec.twoPow 8 bp else 0) := by
  have hz : (v &&& ~~~BitVec.twoPow 8 bp) &&& (if b = 1 then BitVec.twoPow 8 bp else 0) = 0#8 := by
    apply BitVec.eq_of_getLsbD_eq
    intro i hi
    split
    · simp only [BitVec.getLsbD_and, BitVec.getLsbD_not, BitVec.getLsbD_twoPow, hi, decide_true, Bool.true_and,
        BitVec.getLsbD_zero]
      by_cases h : bp = i <;> simp [h]
    · simp
  rw [← BitVec.add_eq_or_of_and_eq_zero _ _ hz]
  apply BitVec.eq_of_toNat_eq
  have hb : b = 0 ∨ b = 1 := by omega
  have hbp : bp = 0 ∨ bp = 1 ∨ bp = 2 ∨ bp = 3 ∨ bp = 4 ∨ bp = 5 ∨ bp = 6 ∨ bp = 7 := by omega
  rcases hb with rfl | rfl <;> simp only [putBit] <;>
    rcases hbp with rfl | rfl | rfl | rfl | rfl | rfl | rfl | rfl <;> simp [BitVec.toNat_twoPow]

theorem getLsbD_putBit (v : Byte) {bp b i : Nat} (hbp : bp < 8) (hb : b ≤ 1) (hi : i < 8) :
    (putBit v bp b).getLsbD i = if i = bp then decide (b = 1) else v.getLsbD i := by
  rw [putBit_eq v hbp hb]
  by_cases h1 : b = 1 <;> by_cases h2 : i = bp <;> simp [h1, h2, hi, hbp]
  all_goals omega

theorem decodedBit_le (r : BitDecodeResult) : decodedBit r ≤ 1 := by
  unfold decodedBit
  split <;> omega

theorem msgBuf_mbWrite (b b' : Bool) (i : Nat) (v : Byte) (s : State) :
    msgBuf b' (mbWrite b i v s) = if b' = b then memWrite (msgBuf b s) i v else msgBuf b' s := by
  cases b <;> cases b' <;> rfl

/-- One stored bit changes bit number `bit_index` of the pending buffer and nothing else there (20_memory R72). -/
theorem messageBit_storeBit {s : State} (hm : Memory.wf (msgBuf s.pend s)) {b : Nat} (hb : b ≤ 1) (k : Nat) :
    messageBit s.pend k (storeBit b s) =
      if k = s.bitIndex.toNat then decide (b = 1) else messageBit s.pend k s := by
  have e : mbRead s.pend (k / 8) (storeBit b s) =
      if s.bitIndex.toNat / 8 = k / 8 then
        putBit (mbRead s.pend (s.bitIndex.toNat / 8) s) (7 - s.bitIndex.toNat % 8) b
      else mbRead s.pend (k / 8) s := by
    have h1 : msgBuf s.pend (storeBit b s) = memWrite (msgBuf s.pend s) (s.bitIndex.toNat / 8)
        (putBit (mbRead s.pend (s.bitIndex.toNat / 8) s) (7 - s.bitIndex.toNat % 8) b) := by
      show msgBuf s.pend (mbWrite _ _ _ _) = _
      rw [msgBuf_mbWrite, if_pos rfl]
    unfold mbRead at h1 ⊢
    rw [h1, memRead_memWrite hm]
  unfold messageBit
  rw [e]
  split
  · next h =>
    rw [getLsbD_putBit _ (by omega) hb (by omega), h]
    by_cases hk : k = s.bitIndex.toNat
    · rw [if_pos hk, if_pos (by omega)]
    · rw [if_neg hk, if_neg (by omega)]
  · next h => rw [if_neg (by rintro rfl; exact h rfl)]

theorem storeBit_other {s : State} (b : Nat) : msgBuf (!s.pend) (storeBit b s) = msgBuf (!s.pend) s := by
  show msgBuf (!s.pend) (mbWrite _ _ _ _) = _
  rw [msgBuf_mbWrite, if_neg (by simp)]

theorem storeBit_wf {s : State} {b : Nat} (hm : Memory.wf (msgBuf s.pend s)) :
    Memory.wf (msgBuf s.pend (storeBit b s)) := by
  show Memory.wf (msgBuf s.pend (mbWrite _ _ _ _))
  rw [msgBuf_mbWrite, if_pos rfl]
  exact memWrite_wf hm _ _

theorem storeBit_eq (b : Nat) (t : State) :
    ∃ m0 m1, storeBit b t = { t with mb0 := m0, mb1 := m1, bitIndex := t.bitIndex + 1 } := by
  unfold storeBit mbWrite
  cases t.pend <;> exact ⟨_, _, rfl⟩

/-- The result of the Bit Decoder that stands for a bit. -/
def bitResult (b : Bool) : BitDecodeResult := if b then .bit1 else .bit0

/-- The AccumulateData loop after it has stored `bits`. -/
structure Collecting (s : State) (bits : List Bool) (t : State) : Prop where
  reaches : Reaches s t
  samples : ∃ new, (s.portP = [] → new = []) ∧ buffered t = (buffered s ++ new).drop (2 * bits.length) ∧
    2 * bits.length ≤ (buffered s ++ new).length ∧
    ∀ j b, bits[j]? = some b → ∃ d0 d1, (buffered s ++ new)[2 * j]? = some d0 ∧
      (buffered s ++ new)[2 * j + 1]? = some d1 ∧ decodePair s.profile d0 d1 = bitResult b
  head : t.head = (s.head + 2 * bits.length) % s.cfg.n
  pend : t.pend = s.pend
  state : t.state = s.state
  oversize : t.oversize = s.oversize
  index : t.bitIndex.toNat = s.bitIndex.toNat + bits.length
  bound : bits ≠ [] → t.bitIndex.toNat ≤ 8 * s.profile.maxMsgBytes.toNat
  stored : ∀ j b, bits[j]? = some b → messageBit s.pend (s.bitIndex.toNat + j) t = b
  kept : ∀ k, (k < s.bitIndex.toNat ∨ s.bitIndex.toNat + bits.length ≤ k) →
    messageBit s.pend k t = messageBit s.pend k s
  other : msgBuf (!s.pend) t = msgBuf (!s.pend) s
  wf : Memory.wf (msgBuf s.pend t)
  frame : ∃ m0 m1 bi, RingOnly { s with mb0 := m0, mb1 := m1, bitIndex := bi } t

/-- How the AccumulateData handler ends (R194): it waits for a pair, it drops the bit that does not fit, or it meets a pair
that is no bit, which stays buffered. -/
inductive Collected (s u : State) : Progress → State → Prop where
  | waits (h : (buffered u).length < 2) : Collected s u .blocked u
  | full (d0 d1 : Nat) (rest : List Nat) (v : State) (new : List Nat) (hb : buffered u = d0 :: d1 :: rest)
      (hd : isBit (decodePair s.profile d0 d1) = true) (hi : 8 * s.profile.maxMsgBytes.toNat ≤ u.bitIndex.toNat)
      (hv : RingOnly u v) (hr : Reaches u v) (hh : v.head = (u.head + 2) % s.cfg.n) (hs : buffered v = rest ++ new)
      (hq : s.portP = [] → new = []) :
      Collected s u .progress { v with oversize := true, state := .postData }
  | ends (d0 d1 : Nat) (rest : List Nat) (hb : buffered u = d0 :: d1 :: rest)
      (hd : isBit (decodePair s.profile d0 d1) = false) : Collected s u .progress { u with state := .postData }

/-- Edges at a boundary leave the collection as it is. -/
theorem Collecting.edges {s t u : State} {bits : List Bool} (h : Collecting s bits t) (hf : EdgesFell t u) :
    Collecting s bits u := by
  obtain ⟨new, hq, hb, hl, hd⟩ := h.samples
  obtain ⟨n1, e1, q1⟩ := hf.appended h.reaches.ringOk
  obtain ⟨tl, rb, le, ov, ts, pp, od, rs, ev, e⟩ := hf.frame
  have hlen : 2 * bits.length ≤ (buffered s ++ (new ++ n1)).length := by
    rw [List.length_append] at hl ⊢
    rw [List.length_append]
    omega
  refine
    { reaches := h.reaches.then hf.toEvolves
      samples := ⟨new ++ n1, fun hh => by simp [hq hh, q1 (h.reaches.portP hh)], ?_, hlen, fun j b hj => ?_⟩
      head := hf.head_eq.trans h.head
      pend := by rw [e]; exact h.pend
      state := by rw [e]; exact h.state
      oversize := by rw [e]; exact h.oversize
      index := by rw [e]; exact h.index
      bound := by rw [e]; exact h.bound
      stored := by rw [e]; exact h.stored
      kept := by rw [e]; exact h.kept
      other := by rw [e]; exact h.other
      wf := by rw [e]; exact h.wf
      frame := by
        obtain ⟨m0, m1, bi, hr⟩ := h.frame
        exact ⟨m0, m1, bi, hr.trans (.edges hf)⟩ }
  · rw [e1, hb, ← List.append_assoc, List.drop_append_of_le_length hl]
  · obtain ⟨d0, d1, g0, g1, g2⟩ := hd j b hj
    rw [← List.append_assoc]
    have l0 := (List.getElem?_eq_some_iff.mp g0).1
    have l1 := (List.getElem?_eq_some_iff.mp g1).1
    exact ⟨d0, d1, by rw [List.getElem?_append_left l0]; exact g0, by rw [List.getElem?_append_left l1]; exact g1, g2⟩

/-- Retiring a pair that decodes to a bit, and storing the bit. -/
theorem Collecting.store {s t : State} {bits : List Bool} (h : Collecting s bits t) {d0 d1 : Nat} {rest : List Nat}
    {b : Bool} (hb : buffered t = d0 :: d1 :: rest) (hd : decodePair s.profile d0 d1 = bitResult b)
    (hw : wouldExceed (rbAdv 2 t) = false) : Collecting s (bits ++ [b]) (storeBit (bitVal b) (rbAdv 2 t)) := by
  obtain ⟨new, hq, hs, hl, hdec⟩ := h.samples
  have hc : 2 ≤ rbCount t := by rw [← buffered_length, hb]; simp
  have h1 := h.reaches.then (.rbAdv h.reaches.ringOk hc)
  have hlen : (bits ++ [b]).length = bits.length + 1 := by simp
  have hge : 2 * bits.length + 2 ≤ (buffered s ++ new).length := by
    have := congrArg List.length hs
    rw [hb, List.length_drop] at this
    simp only [List.length_cons] at this
    omega
  have hprof := h.reaches.evolves.profile
  have hlt : t.bitIndex.toNat / 8 < s.profile.maxMsgBytes.toNat := by
    have := Nat.lt_of_not_le (of_decide_eq_false hw)
    rw [rbAdv_profile, hprof] at this
    exact this
  have hmax : s.profile.maxMsgBytes.toNat < 256 := s.profile.maxMsgBytes.isLt
  have hidx := h.index
  have hbi : (t.bitIndex + 1).toNat = t.bitIndex.toNat + 1 := by
    rw [BitVec.toNat_add]
    simp
    omega
  have hwf : Memory.wf (msgBuf (rbAdv 2 t).pend (rbAdv 2 t)) := by
    have := h.wf
    rw [← h.pend] at this
    exact this
  have hbv : bitVal b ≤ 1 := by cases b <;> simp [bitVal]
  have hmsg (k : Nat) : messageBit s.pend k (storeBit (bitVal b) (rbAdv 2 t)) =
      if k = t.bitIndex.toNat then b else messageBit s.pend k t := by
    have := messageBit_storeBit hwf hbv k
    rw [rbAdv_pend, h.pend] at this
    rw [this]
    have e : messageBit s.pend k (rbAdv 2 t) = messageBit s.pend k t := rfl
    rw [e, rbAdv_bitIndex]
    cases b <;> simp [bitVal]
  refine
    { reaches := h1.then (.storeBit hw _)
      samples := ⟨new, hq, ?_, by rw [hlen]; omega, fun j b' hj => ?_⟩
      head := by
        have : (storeBit (bitVal b) (rbAdv 2 t)).head = (rbAdv 2 t).head := by simp [storeBit]
        rw [this, rbAdv_head, h.head, h.reaches.evolves.cfg, Nat.mod_add_mod, hlen, Nat.mul_add, Nat.add_assoc]
      pend := by simp [storeBit, h.pend]
      state := by simp [storeBit, h.state]
      oversize := by simp [storeBit, h.oversize]
      index := by
        show ((rbAdv 2 t).bitIndex + 1).toNat = _
        rw [rbAdv_bitIndex, hbi, hlen]
        omega
      bound := fun _ => by
        show ((rbAdv 2 t).bitIndex + 1).toNat ≤ _
        rw [rbAdv_bitIndex, hbi]
        omega
      stored := fun j b' hj => ?_
      kept := fun k hk => by
        rw [hlen] at hk
        rw [hmsg, if_neg (by omega)]
        exact h.kept k (by omega)
      other := by
        have := storeBit_other (s := rbAdv 2 t) (bitVal b)
        rw [rbAdv_pend, h.pend] at this
        rw [this]
        exact h.other
      wf := by
        have := storeBit_wf (b := bitVal b) hwf
        rwa [rbAdv_pend, h.pend] at this
      frame := ?_ }
  · have e : buffered (storeBit (bitVal b) (rbAdv 2 t)) = buffered (rbAdv 2 t) :=
      buffered_congr (by simp [storeBit]) (by simp [storeBit]) (by simp [storeBit]) (by simp [storeBit])
    rw [e, h.reaches.ringOk.buffered_rbAdv hc, hs, List.drop_drop, hlen]
    congr 1
  · rw [List.getElem?_append] at hj
    split at hj
    · exact hdec j b' hj
    · next hjl =>
      have hj0 : j = bits.length := by
        have := (List.getElem?_eq_some_iff.mp hj).1
        simp at this
        omega
      subst hj0
      simp at hj
      subst hj
      have g0 : (buffered t)[0]? = some d0 := by rw [hb]; rfl
      have g1 : (buffered t)[1]? = some d1 := by rw [hb]; rfl
      rw [hs, List.getElem?_drop] at g0 g1
      exact ⟨d0, d1, g0, g1, hd⟩
  · rw [List.getElem?_append] at hj
    rw [hmsg]
    split at hj
    · next hjl =>
      rw [if_neg (by omega)]
      exact h.stored j b' hj
    · next hjl =>
      have hj0 : j = bits.length := by
        have := (List.getElem?_eq_some_iff.mp hj).1
        simp at this
        omega
      subst hj0
      simp at hj
      rw [if_pos (by omega), hj]
  · obtain ⟨m0, m1, bi, hfr⟩ := h.frame
    obtain ⟨n0, n1, e'⟩ := storeBit_eq (bitVal b) (rbAdv 2 t)
    rw [e']
    exact ⟨n0, n1, t.bitIndex + 1, (hfr.trans (.rbAdv 2 t)).of_frame
      (fun v => { v with mb0 := n0, mb1 := n1, bitIndex := t.bitIndex + 1 }) (fun _ _ _ _ _ _ _ _ _ _ => rfl) rfl rfl rfl
      (fun _ _ => rfl)⟩

theorem isBit_iff (r : BitDecodeResult) : isBit r = true ↔ ∃ b, r = bitResult b := by
  cases r with
  | bit0 => exact ⟨fun _ => ⟨false, rfl⟩, fun _ => rfl⟩
  | bit1 => exact ⟨fun _ => ⟨true, rfl⟩, fun _ => rfl⟩
  | termination => exact ⟨fun h => by simp [isBit] at h, fun ⟨b, h⟩ => by cases b <;> simp [bitResult] at h⟩
  | invalid => exact ⟨fun h => by simp [isBit] at h, fun ⟨b, h⟩ => by cases b <;> simp [bitResult] at h⟩

theorem decodedBit_bitResult (b : Bool) : decodedBit (bitResult b) = bitVal b := by cases b <;> rfl

/-- One turn of the AccumulateData loop. -/
theorem Collecting.turn {s t : State} {bits : List Bool} (h : Collecting s bits t) {r : Turn Unit Progress}
    (hb : dataTurn () t = some r) :
    TurnLeaves (fun _ u => ∃ bits', Collecting s bits' u)
      (fun p v => ∃ bits' u, Collecting s bits' u ∧ Collected s u p v) r := by
  have h1 := h.edges (EdgesFell.boundary t)
  unfold dataTurn at hb
  simp only [] at hb
  split at hb
  · next hc =>
    cases hb
    exact ⟨bits, _, h1, .waits (by rw [buffered_length]; exact hc)⟩
  · next hc =>
    have hc : 2 ≤ rbCount (boundary t) := Nat.le_of_not_lt hc
    obtain ⟨u, hu, e⟩ := tryDecodeBit_spec h1.reaches.ringOk hc
    have h2 := h1.edges hu
    obtain ⟨rest, hcons⟩ := buffered_cons_cons hc
    obtain ⟨n1, a1, q1⟩ := hu.appended h1.reaches.ringOk
    rw [hcons] at a1
    have hcu : 2 ≤ rbCount u := Nat.le_trans hc (hu.kept h1.reaches.ringOk).1
    rw [h1.reaches.evolves.profile] at e
    generalize rbPeek 0 (boundary t) = d0 at e a1
    generalize rbPeek 1 (boundary t) = d1 at e a1
    simp only [e] at hb
    split at hb
    · next hbit =>
      split at hb
      · next hw =>
        cases hb
        have hw : s.profile.maxMsgBytes.toNat ≤ u.bitIndex.toNat / 8 := by
          have := of_decide_eq_true hw
          rw [rbAdv_profile, h2.reaches.evolves.profile] at this
          exact this
        have hadv : Evolves u (rbAdv 2 u) := .rbAdv h2.reaches.ringOk hcu
        refine ⟨bits, u, h2, .full d0 d1 (rest ++ n1) (rbAdv 2 u) [] (by simpa using a1) hbit (by omega) (.rbAdv 2 u)
          ⟨hadv, (hadv.ring h2.reaches.ringOk).1⟩ (by rw [rbAdv_head, h2.reaches.evolves.cfg]) ?_ (fun _ => rfl)⟩
        rw [h2.reaches.ringOk.buffered_rbAdv hcu, a1]
        simp
      · next hw =>
        cases hb
        obtain ⟨b, hbr⟩ := (isBit_iff _).mp hbit
        refine ⟨bits ++ [b], ?_⟩
        rw [hbr, decodedBit_bitResult]
        exact h2.store (by simpa using a1) hbr (by simpa using hw)
    · next hbit =>
      cases hb
      exact ⟨bits, u, h2, .ends d0 d1 (rest ++ n1) (by simpa using a1) (by simpa using hbit)⟩

/-- `h_accumulate_data` (44_state_machine R194): the leading pairs that decode to bits are packed into the pending buffer,
most significant bit first, until the handler waits, finds the message full, or meets a pair that is no bit. -/
theorem hAccumulateData_bits {s : State} (hr : RingOk s) (hm : Memory.wf (msgBuf s.pend s)) :
    ∃ p v bits u, hAccumulateData s = some (p, v) ∧ Collecting s bits u ∧ Collected s u p v := by
  obtain ⟨p, v, ht, _⟩ := hAccumulateData_spec hr
  obtain ⟨bits, u, h⟩ := iterate_leaves (fun _ u => ∃ bits, Collecting s bits u)
      (fun p v => ∃ bits u, Collecting s bits u ∧ Collected s u p v)
      (fun _ u r ⟨bits, h⟩ hb => h.turn hb) (a := ()) ⟨[],
        { reaches := Reaches.refl hr
          samples := ⟨[], fun _ => rfl, by simp, by simp, by simp⟩
          head := (Nat.mod_eq_of_lt hr.head).symm
          pend := rfl
          state := rfl
          oversize := rfl
          index := rfl
          bound := fun h => absurd rfl h
          stored := by simp
          kept := fun _ _ => rfl
          other := rfl
          wf := hm
          frame := ⟨_, _, _, .refl s⟩ }⟩ ht
  exact ⟨p, v, bits, u, ht, h⟩

end Sys2Proof.Machine
end

