-- ==== Sys2Proof/Laws/Encode.lean ====
section
/-! SUPPORT. The three fields of a command word, and what they are in an encoded command (30_encoding R101). -/

namespace Sys2Proof

theorem opcodeField_word (op res : BitVec 8) (imm : BitVec 16) : opcodeField (op ++ res ++ imm) = op := by
  unfold opcodeField
  apply BitVec.eq_of_getLsbD_eq
  intro k hk
  rw [BitVec.getLsbD_extractLsb', BitVec.getLsbD_append, BitVec.getLsbD_append, if_neg (by omega), if_neg (by omega)]
  simp only [hk, decide_true, Bool.true_and]
  congr 1
  omega

theorem reservedField_word (op res : BitVec 8) (imm : BitVec 16) : reservedField (op ++ res ++ imm) = res := by
  unfold reservedField
  apply BitVec.eq_of_getLsbD_eq
  intro k hk
  rw [BitVec.getLsbD_extractLsb', BitVec.getLsbD_append, BitVec.getLsbD_append, if_neg (by omega), if_pos (by omega)]
  simp only [hk, decide_true, Bool.true_and]
  congr 1
  omega

theorem imm16Field_word (op res : BitVec 8) (imm : BitVec 16) : imm16Field (op ++ res ++ imm) = imm := by
  unfold imm16Field
  apply BitVec.eq_of_getLsbD_eq
  intro k hk
  rw [BitVec.getLsbD_extractLsb', BitVec.getLsbD_append, if_pos (by omega)]
  simp only [hk, decide_true, Bool.true_and]
  congr 1
  omega

/-- A word is its three fields. -/
theorem word_eq_fields (w : CmdWord) : w = opcodeField w ++ reservedField w ++ imm16Field w := by
  apply BitVec.eq_of_getLsbD_eq
  intro k hk
  rw [BitVec.getLsbD_append, BitVec.getLsbD_append]
  unfold opcodeField reservedField imm16Field
  split
  · next h => simp [h]
  · next h =>
    split
    · next h' =>
      rw [BitVec.getLsbD_extractLsb']
      simp only [h', decide_true, Bool.true_and]
      congr 1
      omega
    · next h' =>
      rw [BitVec.getLsbD_extractLsb']
      have : k - 16 - 8 < 8 := by omega
      simp only [this, decide_true, Bool.true_and]
      congr 1
      omega

@[simp] theorem opcodeField_encode (i : Instr) : opcodeField (encode i) = opcodeOf i := opcodeField_word _ _ _

@[simp] theorem reservedField_encode (i : Instr) : reservedField (encode i) = 0 := reservedField_word _ _ _

@[simp] theorem imm16Field_encode (i : Instr) : imm16Field (encode i) = immOf i := imm16Field_word _ _ _

end Sys2Proof
end

