-- ==== Sys2Proof/Laws/Exec.lean ====
section
/-! SUPPORT. What `exec` answers for the composite commands: a response after a state that `Evolves` describes. -/

namespace Sys2Proof.Machine

/-- How a composite command ends: it refuses after edges only, or answers OK after its own atoms. -/
inductive Ends (s : State) : State → Prop where
  | refused (u : State) (st : Status) (hs : st = .nocfg ∨ st = .precond) (hu : EdgesFell s u) : Ends s (respond .c st 0 0 [] u)
  | answered (u : State) (r0 r1 : Nat) (hu : Evolves s u) : Ends s (respond .c .ok r0 r1 [] u)

theorem synctrain_ends {s t : State} (hr : RingOk s) (h : synctrain s = some t) : Ends s t := by
  unfold synctrain at h
  split at h
  · cases h
    exact .refused s .nocfg (.inl rfl) (.refl s)
  · have h1 := (Reaches.refl hr).boundary
    simp only [] at h
    split at h
    · cases h
      exact .refused _ .precond (.inr rfl) (EdgesFell.boundary s)
    · obtain ⟨n, u, hu, h2, _⟩ := tryConsumeSyncTrain_spec h1.ringOk
      rw [hu] at h
      cases h
      exact .answered u _ _ (h1.then h2.evolves).evolves

theorem decbit_ends {s : State} (hr : RingOk s) : Ends s (decbit s) := by
  unfold decbit
  split
  · exact .refused s .nocfg (.inl rfl) (.refl s)
  · have h1 := (Reaches.refl hr).boundary
    simp only []
    split
    · exact .refused _ .precond (.inr rfl) (EdgesFell.boundary s)
    · next hc => exact .answered _ _ _ (h1.then (tryDecodeBit_reaches h1.ringOk (Nat.le_of_not_lt hc)).1.evolves).evolves

theorem stepOnce_ends {s t : State} (hr : RingOk s) (h : stepOnce s = some t) : Ends s t := by
  unfold stepOnce at h
  obtain ⟨p, u, hu, h2, _⟩ := fsmStep_spec hr
  rw [hu] at h
  cases h
  exact .answered u _ _ h2.evolves

theorem service_ends {s t : State} (hr : RingOk s) (h : service s = some t) : Ends s t := by
  unfold service at h
  obtain ⟨n, u, hu, h2, _⟩ := serviceLoop_spec hr
  rw [hu] at h
  cases h
  exact .answered u _ _ h2.evolves

/-- The composite commands always answer. -/
theorem synctrain_some {s : State} (hr : RingOk s) : ∃ t, synctrain s = some t := by
  unfold synctrain
  split
  · exact ⟨_, rfl⟩
  · simp only []
    split
    · exact ⟨_, rfl⟩
    · obtain ⟨n, u, hu, _⟩ := tryConsumeSyncTrain_spec (ringOk_boundary hr)
      rw [hu]
      exact ⟨_, rfl⟩

theorem stepOnce_some {s : State} (hr : RingOk s) : ∃ t, stepOnce s = some t := by
  obtain ⟨p, u, hu, _⟩ := fsmStep_spec hr
  exact ⟨_, by unfold stepOnce; rw [hu]⟩

theorem service_some {s : State} (hr : RingOk s) : ∃ t, service s = some t := by
  obtain ⟨n, u, hu, _⟩ := serviceLoop_spec hr
  exact ⟨_, by unfold service; rw [hu]⟩

/-- Everything `exec` can answer, command by command: the state the response is added to, and what is known there. -/
inductive Outcomes (s : State) : Instr → State → Prop where
  | edgeOff (he : s.enable = false) : Outcomes s .edge (respond .p .ok 0 0 [] s)
  | edgeDropped (he : s.enable = true) (hf : ringFull s = true) : Outcomes s .edge
      (respond .p .ok 0 0 [] (raise (.captureOverflow (edgeDuration s.tsNow s)) { s with ovf := true }))
  | edgeStored (he : s.enable = true) (hf : ringFull s = false) :
      Outcomes s .edge (respond .p .ok 1 0 [] (storeEdge s.tsNow s))
  | read (i : Instr) (st : Status) (r0 r1 : Nat) (hi : reads i = true)
      (hs : st = .ok ∨ (r0 = 0 ∧ r1 = 0 ∧ (st = .nocfg ∨ st = .precond))) : Outcomes s i (respond .c st r0 r1 [] s)
  | emptyPop (hc : rbCount s = 0) : Outcomes s .pop (respond .c .precond 0 0 [] s)
  | shortAdv (k : BitVec 16) (hc : rbCount s < k.toNat) : Outcomes s (.adv k) (respond .c .precond 0 0 [] s)
  | popped (hc : 1 ≤ rbCount s) : Outcomes s .pop (respond .c .ok (rbPeek 0 s) 0 [] (rbAdv 1 s))
  | advanced (k : BitVec 16) (hc : k.toNat ≤ rbCount s) : Outcomes s (.adv k) (respond .c .ok 0 0 [] (rbAdv k.toNat s))
  | notConfigured (hv : s.cfgValid = false) : Outcomes s (.enable true) (respond .c .nocfg 0 0 [] s)
  | enabled (hv : s.cfgValid = true) :
      Outcomes s (.enable true) (respond .c .ok 0 0 [] { s with lastEdge := s.tsNow, enable := true })
  | alreadyEnabled (he : s.enable = true) : Outcomes s (.enable true) (respond .c .ok 0 0 [] s)
  | disabled : Outcomes s (.enable false) (respond .c .ok 0 0 [] { s with enable := false })
  | selected (pid : BitVec 16) (p : Profile) (hl : lookupProfile s.cfg.profiles pid = some p)
      (hp : profileValid s.cfg p = true) :
      Outcomes s (.seldev pid) (respond .c .ok 0 0 [] (initRadio p pid s.tsNow s))
  | notSelected (pid : BitVec 16)
      (hl : ∀ p, lookupProfile s.cfg.profiles pid = some p → profileValid s.cfg p = false) :
      Outcomes s (.seldev pid) (respond .c .cfgerr 0 0 [] (raise (.configError pid) s))
  | nothingToTake (n : BitVec 16) (ha : s.avail = false) : Outcomes s (.take n) (respond .c .ok 0 0 [] s)
  | taken (n : BitVec 16) (r0 r1 : Nat) (data : List Byte) (ha : s.avail = true) :
      Outcomes s (.take n) (respond .c .ok r0 r1 data { s with avail := false })
  | ended (i : Instr) (t : State) (hi : composite i = true) (ht : Ends s t) : Outcomes s i t

theorem exec_outcomes {i : Instr} {s t : State} (hr : composite i = true → RingOk s) (h : exec i s = .next t) : Outcomes s i t := by
  cases i with
  | edge =>
    obtain ⟨_, rfl⟩ := completes_next h
    unfold edgeAtom
    split
    · next he => exact .edgeOff he
    · next he =>
      have he : s.enable = true := by simpa using he
      split
      · next hf => exact .edgeDropped he hf
      · next hf => exact .edgeStored he (by simpa using hf)
  | count =>
    obtain ⟨_, rfl⟩ := completes_next h
    exact .read _ _ _ _ rfl (.inl rfl)
  | isfull =>
    obtain ⟨_, rfl⟩ := completes_next h
    exact .read _ _ _ _ rfl (.inl rfl)
  | isempty =>
    obtain ⟨_, rfl⟩ := completes_next h
    exact .read _ _ _ _ rfl (.inl rfl)
  | pop =>
    simp only [exec, execPop] at h
    obtain ⟨_, rfl⟩ := completes_next h
    split
    · next hc => exact .emptyPop hc
    · next hc => exact .popped (by omega)
  | peek offset =>
    simp only [exec, execPeek] at h
    obtain ⟨_, rfl⟩ := completes_next h
    split
    · exact .read _ _ _ _ rfl (.inr ⟨rfl, rfl, .inr rfl⟩)
    · exact .read _ _ _ _ rfl (.inl rfl)
  | adv k =>
    simp only [exec, execAdv] at h
    obtain ⟨_, rfl⟩ := completes_next h
    split
    · next hc => exact .shortAdv k hc
    · next hc => exact .advanced k (Nat.le_of_not_lt hc)
  | enable en =>
    simp only [exec, execEnable] at h
    obtain ⟨_, rfl⟩ := completes_next h
    cases en
    · simp only [Bool.false_eq_true, false_and, ↓reduceIte]
      exact .disabled
    · simp only [true_and, ↓reduceIte]
      split
      · next hv => exact .notConfigured hv
      · next hv =>
        split
        · exact .enabled (by simpa using hv)
        · next he => exact .alreadyEnabled (by simpa using he)
  | seldev pid =>
    simp only [exec, execSeldev] at h
    obtain ⟨_, rfl⟩ := completes_next h
    cases hl : lookupProfile s.cfg.profiles pid with
    | none => exact .notSelected pid (fun p hp => by rw [hl] at hp; cases hp)
    | some p =>
      simp only []
      split
      · next hp => exact .selected pid p hl hp
      · next hp =>
        refine .notSelected pid fun q hq => ?_
        rw [hl] at hq
        cases hq
        simpa using hp
  | classify imm =>
    simp only [exec, execClassify] at h
    obtain ⟨_, rfl⟩ := completes_next h
    split
    · exact .read _ _ _ _ rfl (.inr ⟨rfl, rfl, .inl rfl⟩)
    · exact .read _ _ _ _ rfl (.inl rfl)
  | synctrain =>
    obtain ⟨_, e⟩ := returns_next h
    exact .ended _ _ rfl (synctrain_ends (hr rfl) e)
  | decbit =>
    obtain ⟨_, rfl⟩ := completes_next h
    exact .ended _ _ rfl (decbit_ends (hr rfl))
  | step =>
    obtain ⟨_, e⟩ := returns_next h
    exact .ended _ _ rfl (stepOnce_ends (hr rfl) e)
  | service =>
    obtain ⟨_, e⟩ := returns_next h
    exact .ended _ _ rfl (service_ends (hr rfl) e)
  | take n =>
    simp only [exec, execTake] at h
    obtain ⟨_, rfl⟩ := completes_next h
    split
    · next ha => exact .nothingToTake n ha
    · next ha => exact .taken n _ _ _ (by simpa using ha)
  | stats =>
    obtain ⟨_, rfl⟩ := completes_next h
    exact .read _ _ _ _ rfl (.inl rfl)
  | status =>
    obtain ⟨_, rfl⟩ := completes_next h
    exact .read _ _ _ _ rfl (.inl rfl)
  | syncx =>
    obtain ⟨_, rfl⟩ := completes_next h
    exact .read _ _ _ _ rfl (.inl rfl)
  | ovrcnt =>
    obtain ⟨_, rfl⟩ := completes_next h
    exact .read _ _ _ _ rfl (.inl rfl)
  | rdprof idx =>
    simp only [exec, execRdprof] at h
    obtain ⟨_, rfl⟩ := completes_next h
    split
    · exact .read _ _ _ _ rfl (.inr ⟨rfl, rfl, .inr rfl⟩)
    · exact .read _ _ _ _ rfl (.inl rfl)

end Sys2Proof.Machine
end

