-- ==== Sys2Proof/Laws/PerInstr.lean ====
section
/-! SUPPORT. The family `Format`: what is true of the word of each command. -/

namespace Sys2Proof.Laws.Format

/-- The opcode byte is in the opcode map for the command's own port, the reserved byte is 0, and for a command that can be
written the operand field fits its format (30_encoding R101, R103, R104). -/
def Statement (i : Instr) : Prop :=
  reservedField (encode i) = 0 ∧ imm16Field (encode i) = immOf i ∧
    ∃ fmt build, opcodeMap (opcodeField (encode i)) = some (portOf i, fmt, build) ∧ build (immOf i) = i ∧
      (i.wf = true → immFits fmt (immOf i) = true)

theorem of_row {i : Instr} {fmt : Sys2Proof.Format} {build : BitVec 16 → Instr}
    (h : opcodeMap (opcodeOf i) = some (portOf i, fmt, build)) (hb : build (immOf i) = i)
    (hw : i.wf = true → immFits fmt (immOf i) = true) : Statement i :=
  ⟨reservedField_encode i, imm16Field_encode i, fmt, build, by rw [opcodeField_encode, h], hb, hw⟩

theorem edge : Statement .edge := of_row rfl rfl fun _ => rfl

theorem count : Statement .count := of_row rfl rfl fun _ => rfl

theorem isfull : Statement .isfull := of_row rfl rfl fun _ => rfl

theorem isempty : Statement .isempty := of_row rfl rfl fun _ => rfl

theorem pop : Statement .pop := of_row rfl rfl fun _ => rfl

theorem peek (offset : BitVec 16) : Statement (.peek offset) := of_row rfl rfl fun _ => rfl

theorem adv (k : BitVec 16) : Statement (.adv k) := of_row rfl rfl fun _ => rfl

theorem enable (en : Bool) : Statement (.enable en) := of_row rfl (by cases en <;> rfl) fun _ => by cases en <;> rfl

theorem seldev (profileId : BitVec 16) : Statement (.seldev profileId) := of_row rfl rfl fun _ => rfl

theorem classify (imm : BitVec 16) : Statement (.classify imm) := of_row rfl rfl fun h => h

theorem synctrain : Statement .synctrain := of_row rfl rfl fun _ => rfl

theorem decbit : Statement .decbit := of_row rfl rfl fun _ => rfl

theorem step : Statement .step := of_row rfl rfl fun _ => rfl

theorem service : Statement .service := of_row rfl rfl fun _ => rfl

theorem take (maxLen : BitVec 16) : Statement (.take maxLen) := of_row rfl rfl fun _ => rfl

theorem stats : Statement .stats := of_row rfl rfl fun _ => rfl

theorem status : Statement .status := of_row rfl rfl fun _ => rfl

theorem syncx : Statement .syncx := of_row rfl rfl fun _ => rfl

theorem ovrcnt : Statement .ovrcnt := of_row rfl rfl fun _ => rfl

theorem rdprof (idx : BitVec 16) : Statement (.rdprof idx) := of_row rfl rfl fun _ => rfl

end Sys2Proof.Laws.Format
end

