-- ==== Sys2Proof/Tests/Slice0.lean ====
section
/-! SUPPORT. Tests: the ill-formed terms, the words of 30_encoding R104 and R113, single steps from 95_test_vectors, and for
each statement a state and operands that meet its hypotheses. -/

namespace Sys2Proof.Tests

open Sys2Proof Sys2Proof.Machine Sys2Proof.Claims

/-! ### Small states -/

/-- The smallest instance that can run profile F1: `N = 17` (10_state R41). -/
def small : Config := { Config.default with n := 17 }

/-- Samples in the ring from slot `i` on. -/
def cells : Nat → List Nat → Cells 16
  | _, [] => []
  | i, d :: rest => if d = 0 then cells (i + 1) rest else (i, BitVec.ofNat 16 d) :: cells (i + 1) rest

/-- A radio with profile F1 running on `c`, `ds` buffered. -/
def radioOn (c : Config) (ds : List Nat) : State :=
  { State.resetOf c Draw.zero with
    profile := Profile.f1, profileId := 1, cfgValid := true, enable := true, rb := cells 0 ds, tail := ds.length }

/-- A radio on the smallest instance. -/
def radio (ds : List Nat) : State := radioOn small ds

/-- No profile yet. -/
def fresh : State := State.resetOf small Draw.zero

/-- Sixteen samples of one duration: a full ring of the smallest instance. -/
def sixteen (d : Nat) : List Nat := List.replicate 16 d

/-- A radio about to judge a message of `bits` bits. -/
def judging (bits : BitVec 16) : State := { radio [] with state := .postData, bitIndex := bits }

/-- A radio in a state with one edge waiting at time 600, to fall at the first boundary. -/
def busy (st : ProtocolState) (ds : List Nat) : State :=
  { radio ds with state := st, portP := [⟨0x01000000, 600⟩], order := [.p] }

/-- The last response after an outcome: status code, `r0`, `r1`, data. -/
def answer : Host.Outcome State Fault Refusal → Option (Nat × Nat × Nat × List Nat)
  | .next t => t.responses.getLast?.map (fun x =>
      (statusCode x.2.status, x.2.r0.toNat, x.2.r1.toNat, x.2.data.map BitVec.toNat))
  | .fault _ => none
  | .refused _ => none

/-- The state after an outcome. -/
def after (o : Host.Outcome State Fault Refusal) : Option State :=
  match o with
  | .next t => some t
  | .fault _ => none
  | .refused _ => none

/-- The clauses of `Inv`, evaluated. -/
def checks (s : State) : Bool :=
  decide (InRange s) && decide (Memory.wf s.rb ∧ Memory.within s.rb s.cfg.n) &&
  decide (∀ b, Memory.wf (msgBuf b s) ∧ Memory.within (msgBuf b s) s.cfg.msgBufBytes) &&
  decide (∀ o, o < rbCount s → (memRead s.rb (rbSlot o s)).getLsbD 15 = false) &&
  decide (s.enable = true → s.cfgValid = true) &&
  decide (s.cfgValid = true → profileValid s.cfg s.profile = true) &&
  decide (s.cfgValid = false → s.profile = Profile.zero ∧ s.profileId = 0) &&
  decide (s.bitIndex.toNat ≤ 8 * s.profile.maxMsgBytes.toNat) &&
  decide (s.oversize = true → s.bitIndex.toNat = 8 * s.profile.maxMsgBytes.toNat) &&
  decide (s.avail = true → s.cfgValid = true ∧ s.profile.minMsgBytes.toNat ≤ s.readyLen.toNat ∧
    s.readyLen.toNat ≤ s.profile.maxMsgBytes.toNat) &&
  decide (s.errors ≤ s.attempts ∧ s.overruns ≤ s.attempts)

theorem inv_of_checks {s : State} (h : checks s = true) : Inv s := by
  simp only [checks, Bool.and_eq_true, decide_eq_true_eq] at h
  obtain ⟨⟨⟨⟨⟨⟨⟨⟨⟨⟨h1, h2⟩, h3⟩, h4⟩, h5⟩, h6⟩, h7⟩, h8⟩, h9⟩, h10⟩, h11⟩ := h
  exact ⟨h1, h2, h3, h4, h5, h6, h7, h8, h9, h10, h11⟩

/-! ### Ill-formed terms and words (30_encoding R103 to R110, R113; 95_test_vectors 3.1) -/

theorem test_classify_operand_too_wide : (Instr.classify 0x8000).wf = false := by decide

theorem test_classify_operand_widest : (Instr.classify 0x7FFF).wf = true := by decide

/-- One word for each row of R104, and what each field holds at its ends. -/
theorem test_decode_words :
    decode .p 0x01000000 = .ok .edge ∧ decode .c 0x10000000 = .ok .count ∧ decode .c 0x11000000 = .ok .isfull ∧
    decode .c 0x12000000 = .ok .isempty ∧ decode .c 0x13000000 = .ok .pop ∧ decode .c 0x14000003 = .ok (.peek 3) ∧
    decode .c 0x15008001 = .ok (.adv 0x8001) ∧ decode .c 0x20000001 = .ok (.enable true) ∧
    decode .c 0x20000000 = .ok (.enable false) ∧ decode .c 0x21000001 = .ok (.seldev 1) ∧
    decode .c 0x30007FFF = .ok (.classify 32767) := ⟨rfl, rfl, rfl, rfl, rfl, rfl, rfl, rfl, rfl, rfl, rfl⟩

theorem test_decode_words_2 :
    decode .c 0x31000000 = .ok .synctrain ∧ decode .c 0x32000000 = .ok .decbit ∧ decode .c 0x33000000 = .ok .step ∧
    decode .c 0x34000000 = .ok .service ∧ decode .c 0x4000FFFF = .ok (.take 65535) ∧ decode .c 0x50000000 = .ok .stats ∧
    decode .c 0x51000000 = .ok .status ∧ decode .c 0x52000000 = .ok .syncx ∧ decode .c 0x53000000 = .ok .ovrcnt ∧
    decode .c 0x5400000A = .ok (.rdprof 10) ∧ decode .c 0x5400000B = .ok (.rdprof 11) :=
  ⟨rfl, rfl, rfl, rfl, rfl, rfl, rfl, rfl, rfl, rfl, rfl⟩

theorem test_decode_rejects :
    decode .c 0x01000000 = .error .wrongPort ∧ decode .p 0x10000000 = .error .wrongPort ∧
    decode .p 0x01000001 = .error .operandBits ∧ decode .p 0x01800000 = .error .reservedBits ∧
    decode .c 0x00000000 = .error .unassignedOpcode ∧ decode .c 0xFFFFFFFF = .error .unassignedOpcode ∧
    decode .c 0x10000001 = .error .operandBits ∧ decode .c 0x10010000 = .error .reservedBits ∧
    decode .c 0x16000000 = .error .unassignedOpcode ∧ decode .c 0x35000000 = .error .unassignedOpcode ∧
    decode .c 0x20000002 = .error .operandBits ∧ decode .c 0x30008000 = .error .operandBits :=
  ⟨rfl, rfl, rfl, rfl, rfl, rfl, rfl, rfl, rfl, rfl, rfl, rfl⟩

theorem test_encode_words :
    encode .edge = 0x01000000 ∧ encode (.peek 3) = 0x14000003 ∧ encode (.enable true) = 0x20000001 ∧
    encode (.classify 32767) = 0x30007FFF ∧ encode (.take 65535) = 0x4000FFFF ∧ encode (.rdprof 10) = 0x5400000A := by
  decide

theorem test_table_words :
    decodeTableWord 32 0x01000000 = some .edge ∧ decodeTableWord 32 0x34000000 = some .service ∧
    decodeTableWord 32 0 = none ∧ decodeTableWord 32 0x100000000 = none := by decide

/-- The first step after reset runs the word placed there. -/
theorem test_placed_word_runs :
    [answer (step (State.reset.withFetchWord 32 0x01000000)),
     answer (step (State.reset.withFetchWord 32 0x52000000)),
     answer (step (State.reset.withFetchWord 32 0x13000000)), answer (step (State.reset.withFetchWord 32 0x16000000))] =
    [some (0, 0, 0, []), some (0, 32767, 0, []), some (3, 0, 0, []), some (1, 0, 0, [])] := by decide

/-! ### Single steps (95_test_vectors section 3) -/

/-- 3.2 d: 32768 after the last edge the duration is clamped, not 0. -/
theorem test_edge_clamps :
    (after (exec .edge { radio [] with lastEdge := 34367, tsNow := 67135 })).map buffered = some [32767] := by decide

/-- 3.2 g: across the wrap of the counter. -/
theorem test_edge_wraps :
    (after (exec .edge { radio [] with lastEdge := 4294966996, tsNow := 300 })).map buffered = some [600] := by decide

/-- 3.2 m: a full ring. -/
theorem test_edge_full :
    (after (exec .edge { radio (sixteen 100) with lastEdge := 6300, tsNow := 6400 })).map
      (fun t => (t.ovf, t.tail, t.lastEdge, t.events)) = some (true, 16, 6300, [.captureOverflow 100]) := by decide

/-- 3.2 f and l. -/
theorem test_ring_queries :
    answer (exec .count (radio [600, 0, 32767])) = some (0, 3, 0, []) ∧
    answer (exec .isfull (radio (sixteen 100))) = some (0, 1, 0, []) ∧
    answer (exec .isempty (radio [])) = some (0, 1, 0, []) := by decide

theorem test_pop_peek_adv :
    [answer (exec .pop (radio [600, 0])), answer (exec .pop (radio [])), answer (exec (.peek 1) (radio [600, 7])),
     answer (exec (.peek 2) (radio [600, 7])), answer (exec (.adv 3) (radio [600, 7]))] =
    [some (0, 600, 0, []), some (3, 0, 0, []), some (0, 7, 0, []), some (3, 0, 0, []), some (3, 0, 0, [])] ∧
    (after (exec (.adv 2) (radio [600, 7]))).map (fun t => t.head) = some 2 := by decide

/-- 3.2 s, t: the baseline moves only on a 0 to 1 change. -/
theorem test_enable :
    (after (exec (.enable true) { radio [] with enable := false, tsNow := 9000, lastEdge := 1200 })).map
      (fun t => (t.enable, t.lastEdge)) = some (true, 9000) ∧
    (after (exec (.enable true) { radio [] with tsNow := 9900, lastEdge := 9400 })).map
      (fun t => (t.enable, t.lastEdge)) = some (true, 9400) := by decide

/-- 3.2, dependence of validity on `N`: profile 1 is valid from `N = 17` on. -/
theorem test_seldev :
    answer (exec (.seldev 1) fresh) = some (0, 0, 0, []) ∧
    answer (exec (.seldev 1) { fresh with cfg := { small with n := 16 } }) = some (4, 0, 0, []) ∧
    answer (exec (.seldev 3) fresh) = some (4, 0, 0, []) := by decide

/-- 3.3. -/
theorem test_classify :
    [answer (exec (.classify 149) (radio [])), answer (exec (.classify 150) (radio [])),
     answer (exec (.classify 450) (radio [])), answer (exec (.classify 650) (radio [])),
     answer (exec (.classify 32767) (radio [])), answer (exec (.classify 600) fresh)] =
    [some (0, 4, 0, []), some (0, 0, 0, []), some (0, 1, 0, []), some (0, 2, 0, []), some (0, 3, 0, []),
     some (2, 0, 0, [])] := by decide

/-- 3.4 e: the run ends with the ring and has no cap; f: one sample short of the threshold. -/
theorem test_synctrain :
    answer (exec .synctrain (radio (sixteen 600))) = some (0, 1, 16, []) ∧
    answer (exec .synctrain (radio (List.replicate 15 600))) = some (3, 0, 0, []) := by decide

/-- 3.5: the fallback's window is inclusive, one further is not a bit. -/
theorem test_decbit :
    [answer (exec .decbit (radio [297, 340])), answer (exec .decbit (radio [298, 340])),
     answer (exec .decbit (radio [460, 140])), answer (exec .decbit (radio [250, 2000])),
     answer (exec .decbit (radio [400]))] =
    [some (0, 0, 0, []), some (0, 3, 0, []), some (0, 1, 0, []), some (0, 2, 0, []), some (3, 0, 0, [])] := by decide

/-- 3.6: SyncSeek discards up to the Sync sample and leaves it. -/
theorem test_step_seek :
    (after (exec .step (radio [200, 3000, 600, 600]))).map (fun t => (t.state, buffered t)) =
      some (.syncPulseTrain, [600, 600]) := by decide

/-- 3.6: a byte is packed most significant bit first (0xA5). -/
theorem test_step_packs :
    (after (exec .step { radio [400, 200, 200, 400, 400, 200, 200, 400, 200, 400, 400, 200, 200, 400, 400, 200] with
      state := .accumulateData })).map (fun t => (mbRead false 0 t, t.bitIndex, t.state)) =
      some (0xA5, 8, .accumulateData) := by decide

/-- 3.7 b: a message of five bits is malformed; SERVICE then seeks and blocks. -/
theorem test_service_malformed :
    (after (exec .service (judging 5))).map (fun t => (t.attempts, t.errors, t.events, t.state)) =
      some (1, 1, [.malformed 5], .syncSeek) ∧ answer (exec .service (judging 5)) = some (0, 0, 1, []) := by decide

/-- 3.7 g: a message of two bytes, one of them delivered. -/
theorem test_take :
    answer (exec (.take 1) { radio [] with avail := true, pend := true, readyLen := 2, mb0 := [(0, 0x12), (1, 0x34)] }) =
      some (0, 1, 2, [0x12]) ∧ answer (exec (.take 8) (radio [])) = some (0, 0, 0, []) := by decide

/-- 3.9: a radio just configured, and the status of a full message that is oversized. -/
theorem test_diagnostics :
    [answer (exec .status (radio [])),
     answer (exec .status { judging 16 with oversize := true, avail := true, pend := true, readyLen := 2 }),
     answer (exec .stats { radio [] with attempts := 3, errors := 1 }),
     answer (exec .ovrcnt { radio [] with attempts := 3, overruns := 1 }),
     answer (exec .syncx { radio [] with syncMin := 590, syncMax := 610 }), answer (exec (.rdprof 3) (radio [])),
     answer (exec (.rdprof 11) (radio []))] =
    [some (0, 136, 0, []), some (0, 0x1BC, 0x20010, []), some (0, 3, 1, []), some (0, 1, 0, []),
     some (0, 590, 610, []), some (0, 2000, 0, []), some (3, 0, 0, [])] := by decide

/-- 3.2, race on a full ring: either order of an edge and an `ADV 1` is a run of the block. -/
theorem test_race :
    (after (step { radio (sixteen 100) with portP := [⟨0x01000000, 6400⟩], portC := [⟨0x15000001, 6400⟩],
                                            order := [.p] })).map (fun t => (t.ovf, t.portC.length)) = some (true, 1) ∧
    (after (step { radio (sixteen 100) with portP := [⟨0x01000000, 6400⟩], portC := [⟨0x15000001, 6400⟩],
                                            order := [.c] })).map (fun t => (t.head, t.portP.length)) = some (1, 1) := by
  decide

/-! ### Witnesses: for each statement with hypotheses a state and operands that meet them -/

theorem inv_fresh : Inv fresh := inv_of_checks (by decide)

theorem inv_empty : Inv (radio []) := inv_of_checks (by decide)

theorem inv_full : Inv (radio (sixteen 600)) := inv_of_checks (by decide)

/-- One sample short of full. -/
theorem inv_last_slot : Inv (radio (List.replicate 15 600)) := inv_of_checks (by decide)

theorem inv_one : Inv (radio [600]) := inv_of_checks (by decide)

/-- The last slot, then the first: the ring's index wraps. -/
def wrapped : State := { radio [] with head := 16, tail := 1, rb := [(0, 7), (16, 600)] }

theorem inv_wrapped : Inv wrapped := inv_of_checks (by decide)

/-- What a reset may leave, at the ends of the cells. -/
def draw : Draw := { lastEdge := 4294967295, rb := [(16, 0xFFFF)], mb0 := [(0, 255), (7, 1)], mb1 := [] }

theorem witness_reset_step : InRange { radio [600] with rst := some draw } := by decide

theorem witness_reset_registers : ∃ t, t = State.reset ∨ t = State.resetOf small draw := ⟨_, .inr rfl⟩

theorem witness_idle_until_command : fresh.rst = none ∧ fresh.portP = [] ∧ fresh.portC = [] := by decide

theorem witness_reset_meets_invariant : small.Legal ∧ drawInRange small draw := by decide

/-- An edge inside SERVICE, and a reset; also for StepAlwaysAnswers. -/
theorem witness_step_keeps_invariant :
    (Inv ((busy .syncSeek [600]).withFetchWord 32 0x34000000) ∧
      ∃ t, step ((busy .syncSeek [600]).withFetchWord 32 0x34000000) = .next t) ∧
    (Inv { radio [600] with rst := some draw } ∧ ∃ t, step { radio [600] with rst := some draw } = .next t) :=
  ⟨⟨inv_of_checks (by decide), _, rfl⟩, inv_of_checks (by decide), _, rfl⟩

/-- The port whose turn it is, and the other port when no word waits there. -/
theorem witness_step_runs_decoded :
    (fresh.rst = none ∧ decode .p 0x01000000 = .ok .edge ∧ decode .c 0x34000000 = .ok .service) ∧
    (([] : List Port).headD .c = .c ∧ [Port.p].headD .c = .p ∧ (fresh.portC = [] ∧ fresh.portP = [])) :=
  ⟨⟨rfl, rfl, rfl⟩, rfl, rfl, rfl, rfl⟩

theorem witness_placed_word_runs :
    decode (portFor 0x01000000) 0x01000000 = .ok .edge ∧ decode (portFor 0x34000000) 0x34000000 = .ok .service := ⟨rfl, rfl⟩

theorem witness_decode_encode : (Instr.classify 0x7FFF).wf = true := rfl

theorem witness_encode_decode : decode .c 0x30007FFF = .ok (.classify 0x7FFF) := rfl

/-- A word that a row selects, and one that none does. -/
theorem witness_table_selects :
    (∃ row ∈ rows, row.port = .c ∧ 0x30007FFF#32 &&& row.mask = row.pattern) ∧
    ∀ row ∈ rows, row.port = .c → 0x30008000#32 &&& row.mask ≠ row.pattern := by decide

/-- One word for each way to be illegal. -/
theorem witness_illegal_words :
    (IllegalOn .c 0x16000000 ∧ IllegalOn .c 0x01000000 ∧ IllegalOn .p 0x10000000 ∧ IllegalOn .p 0x01800000) ∧
    (IllegalOn .p 0x01000001 ∧ IllegalOn .c 0x20000002 ∧ IllegalOn .c 0x30008000) := by
  refine ⟨⟨?_, ?_, ?_, ?_⟩, ?_, ?_, ?_⟩ <;> unfold IllegalOn <;> decide

theorem witness_illegal_step :
    nextCommand { fresh with portC := [⟨0x16000000, 5⟩] } = some (.c, ⟨0x16000000, 5⟩, { fresh with tsNow := 5 }) ∧
    InRange { fresh with tsNow := 5 } := ⟨rfl, by decide⟩

/-- Disabled; full; one slot left. -/
theorem witness_edge_effect :
    (Inv fresh ∧ fresh.enable = false) ∧ (Inv (radio (sixteen 600)) ∧ Count (radio (sixteen 600)) (small.n - 1)) ∧
    (Inv (radio (List.replicate 15 600)) ∧ ¬ Count (radio (List.replicate 15 600)) (small.n - 1)) ∧
    (∀ s ∈ [fresh, radio (sixteen 600), radio (List.replicate 15 600)],
      (0 : Int) = min (((s.tsNow : Int) - (s.lastEdge : Int)) % (s.cfg.tsMod : Int)) 32767) :=
  ⟨⟨inv_fresh, rfl⟩, ⟨inv_full, by unfold Count; decide⟩, ⟨inv_last_slot, by unfold Count; decide⟩, by decide⟩

theorem witness_wraparound_safe :
    Inv { radio (List.replicate 15 600) with lastEdge := 4294966996, tsNow := 300 } ∧
    (buffered (radio (List.replicate 15 600))).length < small.n - 1 ∧ (600 : Nat) < small.tsMod ∧
    300 = (4294966996 + 600) % small.tsMod := ⟨inv_of_checks (by decide), by decide, by decide, by decide⟩

theorem witness_ring_capacity :
    Inv (radio []) ∧ (radio []).enable = true ∧ buffered (radio []) = [] ∧ (sixteen 100).length = small.n - 1 ∧
    (∀ x ∈ sixteen 100, x < small.tsMod) ∧ 4294967295 < small.tsMod :=
  ⟨inv_empty, rfl, rfl, by decide, by decide, by decide⟩

theorem witness_ring_queries : InRange (radio []) ∧ InRange (radio (sixteen 600)) :=
  ⟨inv_empty.inRange, inv_full.inRange⟩

theorem witness_buffered_samples : Inv wrapped ∧ 1 < (buffered wrapped).length := ⟨inv_wrapped, by decide⟩

theorem witness_pop_effect :
    (Inv (radio []) ∧ buffered (radio []) = []) ∧ Inv wrapped ∧ buffered wrapped = 600 :: [7] :=
  ⟨⟨inv_empty, rfl⟩, inv_wrapped, by decide⟩

/-- The first offset past the last sample, and the last sample. -/
theorem witness_peek_effect :
    Inv wrapped ∧ (buffered wrapped).length ≤ (2 : BitVec 16).toNat ∧
    (buffered wrapped)[(1 : BitVec 16).toNat]? = some 7 := ⟨inv_wrapped, by decide, by decide⟩

/-- One more than is buffered; all that is buffered. -/
theorem witness_adv_effect :
    Inv wrapped ∧ (buffered wrapped).length < (3 : BitVec 16).toNat ∧
    (2 : BitVec 16).toNat ≤ (buffered wrapped).length := ⟨inv_wrapped, by decide, by decide⟩

theorem witness_enable_effect :
    (InRange fresh ∧ fresh.cfgValid = false) ∧
    (InRange { radio [] with enable := false } ∧ (radio []).cfgValid = true) ∧
    (InRange (radio []) ∧ (radio []).cfgValid = true ∧ (radio []).enable = true) :=
  ⟨⟨inv_fresh.inRange, rfl⟩, ⟨by decide, rfl⟩, inv_empty.inRange, rfl, rfl⟩

theorem witness_edges_at_boundary :
    fresh.order = [] ∧ { fresh with order := [.c] }.order = .c :: [] ∧
    ({ fresh with order := [.p] }.order = .p :: [] ∧ fresh.portP = []) ∧
    ((busy .syncSeek []).order = .p :: [] ∧ (busy .syncSeek []).portP = ⟨0x01000000, 600⟩ :: [] ∧
      InRange (busy .syncSeek []) ∧ decode .p 0x01000000 = .ok .edge ∧
      ∃ t, exec .edge { busy .syncSeek [] with order := [], portP := [], tsNow := 600 } = .next t) :=
  ⟨rfl, rfl, ⟨rfl, rfl⟩, rfl, rfl, by decide, rfl, _, rfl⟩

theorem witness_edges_only_append : Inv (busy .syncSeek [600]) := inv_of_checks (by decide)

/-- The lower end of each band, the first duration of a termination and the last that is none. -/
theorem witness_classify_first_match :
    Near 200 50 150 ∧ (¬ Near 200 50 350 ∧ Near 400 50 350) ∧
    (¬ Near 200 50 550 ∧ ¬ Near 400 50 550 ∧ Near 600 50 550) ∧
    (¬ Near 200 50 2000 ∧ ¬ Near 400 50 2000 ∧ ¬ Near 600 50 2000 ∧ (2000 : BitVec 16).toNat ≤ 2000) ∧
    (¬ Near 200 50 1999 ∧ ¬ Near 400 50 1999 ∧ ¬ Near 600 50 1999 ∧ 1999 < (2000 : BitVec 16).toNat) := by
  unfold Near; decide

theorem witness_classify_effect :
    (InRange fresh ∧ fresh.cfgValid = false) ∧ InRange (radio []) ∧ (radio []).cfgValid = true :=
  ⟨⟨inv_fresh.inRange, rfl⟩, inv_empty.inRange, rfl⟩

/-- Both ends of each band of F1, and the durations next to them. -/
theorem witness_band_edges :
    ((150 : Int) = ((200 : BitVec 16).toNat : Int) - (50 : BitVec 16).toNat ∧
      250 = (200 : BitVec 16).toNat + (50 : BitVec 16).toNat) ∧
    (¬ Near 200 50 450 ∧ 450 = (400 : BitVec 16).toNat + (50 : BitVec 16).toNat) ∧
    (¬ Near 200 50 650 ∧ ¬ Near 400 50 650 ∧ 650 = (600 : BitVec 16).toNat + (50 : BitVec 16).toNat) ∧
    ((149 : Int) = ((200 : BitVec 16).toNat : Int) - (50 : BitVec 16).toNat - 1 ∧
      (349 : Int) = ((400 : BitVec 16).toNat : Int) - (50 : BitVec 16).toNat - 1) ∧
    ((549 : Int) = ((600 : BitVec 16).toNat : Int) - (50 : BitVec 16).toNat - 1 ∧ ¬ Near 600 50 549) := by
  unfold Near; decide

/-- A profile whose sync band holds its termination threshold, and one whose threshold no sample reaches. -/
theorem witness_odd_profiles :
    (ValidProfile small { Profile.f1 with termMin := 650 } ∧ Near 400 50 350 ∧ Near 600 50 650 ∧
      (650 : BitVec 16).toNat ≤ 650) ∧
    (ValidProfile small { Profile.f1 with termMin := 32768 } ∧ 32767 < (32768 : BitVec 16).toNat) := by
  unfold ValidProfile Near; decide

theorem witness_needs_profile : InRange fresh ∧ fresh.cfgValid = false ∧ Inv fresh := ⟨by decide, rfl, inv_fresh⟩

/-- No profile; one sample short of the detector's threshold; at it. -/
theorem witness_synctrain_effect :
    (Inv fresh ∧ fresh.cfgValid = false) ∧
    (Inv (radio (List.replicate 15 600)) ∧ (radio (List.replicate 15 600)).cfgValid = true) ∧
    (Inv (radio (sixteen 600)) ∧ (radio (sixteen 600)).cfgValid = true) :=
  ⟨⟨inv_fresh, rfl⟩, ⟨inv_last_slot, rfl⟩, inv_full, rfl⟩

/-- A run of five Sync samples before eleven others. -/
def train : State := radio (List.replicate 5 600 ++ List.replicate 11 400)

theorem witness_synctrain_alone :
    (Inv (radio (List.replicate 15 600)) ∧ (radio []).portP = [] ∧
      (buffered (radio (List.replicate 15 600))).length <
        (radio []).profile.maxSync.toNat + 8 * (radio []).profile.minMsgBytes.toNat) ∧
    (Inv train ∧ buffered train = List.replicate 5 600 ++ 400 :: List.replicate 10 400 ∧
      train.profile.maxSync.toNat + 8 * train.profile.minMsgBytes.toNat ≤ (buffered train).length ∧
      (∀ d ∈ List.replicate 5 600, classify train.profile d = .sync) ∧ classify train.profile 400 ≠ .sync) :=
  ⟨⟨inv_last_slot, rfl, by decide⟩, inv_of_checks (by decide), by decide, by decide, by decide, by decide⟩

/-- Every case of the three rules (95_test_vectors 3.5). -/
theorem witness_pair_rules :
    (classify Profile.f1 400 = .longData ∧ classify Profile.f1 200 = .shortData) ∧
    (¬ (classify Profile.f1 451 = .longData) ∧ Recovers Profile.f1 451 150 ∧ 150 < 451) ∧
    (¬ (classify Profile.f1 340 = .longData) ∧ Recovers Profile.f1 297 340 ∧ 297 < 340) ∧
    (¬ Recovers Profile.f1 250 2000 ∧ classify Profile.f1 250 = .shortData ∧
      classify Profile.f1 2000 = .termination) ∧
    (¬ Recovers Profile.f1 298 340 ∧ ¬ (classify Profile.f1 298 = .shortData)) := by
  unfold Recovers Near; decide

/-- One sample; then two of each result. -/
theorem witness_decbit_effect :
    (Inv fresh ∧ fresh.cfgValid = false) ∧ (Inv (radio [600]) ∧ (radio [600]).cfgValid = true) ∧
    (Inv (radio [297, 340]) ∧ (radio [297, 340]).cfgValid = true) :=
  ⟨⟨inv_fresh, rfl⟩, ⟨inv_one, rfl⟩, inv_of_checks (by decide), rfl⟩

theorem witness_decbit_alone :
    (Inv (radio [600]) ∧ (radio [600]).portP = [] ∧ (buffered (radio [600])).length < 2) ∧
    (Inv (radio [297, 340]) ∧ buffered (radio [297, 340]) = 297 :: 340 :: [] ∧ decodePair Profile.f1 297 340 = .bit0) ∧
    (Inv (radio [451, 150]) ∧ buffered (radio [451, 150]) = 451 :: 150 :: [] ∧ decodePair Profile.f1 451 150 = .bit1) ∧
    (Inv (radio [250, 2000]) ∧ decodePair Profile.f1 250 2000 = .termination) ∧
    (Inv (radio [298, 340]) ∧ decodePair Profile.f1 298 340 = .invalid) :=
  ⟨⟨inv_one, rfl, by decide⟩, ⟨inv_of_checks (by decide), by decide, by decide⟩,
   ⟨inv_of_checks (by decide), by decide, by decide⟩, ⟨inv_of_checks (by decide), by decide⟩,
   inv_of_checks (by decide), by decide⟩

theorem witness_disabled_step :
    InRange { judging 8 with enable := false } ∧ { judging 8 with enable := false }.enable = false := by decide

theorem witness_step_runs_one_handler : Inv (busy .accumulateData [400, 200]) ∧ Inv fresh ∧ fresh.cfgValid = false :=
  ⟨inv_of_checks (by decide), inv_fresh, rfl⟩

theorem witness_step_sync_seek :
    Inv (busy .syncSeek [200, 600]) ∧ (busy .syncSeek [200, 600]).enable = true ∧
    (busy .syncSeek [200, 600]).state = .syncSeek := ⟨inv_of_checks (by decide), rfl, rfl⟩

/-- One sample short of the threshold, with an edge waiting. -/
theorem witness_step_sync_pulse_train :
    Inv (busy .syncPulseTrain (List.replicate 15 600)) ∧ (busy .syncPulseTrain (List.replicate 15 600)).enable = true ∧
    (busy .syncPulseTrain (List.replicate 15 600)).state = .syncPulseTrain := ⟨inv_of_checks (by decide), rfl, rfl⟩

theorem witness_step_accumulate_wait :
    Inv (busy .accumulateWait (List.replicate 15 600)) ∧ (busy .accumulateWait (List.replicate 15 600)).enable = true ∧
    (busy .accumulateWait (List.replicate 15 600)).state = .accumulateWait := ⟨inv_of_checks (by decide), rfl, rfl⟩

/-- A full message and a further bit, with an edge waiting. -/
theorem witness_step_accumulate_data :
    Inv { busy .accumulateData [400, 200, 200, 3000] with bitIndex := 16 } ∧
    { busy .accumulateData [400, 200, 200, 3000] with bitIndex := 16 }.enable = true ∧
    { busy .accumulateData [400, 200, 200, 3000] with bitIndex := 16 }.state = .accumulateData :=
  ⟨inv_of_checks (by decide), rfl, rfl⟩

/-- No bit; a partial byte; a message below the minimum (profile 10); one at the maximum, published or dropped. -/
theorem witness_step_post_data :
    (Inv (judging 0) ∧ (judging 0).bitIndex.toNat = 0) ∧ (Inv (judging 15) ∧ (judging 15).bitIndex.toNat % 8 ≠ 0) ∧
    (Inv { judging 8 with cfg := Config.default, profile := { Profile.f1 with minMsgBytes := 2, maxMsgBytes := 4 } } ∧
      8 % 8 = 0 ∧ 8 / 8 < (2 : BitVec 8).toNat) ∧
    (Inv { judging 16 with oversize := true } ∧ Profile.f1.minMsgBytes.toNat ≤ 16 / 8 ∧
      { judging 16 with oversize := true }.avail = false) ∧
    (Inv { judging 8 with avail := true, readyLen := 2 } ∧ Profile.f1.minMsgBytes.toNat ≤ 8 / 8) :=
  ⟨⟨inv_of_checks (by decide), rfl⟩, ⟨inv_of_checks (by decide), by decide⟩,
   ⟨inv_of_checks (by decide), by decide, by decide⟩, ⟨inv_of_checks (by decide), by decide, rfl⟩,
   inv_of_checks (by decide), by decide⟩

theorem witness_state_transitions :
    (Inv { judging 8 with enable := false } ∧ ∃ t, exec .step { judging 8 with enable := false } = .next t) ∧
    (Inv (judging 8) ∧ ∃ t, exec .step (judging 8) = .next t) ∧
    (Inv (judging 8) ∧ ∃ t, exec (.seldev 1) (judging 8) = .next t) ∧
    (Inv (judging 8) ∧ ∃ t, exec .synctrain (judging 8) = .next t) :=
  ⟨⟨inv_of_checks (by decide), _, rfl⟩, ⟨inv_of_checks (by decide), _, rfl⟩, ⟨inv_of_checks (by decide), _, rfl⟩,
   inv_of_checks (by decide), _, rfl⟩

theorem witness_service_runs_until_blocked :
    (Inv fresh ∧ fresh.enable = false) ∧ Inv (busy .syncPulseTrain (List.replicate 15 600)) :=
  ⟨⟨inv_fresh, rfl⟩, inv_of_checks (by decide)⟩

/-- The pulses of the byte 0xA5 (95_test_vectors section 1). -/
def pulsesA5 : List Nat := [400, 200, 200, 400, 400, 200, 200, 400, 200, 400, 400, 200, 200, 400, 400, 200]

/-- Program P1: a train of six, the byte 0xA5, and the ending (200, 3000). -/
def programP1 : State := radioOn Config.default (List.replicate 6 600 ++ pulsesA5 ++ 200 :: 3000 :: [])

theorem witness_round_trip :
    Inv programP1 ∧ (programP1.enable = true ∧ programP1.state = .syncSeek ∧ programP1.avail = false) ∧
    buffered programP1 = List.replicate 6 600 ++ pulsesA5 ++ 200 :: 3000 :: [] ∧
    (∀ d ∈ List.replicate 6 600, classify programP1.profile d = .sync) ∧
    programP1.profile.minSync.toNat < (List.replicate 6 600).length ∧ classify programP1.profile 400 ≠ .sync :=
  ⟨inv_of_checks (by decide), by decide, by decide, by decide, by decide, by decide⟩

theorem witness_round_trip_2 :
    DecodesTo programP1.profile pulsesA5 (bitsOf [0xA5]) ∧ decodePair programP1.profile 200 3000 = .termination ∧
    programP1.profile.minMsgBytes.toNat ≤ [0xA5#8].length ∧ [0xA5#8].length ≤ programP1.profile.maxMsgBytes.toNat ∧
    programP1.profile.maxSync.toNat + 8 * programP1.profile.minMsgBytes.toNat ≤ (buffered programP1).length ∧
    [0xA5#8].length ≤ (1 : BitVec 16).toNat :=
  ⟨⟨by decide, by decide, by decide, by decide, by decide, by decide, by decide, by decide, trivial⟩, by decide, by decide,
   by decide, by decide, by decide⟩

/-- A message of two bytes is available. -/
def holding : State := { radio [] with avail := true, pend := true, readyLen := 2, mb0 := [(0, 0x12), (1, 0x34)] }

theorem inv_holding : Inv holding := inv_of_checks (by decide)

theorem witness_take_effect : (InRange (radio []) ∧ (radio []).avail = false) ∧ InRange holding ∧ holding.avail = true :=
  ⟨⟨inv_empty.inRange, rfl⟩, inv_holding.inRange, rfl⟩

/-- SELDEV of a profile that is not defined. -/
theorem not_accepted (s : State) (h : s.cfg = small) : ∀ p, ¬ Accepted s 3 p := by
  intro p hp
  have h3 := hp.1
  rw [h, show lookupProfile small.profiles 3 = none from rfl] at h3
  cases h3

theorem witness_published_message_kept :
    Inv holding ∧ holding.avail = true ∧ (∃ t, exec .service holding = .next t) ∧
    (∃ t, exec (.seldev 3) holding = .next t) ∧ (∀ p, ¬ Accepted holding 3 p) :=
  ⟨inv_holding, rfl, ⟨_, rfl⟩, ⟨_, rfl⟩, not_accepted _ rfl⟩

theorem witness_seldev_effect :
    (InRange fresh ∧ Accepted fresh 1 Profile.f1) ∧ InRange fresh ∧ ∀ p, ¬ Accepted fresh 3 p :=
  ⟨⟨by decide, by unfold Accepted ValidProfile; decide⟩, by decide, not_accepted _ rfl⟩

/-- For DiagnosticReads and StatusBits. -/
theorem witness_diagnostics : InRange fresh ∧ InRange { judging 16 with oversize := true } :=
  ⟨inv_fresh.inRange, by decide⟩

/-- The first index that is none, and the last that is one. -/
theorem witness_rdprof_effect :
    InRange (radio []) ∧ 10 < (11 : BitVec 16).toNat ∧ (10 : BitVec 16).toNat ≤ 10 ∧ Inv fresh ∧ fresh.cfgValid = false :=
  ⟨by decide, by decide, by decide, inv_fresh, rfl⟩

/-- For ProfileImmutable, CountersSticky and OneResponse. -/
theorem witness_every_command :
    (Inv (judging 8) ∧ (judging 8).cfgValid = true ∧ ∃ t, exec .service (judging 8) = .next t) ∧
    (Inv { radio [] with ovf := true } ∧ { radio [] with ovf := true }.ovf = true ∧
      ∃ t, exec (.seldev 3) { radio [] with ovf := true } = .next t) ∧
    (∀ p, ¬ Accepted { radio [] with ovf := true } 3 p) ∧
    (Inv (busy .syncSeek []) ∧ ∃ t, exec .step (busy .syncSeek []) = .next t) :=
  ⟨⟨inv_of_checks (by decide), rfl, _, rfl⟩, ⟨inv_of_checks (by decide), rfl, _, rfl⟩, not_accepted _ rfl,
   inv_of_checks (by decide), _, rfl⟩

theorem witness_refusal_changes_nothing :
    Inv (radio []) ∧ (radio []).portP = [] ∧ ∃ t r, exec .decbit (radio []) = .next t ∧
      t.responses = (radio []).responses ++ [(.c, r)] ∧ r.status ≠ .ok :=
  ⟨inv_empty, rfl, _, ⟨.precond, 0, 0, []⟩, rfl, rfl, by decide⟩

theorem witness_before_configuration :
    InRange { fresh with tsNow := 4294967295 } ∧
    blockOf { fresh with tsNow := 4294967295 } = blockOf (State.resetOf small Draw.zero) := ⟨by decide, rfl⟩

/-- A slot that holds no sample, with other contents. -/
theorem witness_other_slots_unread :
    Inv (radio [600]) ∧ Inv { radio [600] with rb := [(0, 600), (16, 0xFFFF)] } ∧
    buffered { radio [600] with rb := [(0, 600), (16, 0xFFFF)] } = buffered (radio [600]) ∧
    ∃ t, exec .service (radio [600]) = .next t := ⟨inv_one, inv_of_checks (by decide), by decide, _, rfl⟩

theorem witness_frame_reads : reads .status = true ∧ ∃ t, exec .status (radio [600]) = .next t := ⟨rfl, _, rfl⟩

theorem witness_frame_consumer_atoms :
    (∃ t, exec .pop (radio [600]) = .next t) ∧ (∃ t, exec (.adv 1) (radio [600]) = .next t) ∧
    (∃ t, exec (.enable false) (radio []) = .next t) ∧ (∃ t, exec (.take 8) holding = .next t) ∧
    (∃ t, exec (.seldev 1) (radio [600]) = .next t) := ⟨⟨_, rfl⟩, ⟨_, rfl⟩, ⟨_, rfl⟩, ⟨_, rfl⟩, _, rfl⟩

/-- An edge stored, and one that leaves `tail`. -/
theorem witness_frame_edge :
    (Inv (radio []) ∧ ∃ t, exec .edge (radio []) = .next t) ∧
    (Inv (radio (sixteen 600)) ∧ ∃ t, exec .edge (radio (sixteen 600)) = .next t ∧ t.tail = (radio (sixteen 600)).tail) :=
  ⟨⟨inv_empty, _, rfl⟩, inv_full, _, rfl, rfl⟩

theorem witness_frame_composite :
    (Inv (radio [400, 200]) ∧ (radio [400, 200]).portP = [] ∧ ∃ t, exec .decbit (radio [400, 200]) = .next t) ∧
    (Inv (radio (sixteen 600)) ∧ ∃ t, exec .synctrain (radio (sixteen 600)) = .next t) ∧
    (Inv programP1 ∧ programP1.portP = [] ∧ ∃ t, exec .step programP1 = .next t) ∧
    ∃ t, exec .service programP1 = .next t :=
  ⟨⟨inv_of_checks (by decide), rfl, _, rfl⟩, ⟨inv_full, _, rfl⟩, ⟨inv_of_checks (by decide), rfl, _, rfl⟩, _, rfl⟩

end Sys2Proof.Tests
end

section
/-! What a refused command leaves behind (00_scope R12): `Outcomes` read backwards, from the status of the response on record
to the state before that response. -/

namespace Sys2Proof.Machine

/-- With no edge waiting, a boundary uses up schedule entries at most (60_exceptions R262). -/
theorem EdgesFell.blockOf_eq {s u : State} (h : EdgesFell s u) (hq : s.portP = []) : blockOf u = blockOf s := by
  obtain ⟨_, htail, hrb, hedge, hovf, _, _⟩ := h.quiet hq
  obtain ⟨_, _, _, _, _, _, _, _, _, rfl⟩ := h.frame
  subst htail hrb hedge hovf
  rfl

/-- The last response on record is the one just given. -/
theorem status_of_respond {port port' : Port} {st : Status} {r0 r1 : Nat} {data : List Byte} {u : State} {r : Response}
    {rs : List (Port × Response)} (h : (respond port' st r0 r1 data u).responses = rs ++ [(port, r)]) : r.status = st := by
  have hlast := List.append_inj_right' h rfl
  cases hlast
  rfl

/-- `t` is a refusal in `s`: zeros are answered after edges at a boundary, or after SELDEV recorded what it turned away. -/
inductive RefusedAfter (s : State) : State → Prop where
  | edges (u : State) (st : Status) (hu : EdgesFell s u) : RefusedAfter s (respond .c st 0 0 [] u)
  | config (pid : BitVec 16) : RefusedAfter s (respond .c .cfgerr 0 0 [] (raise (.configError pid) s))

theorem RefusedAfter.blockOf_eq {s t : State} (h : RefusedAfter s t) (hq : s.portP = []) : blockOf t = blockOf s := by
  cases h with
  | edges u st hu => exact hu.blockOf_eq hq
  | config pid => rfl

theorem RefusedAfter.tsNow_eq {s t : State} (h : RefusedAfter s t) (hq : s.portP = []) : t.tsNow = s.tsNow := by
  cases h with
  | edges u st hu =>
    obtain ⟨_, _, _, _, _, _, hts⟩ := hu.quiet hq
    exact hts
  | config pid => rfl

section
variable {i : Instr} {s t : State} {port : Port} {r : Response} {rs : List (Port × Response)}

theorem Ends.refusedAfter (h : Ends s t) (hresp : t.responses = rs ++ [(port, r)]) (hst : r.status ≠ .ok) :
    RefusedAfter s t := by
  cases h with
  | refused u st _ hu => exact .edges u st hu
  | answered u r0 r1 _ => exact absurd (status_of_respond hresp) hst

/-- A command that answers another status than OK took one of its refusing branches. -/
theorem Outcomes.refusedAfter (h : Outcomes s i t) (hresp : t.responses = rs ++ [(port, r)]) (hst : r.status ≠ .ok) :
    RefusedAfter s t := by
  cases h with
  | read i st r0 r1 _ hs =>
    obtain rfl | ⟨rfl, rfl, _⟩ := hs
    · exact absurd (status_of_respond hresp) hst
    · exact .edges s st (.refl s)
  | emptyPop | shortAdv | notConfigured => exact .edges s _ (.refl s)
  | notSelected pid _ => exact .config pid
  | ended i t _ ht => exact ht.refusedAfter hresp hst
  | _ => exact absurd (status_of_respond hresp) hst

end

end Sys2Proof.Machine

namespace Sys2Proof.Claims

open Sys2Proof.Machine

/-- Settles O54: the refusing branches of `exec` write outputs only, and the boundary before them is quiet. -/
theorem refusalChangesNothing : Obligations.RefusalChangesNothing := by
  intro i s t port r hinv hq hexec hresp hst
  have href : RefusedAfter s t := (exec_outcomes (fun _ => hinv.ringOk) hexec).refusedAfter hresp hst
  exact ⟨href.blockOf_eq hq, href.tsNow_eq hq⟩

end Sys2Proof.Claims
end

section
/-! Reset (10_state R59, R62), and the invariant (R61) along every step: it holds of the reset state, and each answer of `exec`
keeps it. -/

namespace Sys2Proof.Machine

/-! ### The ring with `head = tail` -/

/-- `head = tail` says that the ring is empty (10_state R23). -/
theorem rbCount_of_head_eq_tail {s : State} (h : s.head = s.tail) : rbCount s = 0 := by simp [rbCount, modSub, h]

/-! ### Reset -/

/-- Before configuration every profile register reads 0 (10_state R40, R59). -/
theorem profileField_zero {s : State} (hp : s.profile = Profile.zero) (hid : s.profileId = 0) {idx : Nat} (hidx : idx ≤ 10) :
    profileField s idx = some 0 := by
  match idx, hidx with
  | 0, _ | 1, _ | 2, _ | 3, _ | 4, _ | 5, _ | 6, _ | 7, _ | 8, _ | 9, _ | 10, _ =>
    simp only [profileField, hp, hid]
    rfl
  | n + 11, hidx => omega

/-- An asserted reset is what the step takes first (70_reset_and_hazards R281). -/
theorem step_of_rst {s : State} {d : Draw} (hrst : s.rst = some d) (hr : InRange s) : step s = .next (applyReset d s) := by
  simp only [step, hrst, completes_eq hr]

theorem drawInRange_zero {c : Config} (hc : c.Legal) : drawInRange c Draw.zero := by
  obtain ⟨_, ⟨htsMod, _⟩, _⟩ := hc
  exact ⟨Nat.lt_of_lt_of_le (by decide) htsMod, ⟨Memory.wf_nil, by simp [Draw.zero]⟩, ⟨Memory.wf_nil, by simp [Draw.zero]⟩,
    ⟨Memory.wf_nil, by simp [Draw.zero]⟩⟩

/-- Reset leaves an empty ring and an unconfigured block, so the invariant asks only that the draw fit its cells. -/
theorem inv_resetOf {c : Config} {d : Draw} (hc : c.Legal) (hd : drawInRange c d) : Inv (State.resetOf c d) := by
  obtain ⟨⟨htwo, _⟩, ⟨htsMod, _⟩, _⟩ := id hc
  obtain ⟨hedge, hrb, hmb0, hmb1⟩ := hd
  have hn : 0 < c.n := Nat.lt_of_lt_of_le (by decide) htwo
  have hts : 0 < c.tsMod := Nat.lt_of_lt_of_le (by decide) htsMod
  have hctr : 0 < 2 ^ c.ctrW := Nat.two_pow_pos _
  exact {
    inRange := ⟨hc, ⟨hts, by simp [State.resetOf], by simp [State.resetOf], by simp [State.resetOf]⟩,
      ⟨hn, hn, hedge, hctr, hctr, hctr, Nat.zero_le _, Nat.zero_le _⟩⟩
    rbMem := hrb
    mbMem := fun b => by
      cases b
      · exact hmb0
      · exact hmb1
    samples := fun o ho => by
      rw [rbCount_of_head_eq_tail rfl] at ho
      exact absurd ho (Nat.not_lt_zero o)
    enabled := fun h => nomatch h
    profileOk := fun h => nomatch h
    unconfigured := fun _ => ⟨rfl, rfl⟩
    bitIndexOk := Nat.le_refl _
    oversizeFull := fun h => nomatch h
    readyOk := fun h => nomatch h
    counters := ⟨Nat.le_refl _, Nat.le_refl _⟩ }

/-- Reset leaves the block of the reset state, and the inputs that waited (log entry 5). -/
theorem inv_applyReset {s : State} {d : Draw} (h : InRange s) (hd : drawInRange s.cfg d) : Inv (applyReset d s) := by
  obtain ⟨hlegal, ⟨hts, hportP, hportC, _⟩, _⟩ := h
  exact (inv_resetOf hlegal hd).of_blockOf rfl ⟨hts, hportP, hportC, by simp [applyReset, State.resetOf]⟩

/-! ### The invariant after a command -/

theorem profileValid_iff {c : Config} {p : Profile} : profileValid c p = true ↔ Claims.ValidProfile c p := by
  simp [profileValid, Claims.ValidProfile, and_assoc]

theorem Inv.tsNow_lt {s : State} (h : Inv s) : s.tsNow < s.cfg.tsMod := by
  obtain ⟨_, ⟨hts, _⟩, _⟩ := h.inRange
  exact hts

theorem Inv.lastEdge_lt {s : State} (h : Inv s) : s.lastEdge < s.cfg.tsMod := by
  obtain ⟨_, _, _, _, hedge, _⟩ := h.inRange
  exact hedge

/-- ENABLE needs a configured block to enable it, and takes a baseline off the bus (40_ring_buffer R139). -/
theorem Inv.withEnable {s : State} (h : Inv s) {en : Bool} {le : Nat} (hen : en = true → s.cfgValid = true)
    (hle : le < s.cfg.tsMod) : Inv { s with lastEdge := le, enable := en } := by
  obtain ⟨hlegal, hin, hhead, htail, _, hregs⟩ := h.inRange
  exact { h with inRange := ⟨hlegal, hin, hhead, htail, hle, hregs⟩, enabled := hen }

/-- TAKE frees the ready buffer (45_message_store R220). -/
theorem Inv.withoutMessage {s : State} (h : Inv s) : Inv { s with avail := false } :=
  { h with readyOk := fun hav => nomatch hav }

/-- An accepted SELDEV empties the ring and puts a valid profile in force (46_config_diag R231). -/
theorem Inv.initRadio {s : State} (h : Inv s) {p : Profile} (pid : BitVec 16) (hp : profileValid s.cfg p = true) :
    Inv (initRadio p pid s.tsNow s) := by
  obtain ⟨hlegal, hin, _, htail, _⟩ := h.inRange
  obtain ⟨_, ⟨_, _, hmax⟩, _⟩ := profileValid_iff.mp hp
  have hctr : 0 < 2 ^ s.cfg.ctrW := Nat.two_pow_pos _
  exact {
    inRange := ⟨hlegal, hin, htail, htail, h.tsNow_lt, hctr, hctr, hctr, Nat.zero_le _, hmax⟩
    rbMem := h.rbMem
    mbMem := h.mbMem
    samples := fun o ho => by
      rw [rbCount_of_head_eq_tail rfl] at ho
      exact absurd ho (Nat.not_lt_zero o)
    enabled := fun _ => rfl
    profileOk := fun _ => hp
    unconfigured := fun hv => nomatch hv
    bitIndexOk := Nat.zero_le _
    oversizeFull := fun ho => nomatch ho
    readyOk := fun hav => nomatch hav
    counters := ⟨Nat.le_refl _, Nat.le_refl _⟩ }

theorem Ends.inv {s t : State} (h : Ends s t) (hi : Inv s) : Inv t := by
  cases h with
  | refused u st _ hu => exact (hu.inv hi).respond ..
  | answered u r0 r1 hu => exact (hu.inv hi).respond ..

/-- Every answer of `exec` keeps the invariant. -/
theorem Outcomes.inv {i : Instr} {s t : State} (h : Outcomes s i t) (hi : Inv s) : Inv t := by
  have hedge : Inv (edgeAtom s.tsNow s) := hi.edgeAtom hi.tsNow_lt
  cases h with
  | edgeDropped he hf | edgeStored he hf => simpa [edgeAtom, he, hf] using hedge
  | popped hc | advanced _ hc => exact ((Evolves.rbAdv hi.ringOk hc).inv hi).respond ..
  | enabled hv => exact (hi.withEnable (fun _ => hv) hi.tsNow_lt).respond ..
  | disabled => exact (hi.withEnable (en := false) (fun h => nomatch h) hi.lastEdge_lt).respond ..
  | selected pid p _ hp => exact (hi.initRadio pid hp).respond ..
  | notSelected pid _ => exact (hi.raise _).respond ..
  | taken => exact hi.withoutMessage.respond ..
  | ended _ _ _ ht => exact ht.inv hi
  | edgeOff | read | emptyPop | shortAdv | notConfigured | alreadyEnabled | nothingToTake => exact hi.respond ..

/-- Which word is run next: the first waiting on its port, with its `ts_now` then on the bus (20_memory R84). -/
theorem nextCommand_cases {s u : State} {port : Port} {cmd : Command} (h : nextCommand s = some (port, cmd, u)) :
    (∃ rest, s.portP = cmd :: rest ∧ u = { s with portP := rest, tsNow := cmd.ts, order := s.order.tail }) ∨
    (∃ rest, s.portC = cmd :: rest ∧ u = { s with portC := rest, tsNow := cmd.ts, order := s.order.tail }) := by
  unfold nextCommand at h
  split at h <;> cases h
  · next hp => exact .inl ⟨_, hp, rfl⟩
  · next hc => exact .inr ⟨_, hc, rfl⟩
  · next hc => exact .inr ⟨_, hc, rfl⟩
  · next hp => exact .inl ⟨_, hp, rfl⟩

theorem Inv.nextCommand {s u : State} {port : Port} {cmd : Command} (h : Inv s)
    (hnext : nextCommand s = some (port, cmd, u)) : Inv u := by
  obtain ⟨_, hportP, hportC, hrst⟩ := h.inRange.2.1
  obtain ⟨rest, hq, rfl⟩ | ⟨rest, hq, rfl⟩ := nextCommand_cases hnext
  · rw [hq] at hportP
    exact h.of_blockOf rfl ⟨hportP cmd (by simp), fun c hc => hportP c (by simp [hc]), hportC, hrst⟩
  · rw [hq] at hportC
    exact h.of_blockOf rfl ⟨hportC cmd (by simp), hportP, fun c hc => hportC c (by simp [hc]), hrst⟩

end Sys2Proof.Machine

namespace Sys2Proof.Claims

open Sys2Proof.Machine

/-- Settles O1: the step's answer is `applyReset`, whose fields are those of the reset table. -/
theorem resetStep : Obligations.ResetStep := by
  intro s d hrst hr
  exact ⟨_, step_of_rst hrst hr, ⟨rfl, rfl, rfl, rfl, rfl⟩, ⟨rfl, rfl, rfl, rfl, rfl, rfl⟩,
    fun _ hidx => profileField_zero rfl rfl hidx, ⟨rfl, rfl, rfl, rfl, rfl⟩, ⟨rfl, rfl, rfl, rfl⟩, rfl, rfl⟩

/-- Settles O2: `State.reset` is a `State.resetOf` too. -/
theorem resetRegisters : Obligations.ResetRegisters := by
  intro c d t ht
  obtain ⟨c, d, rfl⟩ : ∃ c d, t = State.resetOf c d := ht.elim (fun h => ⟨_, _, h⟩) (fun h => ⟨_, _, h⟩)
  exact ⟨⟨rfl, rfl, rfl, rfl, rfl⟩, ⟨rfl, rfl, rfl, rfl, rfl, rfl⟩, fun _ hidx => profileField_zero rfl rfl hidx,
    rfl, rfl, rfl, rfl, rfl⟩

/-- Settles O4: the default parameters are legal and the zero draw fits them. -/
theorem resetMeetsInvariant : Obligations.ResetMeetsInvariant := by
  have hlegal : Config.default.Legal := by decide
  exact ⟨inv_resetOf hlegal (drawInRange_zero hlegal), fun _ _ => inv_resetOf⟩

/-- Settles O5: reset establishes the invariant anew, and a word's command keeps it. -/
theorem stepKeepsInvariant : Obligations.StepKeepsInvariant := by
  intro s t hi hstep
  unfold step at hstep
  split at hstep
  · next d hrst =>
    obtain ⟨hr, rfl⟩ := completes_next hstep
    obtain ⟨_, _, _, hdraw⟩ := hi.inRange.2.1
    exact inv_applyReset hr (hdraw d hrst)
  · split at hstep
    · cases hstep
      exact hi
    · next port cmd u hnext =>
      have hu : Inv u := hi.nextCommand hnext
      split at hstep
      · exact (exec_outcomes (fun _ => hu.ringOk) hstep).inv hu
      · obtain ⟨_, rfl⟩ := completes_next hstep
        exact (hu.raise _).respond ..

end Sys2Proof.Claims
end

section
/-! The buffered samples (10_state R23, R50), the profile registers (R42), and what the single-atom consumer commands that
write leave unchanged (R58). -/

namespace Sys2Proof.Machine

open Sys2Proof.Claims

/-! ### The buffered samples -/

/-- `rb_count` is the count of 10_state R23. -/
theorem RingOk.count_rbCount {s : State} (h : RingOk s) : Count s (rbCount s) :=
  Int.toNat_of_nonneg (Int.emod_nonneg _ (by have := h.two; omega))

theorem RingOk.rbCount_eq_zero_iff {s : State} (h : RingOk s) : rbCount s = 0 ↔ s.head = s.tail := by
  have := h.count_cases
  have := h.head
  omega

/-- A sample whose reserved bit is 0 is its duration (10_state R50). -/
theorem duration_eq_toNat {v : Sample} (h : v.getLsbD 15 = false) : (v.extractLsb' 0 15).toNat = v.toNat := by
  have hlt : v.toNat < 2 ^ 15 := BitVec.toNat_lt_of_msb_false (by simpa [BitVec.msb_eq_getLsbD_last] using h)
  simpa only [BitVec.extractLsb'_toNat, Nat.shiftRight_zero] using Nat.mod_eq_of_lt hlt

/-! ### The profile registers -/

/-- The profile registers and `cfg_valid` are in `t` as in `s`. -/
def ConfigKept (s t : State) : Prop := t.profile = s.profile ∧ t.profileId = s.profileId ∧ t.cfgValid = s.cfgValid

theorem ConfigKept.refl (s : State) : ConfigKept s s := ⟨rfl, rfl, rfl⟩

theorem Evolves.configKept {s t : State} (h : Evolves s t) : ConfigKept s t := ⟨h.profile, h.profileId, h.cfgValid⟩

theorem Ends.configKept {s t : State} (h : Ends s t) : ConfigKept s t := by
  cases h with
  | refused u _ _ hu => exact hu.configKept
  | answered u _ _ hu => exact hu.configKept

/-- No command but an accepted SELDEV moves the profile registers (10_state R42). -/
theorem Outcomes.configKept {i : Instr} {s t : State} (h : Outcomes s i t)
    (hno : ∀ pid p, i = .seldev pid → ¬ Accepted s pid p) : ConfigKept s t := by
  cases h with
  | selected pid p hl hp => exact absurd ⟨hl, profileValid_iff.mp hp⟩ (hno pid p rfl)
  | ended _ _ _ ht => exact ht.configKept
  | _ => exact ConfigKept.refl s

/-! ### What the single-atom consumer commands that write leave unchanged -/

theorem pop_frame {s t : State} (h : Outcomes s .pop t) : t = { s with head := t.head, responses := t.responses } := by
  cases h with
  | emptyPop | popped => rfl
  | read _ _ _ _ hi => cases hi
  | ended _ _ hi => cases hi

theorem adv_frame {s t : State} {k : BitVec 16} (h : Outcomes s (.adv k) t) :
    t = { s with head := t.head, responses := t.responses } := by
  cases h with
  | shortAdv | advanced => rfl
  | read _ _ _ _ hi => cases hi
  | ended _ _ hi => cases hi

theorem enable_frame {s t : State} {en : Bool} (h : Outcomes s (.enable en) t) :
    t = { s with enable := t.enable, lastEdge := t.lastEdge, responses := t.responses } := by
  cases h with
  | notConfigured | enabled | alreadyEnabled | disabled => rfl
  | read _ _ _ _ hi => cases hi
  | ended _ _ hi => cases hi

theorem take_frame {s t : State} {maxLen : BitVec 16} (h : Outcomes s (.take maxLen) t) :
    t = { s with avail := t.avail, responses := t.responses } := by
  cases h with
  | nothingToTake | taken => rfl
  | read _ _ _ _ hi => cases hi
  | ended _ _ hi => cases hi

/-- SELDEV, accepted or not, moves neither `tail` nor an input (46_config_diag R231). -/
theorem seldev_frame {s t : State} {pid : BitVec 16} (h : Outcomes s (.seldev pid) t) :
    t.tail = s.tail ∧ t.cfg = s.cfg ∧ t.tsNow = s.tsNow ∧ t.portP = s.portP ∧ t.portC = s.portC ∧ t.order = s.order ∧
      t.rst = s.rst := by
  cases h with
  | selected | notSelected => exact ⟨rfl, rfl, rfl, rfl, rfl, rfl, rfl⟩
  | read _ _ _ _ hi => cases hi
  | ended _ _ hi => cases hi

/-- Only an edge and the composite commands write a memory. -/
theorem Outcomes.cells_kept {i : Instr} {s t : State} (h : Outcomes s i t) (hi : composite i = false) (hedge : i ≠ .edge) :
    (∀ slot, memRead t.rb slot = memRead s.rb slot) ∧ ∀ b k, mbRead b k t = mbRead b k s := by
  cases h with
  | edgeOff | edgeDropped | edgeStored => exact absurd rfl hedge
  | ended _ _ hc => rw [hi] at hc; cases hc
  | _ => exact ⟨fun _ => rfl, fun _ _ => rfl⟩

/-- A command that is no composite one takes one of its own branches, in any state. -/
theorem outcomes_of_atom {i : Instr} {s t : State} (hi : composite i = false) (h : exec i s = .next t) : Outcomes s i t :=
  exec_outcomes (fun hc => by rw [hi] at hc; cases hc) h

end Sys2Proof.Machine

namespace Sys2Proof.Claims

open Sys2Proof.Machine

/-- Settles O18: `buffered` lists `rb_peek` over the count, and a buffered word's reserved bit is 0. -/
theorem bufferedSamples : Obligations.BufferedSamples := by
  intro s hi
  have hr := hi.ringOk
  rw [buffered_length]
  refine ⟨hr.count_rbCount, Nat.le_sub_one_of_lt hr.count_lt, ?_, fun i hlt => ?_⟩
  · rw [← List.length_eq_zero_iff, buffered_length, hr.rbCount_eq_zero_iff]
  · rw [buffered_getElem?, if_pos hlt]
    exact congrArg some (duration_eq_toNat (hi.samples i hlt))

/-- Settles O51: of the outcomes of `exec` only `selected` moves the profile registers, and it is an accepted SELDEV. -/
theorem profileImmutable : Obligations.ProfileImmutable :=
  ⟨fun _ _ _ hi hexec hno => (exec_outcomes (fun _ => hi.ringOk) hexec).configKept hno,
    fun _ hi hv => profileValid_iff.mp (hi.profileOk hv)⟩

/-- Settles O58: each of the five commands takes one of its own branches, even outside the invariant. -/
theorem frameConsumerAtoms : Obligations.FrameConsumerAtoms := by
  intro i s t h
  refine ⟨?_, ?_, ?_, ?_, fun hi => ?_⟩
  · rintro (rfl | ⟨k, rfl⟩)
    · exact pop_frame (outcomes_of_atom rfl h)
    · exact adv_frame (outcomes_of_atom rfl h)
  · rintro ⟨en, rfl⟩
    exact enable_frame (outcomes_of_atom rfl h)
  · rintro ⟨maxLen, rfl⟩
    exact take_frame (outcomes_of_atom rfl h)
  · rintro ⟨pid, rfl⟩
    exact seldev_frame (outcomes_of_atom rfl h)
  · obtain ⟨hatom, hedge⟩ : composite i = false ∧ i ≠ .edge := by
      obtain rfl | ⟨_, rfl⟩ | ⟨_, rfl⟩ | ⟨_, rfl⟩ | ⟨_, rfl⟩ := hi <;> exact ⟨rfl, nofun⟩
    exact (outcomes_of_atom hatom h).cells_kept hatom hedge

end Sys2Proof.Claims
end

section
/-! No command reads a ring slot outside the buffered ones (10_state R60). `Alike` relates two states that differ only in such
slots; every operation of the block, run on both, gives alike states and equal answers. -/

namespace Sys2Proof.Machine

/-- The two states differ only in ring slots that hold no buffered sample. -/
structure Alike (s s' : State) : Prop where
  frame : s' = { s with rb := s'.rb }
  ringOk : RingOk s
  ringOk' : RingOk s'
  same : buffered s' = buffered s

/-- `t` has the ring of `s`. -/
abbrev SameRing (s t : State) : Prop := t.head = s.head ∧ t.tail = s.tail ∧ t.cfg = s.cfg ∧ t.rb = s.rb

theorem RingOk.of_sameRing {s t : State} (h : RingOk s) (hst : SameRing s t) : RingOk t := by
  obtain ⟨hhead, htail, hcfg, hrb⟩ := hst
  exact ⟨hcfg ▸ h.two, by rw [hhead, hcfg]; exact h.head, by rw [htail, hcfg]; exact h.tail, hrb ▸ h.mem⟩

/-- Results alike: the same value, beside alike states. -/
inductive ResultsAlike {β : Type} : β × State → β × State → Prop where
  | intro (b : β) {s s' : State} (h : Alike s s') : ResultsAlike (b, s) (b, s')

theorem ResultsAlike.value_eq {β : Type} {r r' : β × State} (h : ResultsAlike r r') : r'.1 = r.1 := by
  cases h
  rfl

theorem ResultsAlike.alike {β : Type} {r r' : β × State} (h : ResultsAlike r r') : Alike r.2 r'.2 := by
  cases h
  assumption

/-- Turns alike: both go round again or both end, with the same value and alike states. -/
inductive TurnsAlike {α β : Type} : Turn α β → Turn α β → Prop where
  | again (a : α) {s s' : State} (h : Alike s s') : TurnsAlike (.again a s) (.again a s')
  | done (b : β) {s s' : State} (h : Alike s s') : TurnsAlike (.done b s) (.done b s')

/-- Two conditionals that ask the same are related as their branches are. -/
theorem rel_ite {γ : Type} {R : γ → γ → Prop} {p p' : Prop} [Decidable p] [Decidable p'] {a b a' b' : γ} (hp : p' ↔ p)
    (hpos : p → R a a') (hneg : ¬ p → R b b') : R (if p then a else b) (if p' then a' else b') := by
  by_cases h : p
  · rw [if_pos h, if_pos (hp.mpr h)]
    exact hpos h
  · rw [if_neg h, if_neg (mt hp.mp h)]
    exact hneg h

/-- A loop whose every turn respects `Alike` respects it. -/
theorem iterate_alike {α β : Type} {body : α → State → Option (Turn α β)}
    (turn : ∀ a {s s' : State}, Alike s s' → Option.Rel TurnsAlike (body a s) (body a s')) (fuel : Nat) :
    ∀ (a : α) {s s' : State}, Alike s s' → Option.Rel ResultsAlike (iterate body fuel a s) (iterate body fuel a s') := by
  induction fuel with
  | zero => exact fun _ _ _ _ => .none
  | succ fuel ih =>
    intro a s s' h
    have hturn := turn a h
    unfold iterate
    generalize body a s = r at hturn
    generalize body a s' = r' at hturn
    cases hturn with
    | none => exact .none
    | some ht =>
      cases ht with
      | again a h1 => exact ih a h1
      | done b h1 => exact .some (.intro b h1)

/-- Outcomes alike: a next state in the first is matched by an alike one in the second. -/
def OutcomesAlike (o o' : Host.Outcome State Fault Refusal) : Prop :=
  ∀ t, o = .next t → ∃ t', o' = .next t' ∧ Alike t t'

namespace Alike

variable {s s' : State}

/-! ### What alike states agree on -/

/-- They agree on everything that does not read the ring memory. -/
theorem agree {γ : Type} (h : Alike s s') (g : State → γ)
    (hg : ∀ u rb, g { u with rb := rb } = g u := by intros; rfl) : g s' = g s := by
  rw [h.frame]
  exact hg s s'.rb

theorem count (h : Alike s s') : rbCount s' = rbCount s := h.agree rbCount

theorem full (h : Alike s s') : ringFull s' = ringFull s := h.agree ringFull

theorem profile (h : Alike s s') : s'.profile = s.profile := h.agree State.profile

theorem threshold (h : Alike s s') : syncThreshold s' = syncThreshold s := h.agree syncThreshold

/-- They agree on the samples within the count. -/
theorem peek (h : Alike s s') {o : Nat} (ho : o < rbCount s) : rbPeek o s' = rbPeek o s := by
  have e := congrArg (·[o]?) h.same
  simpa only [buffered_getElem?, h.count, if_pos ho, Option.some.injEq] using e

/-! ### The updates -/

theorem frame_map (h : Alike s s') (f : State → State)
    (hf : ∀ u rb, f { u with rb := rb } = { f u with rb := (f { u with rb := rb }).rb }) :
    f s' = { f s with rb := (f s').rb } := by
  rw [h.frame]
  exact hf s s'.rb

/-- An update that neither reads the ring memory nor writes the ring keeps states alike. -/
theorem map (h : Alike s s') (f : State → State)
    (hf : ∀ u rb, f { u with rb := rb } = { f u with rb := rb } := by intros; rfl)
    (hring : ∀ u, SameRing u (f u) := by exact fun _ => ⟨rfl, rfl, rfl, rfl⟩) : Alike (f s) (f s') where
  frame := h.frame_map f fun u rb => by rw [hf]
  ringOk := h.ringOk.of_sameRing (hring s)
  ringOk' := h.ringOk'.of_sameRing (hring s')
  same := by
    obtain ⟨hhead, htail, hcfg, hrb⟩ := hring s
    obtain ⟨hhead', htail', hcfg', hrb'⟩ := hring s'
    rw [buffered_congr hhead htail hcfg hrb, buffered_congr hhead' htail' hcfg' hrb', h.same]

/-- The same response after the same answer. -/
theorem respond (h : Alike s s') (port : Port) (st : Status) {r0 r0' r1 r1' : Nat} {data data' : List Byte}
    (hr0 : r0' = r0) (hr1 : r1' = r1) (hdata : data' = data) :
    Alike (respond port st r0 r1 data s) (respond port st r0' r1' data' s') := by
  subst hr0 hr1 hdata
  exact h.map (Machine.respond port st r0' r1' data')

theorem answer (h : Alike s s') {r0 r0' r1 r1' : Nat} (hr0 : r0' = r0) (hr1 : r1' = r1) :
    Alike (respondC r0 r1 s) (respondC r0' r1' s') := h.respond .c .ok hr0 hr1 rfl

theorem refuse (h : Alike s s') (st : Status) : Alike (refuseC st s) (refuseC st s') := h.respond .c st rfl rfl rfl

theorem setState (h : Alike s s') (st : ProtocolState) : Alike { s with state := st } { s' with state := st } :=
  h.map fun u => { u with state := st }

theorem rbAdv (h : Alike s s') {k : Nat} (hk : k ≤ rbCount s) : Alike (rbAdv k s) (rbAdv k s') where
  frame := h.frame_map (Machine.rbAdv k) fun _ _ => rfl
  ringOk := h.ringOk.retire k
  ringOk' := h.ringOk'.retire k
  same := by rw [h.ringOk.buffered_rbAdv hk, h.ringOk'.buffered_rbAdv (h.count ▸ hk), h.same]

theorem storeEdge (h : Alike s s') (hf : ringFull s = false) (now : Nat) : Alike (storeEdge now s) (storeEdge now s') where
  frame := h.frame_map (Machine.storeEdge now) fun _ _ => rfl
  ringOk := h.ringOk.accept now
  ringOk' := h.ringOk'.accept now
  same := by
    rw [h.ringOk.buffered_storeEdge hf, h.ringOk'.buffered_storeEdge (h.full.trans hf), h.same, h.agree (edgeDuration now)]

/-- An accepted SELDEV empties both rings. -/
theorem initRadio (h : Alike s s') (p : Profile) (pid : BitVec 16) (now : Nat) :
    Alike (initRadio p pid now s) (initRadio p pid now s') where
  frame := h.frame_map (Machine.initRadio p pid now) fun _ _ => rfl
  ringOk := ⟨h.ringOk.two, h.ringOk.tail, h.ringOk.tail, h.ringOk.mem⟩
  ringOk' := ⟨h.ringOk'.two, h.ringOk'.tail, h.ringOk'.tail, h.ringOk'.mem⟩
  same := by rw [buffered_nil (rbCount_of_head_eq_tail rfl), buffered_nil (rbCount_of_head_eq_tail rfl)]

theorem storeBit (h : Alike s s') (b : Nat) : Alike (storeBit b s) (storeBit b s') :=
  h.map (Machine.storeBit b)
    (fun u _ => by
      unfold Machine.storeBit mbWrite mbRead msgBuf
      cases u.pend <;> rfl)
    (fun u => by simp [SameRing, Machine.storeBit])

theorem noteAttempt (h : Alike s s') : Alike (noteAttempt s) (noteAttempt s') :=
  rel_ite (by rw [h.agree State.oversize])
    (fun _ => h.map fun u => raise (.oversized (byteCount (countAttempt u))) (countError (countAttempt u)))
    (fun _ => h.map countAttempt)

theorem judgeMessage (h : Alike s s') : Alike (judgeMessage s) (judgeMessage s') := by
  refine rel_ite (by rw [h.agree isMalformed]) (fun _ => ?malformed) fun _ => ?_
  case malformed => exact h.map fun u => raise (.malformed u.bitIndex.toNat) (countError u)
  refine rel_ite (by rw [h.agree byteCount, h.profile]) (fun _ => ?undersized) fun _ => ?_
  case undersized => exact h.map fun u => raise (.undersized (byteCount u)) (countError u)
  refine rel_ite (by rw [h.agree State.avail]) (fun _ => ?overrun) fun _ => ?published
  case overrun => exact h.map fun u => raise (.overrun (byteCount u)) (countOverrun u)
  case published =>
    exact h.map fun u => raise (.published (byteCount u))
      { u with readyLen := BitVec.ofNat 8 (byteCount u), pend := !u.pend, avail := true }

/-- The verdict on a message reads no sample (44_state_machine R196). -/
theorem hPostData (h : Alike s s') : Alike (hPostData s) (hPostData s') := h.noteAttempt.judgeMessage.setState .syncSeek

/-! ### The edges at a boundary -/

theorem edgeAtom (h : Alike s s') (now : Nat) : Alike (edgeAtom now s) (edgeAtom now s') := by
  refine rel_ite (by rw [h.agree State.enable]) (fun _ => h.respond .p .ok rfl rfl rfl) fun _ => ?_
  refine rel_ite (by rw [h.full]) (fun _ => ?dropped) fun hf => ?stored
  case dropped =>
    exact h.map fun u =>
      Machine.respond .p .ok 0 0 [] (raise (.captureOverflow (edgeDuration now u)) { u with ovf := true })
  case stored => exact (h.storeEdge (by simpa using hf) now).respond .p .ok rfl rfl rfl

theorem producerAtom (h : Alike s s') (cmd : Command) : Alike (producerAtom cmd s) (producerAtom cmd s') := by
  have hts : Alike { s with tsNow := cmd.ts } { s' with tsNow := cmd.ts } := h.map fun u => { u with tsNow := cmd.ts }
  unfold Machine.producerAtom
  split
  · exact hts.edgeAtom cmd.ts
  · exact hts.map (illegalCommand .p cmd.word)

theorem producerTurns (turns : List Port) :
    ∀ {s s' : State}, Alike s s' → Alike (producerTurns turns s) (producerTurns turns s') := by
  induction turns with
  | nil => exact fun h => h.map fun u => { u with order := [] }
  | cons port rest ih =>
    intro s s' h
    cases port with
    | c => exact h.map fun u => { u with order := rest }
    | p =>
      unfold Machine.producerTurns
      rw [h.agree State.portP]
      cases s.portP with
      | nil => exact ih h
      | cons cmd cmds => exact ih ((h.map fun u => { u with portP := cmds }).producerAtom cmd)

theorem boundary (h : Alike s s') : Alike (boundary s) (boundary s') := by
  unfold Machine.boundary
  rw [h.agree State.order]
  exact producerTurns s.order h

/-! ### The Sync Detector and the Bit Decoder -/

theorem syncTurn (h : Alike s s') (n : Nat) : Option.Rel TurnsAlike (syncTurn n s) (syncTurn n s') := by
  have h1 := h.boundary
  have h2 := h1.boundary
  refine rel_ite (by rw [h1.count]) (fun _ => .some (.done n h1)) fun hc => ?_
  have hpos := Nat.lt_of_lt_of_le (Nat.pos_of_ne_zero hc) (count_boundary h1.ringOk)
  refine rel_ite (by rw [h2.peek hpos, h2.profile]) (fun _ => .some (.done n h2)) fun _ => ?_
  have h3 := h2.map (widenExtremes (rbPeek 0 (Machine.boundary (Machine.boundary s))))
  rw [h2.peek hpos]
  exact .some (.again (n + 1) (h3.boundary.rbAdv (Nat.le_trans hpos (count_boundary h3.ringOk))))

theorem tryConsumeSyncTrain (h : Alike s s') :
    Option.Rel ResultsAlike (tryConsumeSyncTrain s) (tryConsumeSyncTrain s') := by
  unfold Machine.tryConsumeSyncTrain
  rw [h.agree ringFuel]
  exact iterate_alike (fun n _ _ h => h.syncTurn n) _ 0 (h.map fun u => { u with syncMin := 32767, syncMax := 0 })

theorem tryDecodeBit (h : Alike s s') (hc : 2 ≤ rbCount s) : ResultsAlike (tryDecodeBit s) (tryDecodeBit s') := by
  have h1 := h.boundary
  have h2 := h1.boundary
  have hc1 := Nat.le_trans hc (count_boundary h.ringOk)
  have hc2 := Nat.le_trans hc1 (count_boundary h1.ringOk)
  have hc3 := Nat.le_trans hc2 (count_boundary h2.ringOk)
  unfold Machine.tryDecodeBit
  simp only [h1.peek (Nat.lt_of_lt_of_le Nat.zero_lt_two hc1), h2.peek (Nat.lt_of_lt_of_le Nat.one_lt_two hc2), h2.profile]
  split
  · exact .intro _ (h2.boundary.rbAdv hc3)
  · exact .intro _ h2

/-! ### The handlers -/

theorem seekTurn (h : Alike s s') (a : Unit) : Option.Rel TurnsAlike (seekTurn a s) (seekTurn a s') := by
  have h1 := h.boundary
  have h2 := h1.boundary
  refine rel_ite (by rw [h1.count]) (fun _ => .some (.done _ h1)) fun hc => ?_
  have hpos := Nat.lt_of_lt_of_le (Nat.pos_of_ne_zero hc) (count_boundary h1.ringOk)
  exact rel_ite (by rw [h2.peek hpos, h2.profile]) (fun _ => .some (.done _ (h2.setState _)))
    fun _ => .some (.again () (h2.boundary.rbAdv (Nat.le_trans hpos (count_boundary h2.ringOk))))

theorem hSyncSeek (h : Alike s s') : Option.Rel ResultsAlike (hSyncSeek s) (hSyncSeek s') := by
  unfold Machine.hSyncSeek
  rw [h.agree ringFuel]
  exact iterate_alike (fun a _ _ h => h.seekTurn a) _ () h

theorem hSyncPulseTrain (h : Alike s s') : Option.Rel ResultsAlike (hSyncPulseTrain s) (hSyncPulseTrain s') := by
  have h1 := h.boundary
  have htrain := h1.tryConsumeSyncTrain
  refine rel_ite (by rw [h1.count, h1.threshold]) (fun _ => .some (.intro _ h1)) fun _ => ?_
  generalize Machine.tryConsumeSyncTrain (Machine.boundary s) = r at htrain
  generalize Machine.tryConsumeSyncTrain (Machine.boundary s') = r' at htrain
  obtain ⟨⟨n, ht⟩⟩ | _ := htrain
  · exact rel_ite (by rw [ht.agree (syncSucceeds n)])
      (fun _ => .some (.intro _ (ht.map fun u => { u with bitIndex := 0, oversize := false, state := .accumulateWait })))
      fun _ => .some (.intro _ (ht.setState _))
  · exact .none

theorem hAccumulateWait (h : Alike s s') : Option.Rel ResultsAlike (hAccumulateWait s) (hAccumulateWait s') :=
  rel_ite (by rw [h.boundary.count, h.boundary.profile]) (fun _ => .some (.intro _ h.boundary))
    fun _ => .some (.intro _ (h.boundary.setState _))

theorem dataTurn (h : Alike s s') (a : Unit) : Option.Rel TurnsAlike (dataTurn a s) (dataTurn a s') := by
  have h1 := h.boundary
  refine rel_ite (by rw [h1.count]) (fun _ => .some (.done _ h1)) fun hc => ?_
  have hres := h1.tryDecodeBit (Nat.le_of_not_lt hc)
  have h2 := hres.alike
  refine rel_ite (by rw [hres.value_eq]) (fun _ => ?_) fun _ => .some (.done _ (h2.setState _))
  refine rel_ite (by rw [h2.agree wouldExceed])
    (fun _ => .some (.done _ (h2.map fun u => { u with oversize := true, state := .postData }))) fun _ => ?_
  rw [hres.value_eq]
  exact .some (.again () (h2.storeBit _))

theorem hAccumulateData (h : Alike s s') : Option.Rel ResultsAlike (hAccumulateData s) (hAccumulateData s') := by
  unfold Machine.hAccumulateData
  rw [h.agree ringFuel]
  exact iterate_alike (fun a _ _ h => h.dataTurn a) _ () h

theorem fsmStep (h : Alike s s') : Option.Rel ResultsAlike (fsmStep s) (fsmStep s') := by
  refine rel_ite (by rw [h.agree State.enable]) (fun _ => .some (.intro _ (h.setState _))) fun _ => ?_
  rw [h.agree State.state]
  cases s.state with
  | syncSeek => exact h.hSyncSeek
  | syncPulseTrain => exact h.hSyncPulseTrain
  | accumulateWait => exact h.hAccumulateWait
  | accumulateData => exact h.hAccumulateData
  | postData => exact .some (.intro _ h.hPostData)

theorem serviceTurn (h : Alike s s') (n : Nat) : Option.Rel TurnsAlike (serviceTurn n s) (serviceTurn n s') := by
  have hstep := h.fsmStep
  unfold Machine.serviceTurn
  generalize Machine.fsmStep s = r at hstep
  generalize Machine.fsmStep s' = r' at hstep
  obtain ⟨⟨p, ht⟩⟩ | _ := hstep
  · cases p with
    | progress => exact .some (.again _ ht)
    | blocked => exact .some (.done _ ht)
  · exact .none

/-! ### The commands -/

theorem synctrain (h : Alike s s') : Option.Rel Alike (synctrain s) (synctrain s') := by
  have h1 := h.boundary
  have htrain := h1.tryConsumeSyncTrain
  refine rel_ite (by rw [h.agree State.cfgValid]) (fun _ => .some (h.refuse _)) fun _ => ?_
  refine rel_ite (by rw [h1.count, h1.threshold]) (fun _ => .some (h1.refuse _)) fun _ => ?_
  generalize Machine.tryConsumeSyncTrain (Machine.boundary s) = r at htrain
  generalize Machine.tryConsumeSyncTrain (Machine.boundary s') = r' at htrain
  obtain ⟨⟨n, ht⟩⟩ | _ := htrain
  · exact .some (ht.answer (ht.agree fun u => bitVal (syncSucceeds n u)) rfl)
  · exact .none

theorem decbit (h : Alike s s') : Alike (decbit s) (decbit s') := by
  have h1 := h.boundary
  refine rel_ite (by rw [h.agree State.cfgValid]) (fun _ => h.refuse _) fun _ => ?_
  refine rel_ite (by rw [h1.count]) (fun _ => h1.refuse _) fun hc => ?_
  have hres := h1.tryDecodeBit (Nat.le_of_not_lt hc)
  exact hres.alike.answer (congrArg bitCode hres.value_eq) rfl

theorem stepOnce (h : Alike s s') : Option.Rel Alike (stepOnce s) (stepOnce s') := by
  have hstep := h.fsmStep
  unfold Machine.stepOnce
  generalize Machine.fsmStep s = r at hstep
  generalize Machine.fsmStep s' = r' at hstep
  obtain ⟨⟨p, ht⟩⟩ | _ := hstep
  · exact .some (ht.answer rfl (ht.agree fun u => stateCode u.state))
  · exact .none

theorem service (h : Alike s s') : Option.Rel Alike (service s) (service s') := by
  have hloop : Option.Rel ResultsAlike (iterate Machine.serviceTurn (serviceFuel s) 0 s)
      (iterate Machine.serviceTurn (serviceFuel s) 0 s') := iterate_alike (fun n _ _ h => h.serviceTurn n) _ 0 h
  unfold Machine.service
  rw [h.agree serviceFuel]
  generalize iterate Machine.serviceTurn (serviceFuel s) 0 s = r at hloop
  generalize iterate Machine.serviceTurn (serviceFuel s) 0 s' = r' at hloop
  obtain ⟨⟨n, ht⟩⟩ | _ := hloop
  · exact .some (ht.answer (ht.agree fun u => stateCode u.state) rfl)
  · exact .none

/-- A command that always ends, run on both. -/
theorem completes {f : State → State} (hin : InRange s') (hf : Alike (f s) (f s')) :
    OutcomesAlike (completes s f) (completes s' f) := by
  intro t he
  obtain ⟨_, rfl⟩ := completes_next he
  exact ⟨_, completes_eq hin f, hf⟩

/-- A composite command, run on both. -/
theorem returns {f : State → Option State} (hin : InRange s') (hf : Option.Rel Alike (f s) (f s')) :
    OutcomesAlike (returns s f) (returns s' f) := by
  intro t he
  obtain ⟨_, e⟩ := returns_next he
  rw [e] at hf
  generalize e' : f s' = r' at hf
  cases hf with
  | some ht => exact ⟨_, returns_eq hin e', ht⟩

/-- No command reads a slot outside the buffered ones. -/
theorem exec (h : Alike s s') (hin : InRange s') (i : Instr) : OutcomesAlike (exec i s) (exec i s') := by
  cases i with
  | edge =>
    simp only [Machine.exec, execEdge]
    refine completes hin ?_
    exact h.agree State.tsNow ▸ h.edgeAtom s.tsNow
  | count =>
    simp only [Machine.exec, execCount]
    refine completes hin ?_
    exact h.answer h.count rfl
  | isfull =>
    simp only [Machine.exec, execIsfull]
    refine completes hin ?_
    exact h.answer (congrArg bitVal h.full) rfl
  | isempty =>
    simp only [Machine.exec, execIsempty]
    refine completes hin ?_
    exact h.answer (h.agree fun u => bitVal (ringEmpty u)) rfl
  | pop =>
    simp only [Machine.exec, execPop]
    refine completes hin ?_
    refine rel_ite (by rw [h.count]) (fun _ => h.refuse _) fun hc => ?_
    have hpos := Nat.pos_of_ne_zero hc
    exact (h.rbAdv hpos).answer (h.peek hpos) rfl
  | peek offset =>
    simp only [Machine.exec, execPeek]
    refine completes hin ?_
    exact rel_ite (by rw [h.count]) (fun _ => h.refuse _)
      fun hc => h.answer (h.peek (Nat.lt_of_not_le hc)) rfl
  | adv k =>
    simp only [Machine.exec, execAdv]
    refine completes hin ?_
    exact rel_ite (by rw [h.count]) (fun _ => h.refuse _)
      fun hc => (h.rbAdv (Nat.le_of_not_lt hc)).answer rfl rfl
  | enable en =>
    simp only [Machine.exec, execEnable]
    refine completes hin ?_
    refine rel_ite (by rw [h.agree State.cfgValid]) (fun _ => h.refuse _) fun _ => ?_
    refine rel_ite (by rw [h.agree State.enable])
      (fun _ => (h.map fun u => { u with lastEdge := u.tsNow, enable := true }).answer rfl rfl) fun _ => ?_
    exact rel_ite Iff.rfl (fun _ => h.answer rfl rfl) fun _ => (h.map fun u => { u with enable := false }).answer rfl rfl
  | seldev pid =>
    simp only [Machine.exec, execSeldev]
    refine completes hin ?_
    have hrefuse : Alike (refuseConfig pid s) (refuseConfig pid s') := h.map (refuseConfig pid)
    simp only [h.agree State.cfg, h.agree State.tsNow]
    split
    · exact hrefuse
    · next p _ => exact rel_ite Iff.rfl (fun _ => (h.initRadio p pid s.tsNow).answer rfl rfl) fun _ => hrefuse
  | classify imm =>
    simp only [Machine.exec, execClassify]
    refine completes hin ?_
    exact rel_ite (by rw [h.agree State.cfgValid]) (fun _ => h.refuse _)
      fun _ => h.answer (h.agree fun u => pulseCode (classify u.profile (operandD imm))) rfl
  | synctrain =>
    simp only [Machine.exec, execSynctrain]
    exact returns hin h.synctrain
  | decbit =>
    simp only [Machine.exec, execDecbit]
    exact completes hin h.decbit
  | step =>
    simp only [Machine.exec, execStep]
    exact returns hin h.stepOnce
  | service =>
    simp only [Machine.exec, execService]
    exact returns hin h.service
  | take maxLen =>
    simp only [Machine.exec, execTake]
    refine completes hin ?_
    refine rel_ite (by rw [h.agree State.avail]) (fun _ => h.answer rfl rfl) fun _ => ?_
    exact (h.map fun u => { u with avail := false }).respond .c .ok
      (h.agree fun u => min u.readyLen.toNat (operandI maxLen)) (h.agree fun u => u.readyLen.toNat)
      (h.agree fun u => readyBytes (min u.readyLen.toNat (operandI maxLen)) u)
  | stats =>
    simp only [Machine.exec, execStats]
    refine completes hin ?_
    exact h.answer (h.agree State.attempts) (h.agree State.errors)
  | status =>
    simp only [Machine.exec, execStatus]
    refine completes hin ?_
    exact h.answer (h.agree fun u => (statusR0 u).toNat) (h.agree fun u => (statusR1 u).toNat)
  | syncx =>
    simp only [Machine.exec, execSyncx]
    refine completes hin ?_
    exact h.answer (h.agree fun u => u.syncMin.toNat) (h.agree fun u => u.syncMax.toNat)
  | ovrcnt =>
    simp only [Machine.exec, execOvrcnt]
    refine completes hin ?_
    exact h.answer (h.agree State.overruns) rfl
  | rdprof idx =>
    simp only [Machine.exec, execRdprof]
    refine completes hin ?_
    have e : profileField s' (operandI idx) = profileField s (operandI idx) :=
      h.agree fun u => profileField u (operandI idx)
    simp only [e]
    split
    · exact h.refuse _
    · exact h.answer rfl rfl

end Alike

end Sys2Proof.Machine

namespace Sys2Proof.Claims

open Sys2Proof.Machine

/-- Settles O56: the two states are alike, and so are the states after. -/
theorem otherSlotsUnread : Obligations.OtherSlotsUnread := by
  intro i s s' t hi hi' hframe hsame hexec
  have halike : Alike s s' := ⟨hframe, hi.ringOk, hi'.ringOk, hsame⟩
  obtain ⟨t', hexec', ht⟩ := halike.exec hi'.inRange i t hexec
  exact ⟨t', hexec', ht.frame, ht.same⟩

end Sys2Proof.Claims
end

section
/-! What SYNCTRAIN, DECBIT, STEP and SERVICE leave unchanged (10_state R58): `Evolves` with no edge waiting, and which message
bytes one handler may write (44_state_machine R194). -/

namespace Sys2Proof.Machine

variable {s t u : State}

/-! ### With no edge waiting -/

/-- With no edge waiting `Evolves` leaves the producer's side and the configuration. -/
theorem Evolves.quiet_frame (h : Evolves s t) (hq : s.portP = []) :
    t = { s with head := t.head, bitIndex := t.bitIndex, readyLen := t.readyLen, state := t.state, avail := t.avail,
                 pend := t.pend, oversize := t.oversize, attempts := t.attempts, errors := t.errors,
                 overruns := t.overruns, syncMin := t.syncMin, syncMax := t.syncMax, mb0 := t.mb0, mb1 := t.mb1,
                 order := t.order, events := t.events } := by
  obtain ⟨hportP, htail, hrb, hedge, hovf, hresp, hts⟩ := h.quiet hq
  have hcfg := h.cfg
  have hprofile := h.profile
  have hid := h.profileId
  have hvalid := h.cfgValid
  have hen := h.enable
  have hportC := h.portC
  have hrst := h.rst
  rw [← hq] at hportP
  cases s
  cases t
  simp only at hportP htail hrb hedge hovf hresp hts hcfg hprofile hid hvalid hen hportC hrst
  subst hportP htail hrb hedge hovf hresp hts hcfg hprofile hid hvalid hen hportC hrst
  rfl

/-- A composite command ends with one response after what its atoms and the edges did. -/
theorem Ends.evolves (h : Ends s t) : ∃ u st r0 r1, Evolves s u ∧ t = respond .c st r0 r1 [] u := by
  cases h with
  | refused u st _ hu => exact ⟨u, st, 0, 0, hu.toEvolves, rfl⟩
  | answered u r0 r1 hu => exact ⟨u, .ok, r0, r1, hu, rfl⟩

theorem Outcomes.evolves {i : Instr} (h : Outcomes s i t) (hi : composite i = true) :
    ∃ u st r0 r1, Evolves s u ∧ t = respond .c st r0 r1 [] u := by
  cases h with
  | ended _ _ _ ht => exact ht.evolves
  | read => exact ⟨s, _, _, _, .refl s, rfl⟩
  | _ => cases hi

/-! ### DECBIT and SYNCTRAIN write no message byte -/

theorem RingOnly.buffers_eq (h : RingOnly s t) : t.mb0 = s.mb0 ∧ t.mb1 = s.mb1 := by
  obtain ⟨_, _, _, _, _, _, _, _, _, _, e⟩ := h.frame
  rw [e]
  exact ⟨rfl, rfl⟩

theorem tryDecodeBit_ringOnly (hr : RingOk s) (hc : 2 ≤ rbCount s) : RingOnly s (tryDecodeBit s).2 := by
  obtain ⟨u, hu, e⟩ := tryDecodeBit_spec hr hc
  simp only [e]
  split
  · exact (RingOnly.edges hu).trans (.rbAdv 2 u)
  · exact .edges hu

/-- DECBIT is one response after ring operations. -/
theorem decbit_ringOnly (hr : RingOk s) : ∃ u st r0, RingOnly s u ∧ decbit s = respond .c st r0 0 [] u := by
  unfold decbit
  split
  · exact ⟨s, .nocfg, 0, .refl s, rfl⟩
  · simp only []
    split
    · exact ⟨_, .precond, 0, .boundary s, rfl⟩
    · next hc =>
      have hbit := tryDecodeBit_ringOnly (ringOk_boundary hr) (Nat.le_of_not_lt hc)
      exact ⟨_, .ok, _, (RingOnly.boundary s).trans hbit, rfl⟩

/-- With no edge waiting DECBIT moves `head` alone. -/
theorem decbit_frame (hr : RingOk s) (hq : s.portP = []) :
    decbit s = { s with head := (decbit s).head, order := (decbit s).order, responses := (decbit s).responses } := by
  obtain ⟨u, _, _, hu, e⟩ := decbit_ringOnly hr
  obtain ⟨_, _, rfl⟩ := hu.still hq
  rw [e]
  rfl

/-- The Sync Detector's own registers are the extremes (42_sync_detector R160). -/
theorem tryConsumeSyncTrain_ringOnly (hr : RingOk s) :
    ∃ n u mn mx, tryConsumeSyncTrain s = some (n, u) ∧ RingOnly { s with syncMin := mn, syncMax := mx } u := by
  obtain ⟨n, u, e, hsync, _⟩ := tryConsumeSyncTrain_samples hr
  obtain ⟨mn, mx, hframe⟩ := hsync.frame
  exact ⟨n, u, mn, mx, e, hframe⟩

theorem RingOnly.withExtremes (h : RingOnly s t) (mn mx : BitVec 15) :
    RingOnly { s with syncMin := mn, syncMax := mx } { t with syncMin := mn, syncMax := mx } :=
  h.of_frame (fun v => { v with syncMin := mn, syncMax := mx }) (fun _ _ _ _ _ _ _ _ _ _ => rfl) rfl rfl rfl
    (fun _ _ => rfl)

/-- SYNCTRAIN is one response after ring operations and new extremes. -/
theorem synctrain_ringOnly (hr : RingOk s) (h : synctrain s = some t) :
    ∃ u mn mx st r0 r1, RingOnly { s with syncMin := mn, syncMax := mx } u ∧ t = respond .c st r0 r1 [] u := by
  unfold synctrain at h
  split at h
  · cases h
    exact ⟨s, s.syncMin, s.syncMax, .nocfg, 0, 0, .refl s, rfl⟩
  · simp only [] at h
    split at h
    · cases h
      exact ⟨_, s.syncMin, s.syncMax, .precond, 0, 0, .boundary s, rfl⟩
    · obtain ⟨n, u, mn, mx, e, hu⟩ := tryConsumeSyncTrain_ringOnly (ringOk_boundary hr)
      rw [e] at h
      cases h
      exact ⟨u, mn, mx, .ok, _, _, ((RingOnly.boundary s).withExtremes mn mx).trans hu, rfl⟩

/-- With no edge waiting SYNCTRAIN moves `head` and the extremes. -/
theorem synctrain_frame (hr : RingOk s) (hq : s.portP = []) (h : synctrain s = some t) :
    t = { s with head := t.head, syncMin := t.syncMin, syncMax := t.syncMax, order := t.order,
                 responses := t.responses } := by
  obtain ⟨u, _, _, _, _, _, hu, rfl⟩ := synctrain_ringOnly hr h
  obtain ⟨_, _, rfl⟩ := hu.still hq
  rfl

/-! ### The message bytes one handler may write -/

/-- The other buffer and the bytes already complete in the pending one read as before. -/
def PackedKept (s t : State) : Prop :=
  (∀ k, mbRead (!s.pend) k t = mbRead (!s.pend) k s) ∧
  ∀ k, k < s.bitIndex.toNat / 8 → mbRead s.pend k t = mbRead s.pend k s

theorem PackedKept.of_buffers (h : t.mb0 = s.mb0 ∧ t.mb1 = s.mb1) : PackedKept s t := by
  obtain ⟨hmb0, hmb1⟩ := h
  have hread (b : Bool) (k : Nat) : mbRead b k t = mbRead b k s := by simp only [mbRead, msgBuf, hmb0, hmb1]
  exact ⟨hread _, fun k _ => hread _ k⟩

/-- A byte is its eight message bits (20_memory R72). -/
theorem mbRead_eq_of_messageBit {b : Bool} {k : Nat} (h : ∀ j, j / 8 = k → messageBit b j t = messageBit b j s) :
    mbRead b k t = mbRead b k s := by
  apply BitVec.eq_of_getLsbD_eq
  intro i hi
  have hbit := h (8 * k + (7 - i)) (by omega)
  have hbyte : (8 * k + (7 - i)) / 8 = k := by omega
  have hpos : 7 - (8 * k + (7 - i)) % 8 = i := by omega
  simpa only [messageBit, hbyte, hpos] using hbit

theorem Collecting.packedKept {bits : List Bool} (h : Collecting s bits t) : PackedKept s t :=
  ⟨fun _ => by simp only [mbRead, h.other], fun _ hk => mbRead_eq_of_messageBit fun _ hj => h.kept _ (.inl (by omega))⟩

/-- How the collection ends writes no message byte. -/
theorem Collected.buffers_eq {p : Progress} (h : Collected s u p t) : t.mb0 = u.mb0 ∧ t.mb1 = u.mb1 := by
  cases h with
  | waits _ => exact ⟨rfl, rfl⟩
  | full _ _ _ v _ _ _ _ hv => exact hv.buffers_eq
  | ends => exact ⟨rfl, rfl⟩

theorem PackedKept.then_buffers (h : PackedKept s t) (hu : u.mb0 = t.mb0 ∧ u.mb1 = t.mb1) : PackedKept s u := by
  obtain ⟨hmb0, hmb1⟩ := hu
  simpa only [PackedKept, mbRead, msgBuf, hmb0, hmb1] using h

theorem hSyncPulseTrain_buffers_eq {p : Progress} (hr : RingOk s) (h : hSyncPulseTrain s = some (p, t)) :
    t.mb0 = s.mb0 ∧ t.mb1 = s.mb1 := by
  unfold hSyncPulseTrain at h
  simp only [] at h
  split at h
  · cases h
    exact (RingOnly.boundary s).buffers_eq
  · obtain ⟨n, u, mn, mx, e, hu⟩ := tryConsumeSyncTrain_ringOnly (ringOk_boundary hr)
    have hbuf := (((RingOnly.boundary s).withExtremes mn mx).trans hu).buffers_eq
    rw [e] at h
    simp only [] at h
    split at h <;> cases h <;> exact hbuf

theorem hAccumulateWait_buffers_eq {p : Progress} (h : hAccumulateWait s = some (p, t)) :
    t.mb0 = s.mb0 ∧ t.mb1 = s.mb1 := by
  have hbuf := (RingOnly.boundary s).buffers_eq
  unfold hAccumulateWait at h
  simp only [] at h
  split at h <;> cases h <;> exact hbuf

theorem hSyncSeek_buffers_eq {p : Progress} (hr : RingOk s) (h : hSyncSeek s = some (p, t)) :
    t.mb0 = s.mb0 ∧ t.mb1 = s.mb1 := by
  obtain ⟨_, _, u, e, hseek, hend⟩ := hSyncSeek_samples hr
  rw [e] at h
  cases h
  obtain ⟨_, rfl, _⟩ | ⟨_, rfl, _⟩ := hend <;> exact hseek.frame.buffers_eq

theorem hPostData_buffers_eq (s : State) : (hPostData s).mb0 = s.mb0 ∧ (hPostData s).mb1 = s.mb1 := by
  obtain ⟨_, e⟩ := hPostData_eq s
  rw [e]
  exact ⟨rfl, rfl⟩

/-- Only AccumulateData writes message bytes, from the byte of `bit_index` on. -/
theorem fsmStep_packedKept {p : Progress} (hi : Inv s) (h : fsmStep s = some (p, t)) : PackedKept s t := by
  have hr := hi.ringOk
  unfold fsmStep at h
  split at h
  · cases h
    exact .of_buffers ⟨rfl, rfl⟩
  · split at h
    · exact .of_buffers (hSyncSeek_buffers_eq hr h)
    · exact .of_buffers (hSyncPulseTrain_buffers_eq hr h)
    · exact .of_buffers (hAccumulateWait_buffers_eq h)
    · obtain ⟨_, _, _, u, e, hcollecting, hcollected⟩ := hAccumulateData_bits hr (hi.mbMem s.pend).1
      rw [e] at h
      cases h
      exact hcollecting.packedKept.then_buffers hcollected.buffers_eq
    · cases h
      exact .of_buffers (hPostData_buffers_eq s)

theorem stepOnce_packedKept (hi : Inv s) (h : stepOnce s = some t) : PackedKept s t := by
  unfold stepOnce at h
  split at h
  · cases h
  · next p u e =>
    cases h
    exact (fsmStep_packedKept hi e).then_buffers ⟨rfl, rfl⟩

end Sys2Proof.Machine

namespace Sys2Proof.Claims

open Sys2Proof.Machine

/-- Settles O60: DECBIT and SYNCTRAIN by their frames; STEP and SERVICE by what `Evolves` keeps when no edge waits, and the
bytes STEP may write by the bits its handler collected. -/
theorem frameComposite : Obligations.FrameComposite := by
  intro i s t hi hq hexec
  have hr := hi.ringOk
  have hevolves (hc : composite i = true) : ∃ u st r0 r1, Evolves s u ∧ t = respond .c st r0 r1 [] u :=
    (exec_outcomes (fun _ => hr) hexec).evolves hc
  refine ⟨?_, ?_, ?_, fun hc => ?_, ?_, ?_, ?_⟩
  · rintro rfl
    obtain ⟨_, rfl⟩ := completes_next hexec
    exact decbit_frame hr hq
  · rintro rfl
    obtain ⟨_, e⟩ := returns_next hexec
    exact synctrain_frame hr hq e
  · intro h
    obtain ⟨u, st, r0, r1, hu, rfl⟩ := hevolves (by obtain rfl | rfl := h <;> rfl)
    exact congrArg (fun v => { v with responses := (respond .c st r0 r1 [] u).responses }) (hu.quiet_frame hq)
  · obtain ⟨u, _, _, _, hu, rfl⟩ := hevolves hc
    obtain ⟨_, _, hrb, _⟩ := hu.quiet hq
    exact fun slot => congrArg (memRead · slot) hrb
  · rintro (rfl | rfl)
    · obtain ⟨_, rfl⟩ := completes_next hexec
      rw [decbit_frame hr hq]
      exact fun _ _ => rfl
    · obtain ⟨_, e⟩ := returns_next hexec
      rw [synctrain_frame hr hq e]
      exact fun _ _ => rfl
  · rintro rfl
    obtain ⟨_, e⟩ := returns_next hexec
    obtain ⟨hother, hbelow⟩ := stepOnce_packedKept hi e
    obtain ⟨u, _, _, _, hu, rfl⟩ := hevolves rfl
    exact ⟨hother, fun k hk => hk.elim (hbelow k) (hu.above hi _ k)⟩
  · rintro rfl
    obtain ⟨u, _, _, _, hu, rfl⟩ := hevolves rfl
    exact hu.above hi

end Sys2Proof.Claims
end

section
/-! The next waiting word (20_memory R84), and the boundary between two atoms of a composite command (R81, R86). -/

namespace Sys2Proof.Machine

variable {s t : State} {cmd : Command} {rest : List Command} {od : List Port}

/-! ### The word that a step runs -/

/-- A word waiting on port P goes next on its turn, and when port C has none. -/
theorem nextCommand_of_portP (hp : s.portP = cmd :: rest) (hturn : s.order.headD .c = .p ∨ s.portC = []) :
    nextCommand s = some (.p, cmd, { s with portP := rest, tsNow := cmd.ts, order := s.order.tail }) := by
  unfold nextCommand
  rw [hp]
  obtain hturn | hc := hturn
  · rw [hturn]
  · rw [hc]
    cases s.order.headD .c <;> rfl

/-- A word waiting on port C goes next on its turn, and when port P has none. -/
theorem nextCommand_of_portC (hc : s.portC = cmd :: rest) (hturn : s.order.headD .c = .c ∨ s.portP = []) :
    nextCommand s = some (.c, cmd, { s with portC := rest, tsNow := cmd.ts, order := s.order.tail }) := by
  unfold nextCommand
  rw [hc]
  obtain hturn | hp := hturn
  · rw [hturn]
  · rw [hp]
    cases s.order.headD .c <;> rfl

/-- With no reset asserted, a step is its next word's command (30_encoding R107). -/
theorem step_of_nextCommand {port : Port} {i : Instr} (hrst : s.rst = none) (hnext : nextCommand s = some (port, cmd, t))
    (hdec : decode port cmd.word = .ok i) : step s = exec i t := by
  simp only [step, hrst, hnext, hdec]

/-! ### The boundary, schedule entry by schedule entry -/

theorem boundary_of_order_nil (h : s.order = []) : boundary s = s := by
  rw [boundary, h, producerTurns, ← h]

theorem boundary_of_order_portC (h : s.order = .c :: od) : boundary s = { s with order := od } := by
  rw [boundary, h, producerTurns]

/-- An entry for port P passes if no word waits there. -/
theorem boundary_of_idle_portP (h : s.order = .p :: od) (hp : s.portP = []) :
    boundary s = boundary { s with order := od } :=
  calc boundary s
    _ = producerTurns od s := by rw [boundary, h, producerTurns, hp]
    _ = boundary { s with order := od } := (producerTurns_order od s od).symm

/-- A word run between two consumer atoms leaves the schedule alone. -/
theorem producerAtom_keeps_order (cmd : Command) (s : State) : (producerAtom cmd s).order = s.order :=
  (congrArg State.order (producerAtom_order cmd s s.order) :)

/-- An entry for port P runs the word that waits there, and the boundary goes on from the state after it. -/
theorem boundary_of_waiting_portP (h : s.order = .p :: od) (hp : s.portP = cmd :: rest) :
    boundary s = boundary (producerAtom cmd { s with order := od, portP := rest }) :=
  calc boundary s
    _ = producerTurns od (producerAtom cmd { s with portP := rest }) := by simp only [boundary, h, producerTurns, hp]
    _ = producerTurns od { producerAtom cmd { s with portP := rest } with order := od } := (producerTurns_order od _ od).symm
    _ = producerTurns od (producerAtom cmd { s with order := od, portP := rest }) :=
      congrArg (producerTurns od) (producerAtom_order cmd { s with portP := rest } od).symm
    _ = boundary (producerAtom cmd { s with order := od, portP := rest }) := by rw [boundary, producerAtom_keeps_order]

/-- EDGE at a boundary does what the command EDGE does (20_memory R80, 40_ring_buffer R131). -/
theorem producerAtom_of_exec_edge (hdec : decode .p cmd.word = .ok .edge)
    (hexec : exec .edge { s with tsNow := cmd.ts } = .next t) : producerAtom cmd s = t := by
  obtain ⟨_, rfl⟩ := completes_next hexec
  simp only [producerAtom, hdec]

/-! ### What edges leave -/

/-- At most one sample is added for each edge that waits (20_memory R86). -/
theorem EdgesFell.buffered_eq_append (h : EdgesFell s t) (hr : RingOk s) :
    ∃ new, buffered t = buffered s ++ new ∧ new.length ≤ s.portP.length := by
  obtain ⟨new, happend, _⟩ := h.appended hr
  obtain ⟨_, hsupply⟩ := h.ring hr
  have hcount : rbCount t = rbCount s + new.length := by
    rw [← buffered_length, happend, List.length_append, buffered_length]
  exact ⟨new, happend, by unfold supply at hsupply; omega⟩

/-- What `RingOnly` allows is what the statements allow between two atoms. -/
theorem RingOnly.betweenAtoms (h : RingOnly s t) : Claims.BetweenAtoms s t := by
  constructor
  · obtain ⟨_, _, _, _, _, _, _, _, _, _, rfl⟩ := h.frame
    rfl
  · intro hq
    obtain ⟨_, _, rfl⟩ := h.still hq
    rfl

end Sys2Proof.Machine

namespace Sys2Proof.Claims

open Sys2Proof.Machine

/-- Settles O23: one lemma for each form of the schedule, and EDGE at a boundary is the command EDGE. -/
theorem edgesAtBoundary : Obligations.EdgesAtBoundary := by
  refine ⟨fun _ => boundary_of_order_nil, fun _ _ => boundary_of_order_portC, fun _ _ => boundary_of_idle_portP, ?_⟩
  intro s t od cmd rest horder hportP _ hdec hexec
  rw [boundary_of_waiting_portP horder hportP, producerAtom_of_exec_edge hdec hexec]

/-- Settles O24: the frame of the edges at one boundary, and each takes a waiting word for the sample it adds. -/
theorem edgesOnlyAppend : Obligations.EdgesOnlyAppend := by
  intro s hi
  have hfell : EdgesFell s (boundary s) := .boundary s
  exact ⟨(RingOnly.edges hfell).betweenAtoms, hfell.head_eq, hfell.buffered_eq_append hi.ringOk⟩

/-- Settles O7: the two ports' words go next under mirrored conditions. -/
theorem stepRunsDecoded : Obligations.StepRunsDecoded := by
  intro s cmd rest i hrst
  exact ⟨fun hp hdec hturn => step_of_nextCommand hrst (nextCommand_of_portP hp hturn) hdec,
    fun hc hdec hturn => step_of_nextCommand hrst (nextCommand_of_portC hc hturn) hdec⟩

end Sys2Proof.Claims
end

section
/-! The command word (30_encoding R101 to R110): what the opcode map says of its rows, when a word decodes, and when a row of
the table selects it. -/

namespace Sys2Proof

/-! ### The operand field -/

/-- The 16 bits of an operand that a format reads (30_encoding R103, R105). -/
def readImm : Format → BitVec 16 → BitVec 16
  | .n, _ => 0
  | .i, imm => imm
  | .b, imm => if imm.getLsbD 0 then 1 else 0
  | .d, imm => imm

/-- The bits of the operand field that a format wants 0 (30_encoding R103). -/
def immMask : Format → BitVec 16
  | .n => 0xFFFF
  | .i => 0
  | .b => 0xFFFE
  | .d => 0x8000

/-- Bit 0 apart from the bits that format B wants 0. -/
theorem append_bit0 (imm : BitVec 16) : imm.extractLsb' 1 15 ++ imm.extractLsb' 0 1 = imm := by
  exact (BitVec.extractLsb'_append_extractLsb'_eq_extractLsb' (start₁ := 0) (len₁ := 1) rfl).trans BitVec.extractLsb'_eq_self

/-- An operand that fits its format is read in full. -/
theorem readImm_of_immFits {fmt : Format} {imm : BitVec 16} (h : immFits fmt imm = true) : readImm fmt imm = imm := by
  cases fmt with
  | n => exact (beq_iff_eq.mp h).symm
  | i => rfl
  | b =>
    have hzero : imm.extractLsb' 1 15 = 0 := by simpa [immFits] using h
    have hbit : ∀ b : BitVec 1, readImm .b (0#15 ++ b) = 0#15 ++ b := by decide
    rw [← append_bit0 imm, hzero]
    exact hbit _
  | d => rfl

theorem immFits_iff_masked {fmt : Format} {imm : BitVec 16} : immFits fmt imm = true ↔ imm &&& immMask fmt = 0 := by
  cases fmt with
  | n =>
    have hmask : immMask .n = BitVec.allOnes 16 := rfl
    rw [hmask, BitVec.and_allOnes]
    simp [immFits]
  | i => simp [immFits, immMask]
  | b =>
    have hmask : immMask .b = BitVec.allOnes 15 ++ 0#1 := rfl
    have hzero : (0 : BitVec 16) = 0#15 ++ 0#1 := rfl
    rw [hmask, ← append_bit0 imm, BitVec.and_append, BitVec.and_allOnes, BitVec.and_zero, append_bit0, hzero,
      BitVec.append_left_inj]
    simp [immFits]
  | d =>
    have hmask : immMask .d = BitVec.twoPow 16 15 := rfl
    rw [hmask, BitVec.and_twoPow]
    cases h : imm.getLsbD 15 <;> simp only [immFits, h] <;> decide

theorem immFits_eq_false_iff {fmt : Format} {imm : BitVec 16} : immFits fmt imm = false ↔
    (fmt = .n ∧ imm ≠ 0) ∨ (fmt = .b ∧ imm.extractLsb' 1 15 ≠ 0) ∨ (fmt = .d ∧ imm.getLsbD 15 = true) := by
  cases fmt <;> simp [immFits]

/-! ### The rows of the opcode map -/

section
variable {op : BitVec 8} {port : Port} {fmt : Format} {build : BitVec 16 → Instr}

/-- A row makes commands of its own port and opcode, with the operand its format reads (30_encoding R104, R105). -/
theorem opcodeMap_builds (h : opcodeMap op = some (port, fmt, build)) (imm : BitVec 16) :
    portOf (build imm) = port ∧ opcodeOf (build imm) = op ∧ immOf (build imm) = readImm fmt imm ∧
      (immFits fmt imm = true → (build imm).wf = true) := by
  unfold opcodeMap at h
  split at h
  all_goals cases h
  all_goals exact ⟨rfl, rfl, rfl, by simp [Instr.wf, immFits]⟩

/-- Which opcodes port P takes, and which opcodes have each format that constrains its operand (30_encoding R104). -/
theorem opcodeMap_classes (h : opcodeMap op = some (port, fmt, build)) :
    op ∈ Claims.opcodes ∧ (port = .p ↔ op = 0x01) ∧ (fmt = .n ↔ op ∈ Claims.opcodesN) ∧ (fmt = .b ↔ op = 0x20) ∧
      (fmt = .d ↔ op = 0x30) := by
  unfold opcodeMap at h
  split at h
  all_goals cases h
  all_goals decide

theorem opcodeMap_eq_none_iff : opcodeMap op = none ↔ op ∉ Claims.opcodes := by
  have hsome : ∀ op ∈ Claims.opcodes, (opcodeMap op).isSome = true := by decide
  constructor
  · intro hnone hop
    simpa [hnone] using hsome op hop
  · intro hop
    cases hrow : opcodeMap op with
    | none => rfl
    | some row => exact absurd (opcodeMap_classes hrow).1 hop

end

/-! ### When a word decodes -/

/-- The family `Format` of statements, for every command. -/
theorem format_statement (i : Instr) : Laws.Format.Statement i := by
  cases i with
  | edge => exact Laws.Format.edge
  | count => exact Laws.Format.count
  | isfull => exact Laws.Format.isfull
  | isempty => exact Laws.Format.isempty
  | pop => exact Laws.Format.pop
  | peek offset => exact Laws.Format.peek offset
  | adv k => exact Laws.Format.adv k
  | enable en => exact Laws.Format.enable en
  | seldev pid => exact Laws.Format.seldev pid
  | classify imm => exact Laws.Format.classify imm
  | synctrain => exact Laws.Format.synctrain
  | decbit => exact Laws.Format.decbit
  | step => exact Laws.Format.step
  | service => exact Laws.Format.service
  | take maxLen => exact Laws.Format.take maxLen
  | stats => exact Laws.Format.stats
  | status => exact Laws.Format.status
  | syncx => exact Laws.Format.syncx
  | ovrcnt => exact Laws.Format.ovrcnt
  | rdprof idx => exact Laws.Format.rdprof idx

section
variable {port : Port} {w : CmdWord} {i : Instr}

/-- A word decodes when its opcode has a row of that port, its reserved byte is 0 and its operand fits (30_encoding R107). -/
theorem decode_eq_ok_iff : decode port w = .ok i ↔ ∃ fmt build, opcodeMap (opcodeField w) = some (port, fmt, build) ∧
    reservedField w = 0 ∧ immFits fmt (imm16Field w) = true ∧ i = build (imm16Field w) := by
  constructor
  · intro h
    unfold decode at h
    split at h
    · cases h
    · next rowPort fmt build hrow =>
      split at h
      · cases h
      · next hport =>
        split at h
        · cases h
        · next hres =>
          split at h
          · cases h
          · next himm =>
            cases h
            exact ⟨fmt, build, by rw [hrow, Decidable.not_not.mp hport], Decidable.not_not.mp hres,
              by simpa only [Bool.not_eq_false] using himm, rfl⟩
  · rintro ⟨fmt, build, hrow, hres, himm, rfl⟩
    simp only [decode, hrow, hres, himm, ne_eq, not_true_eq_false, ↓reduceIte, Bool.true_eq_false]

theorem decode_error_iff : (∃ e, decode port w = .error e) ↔ ∀ i, decode port w ≠ .ok i := by
  cases decode port w <;> simp

/-- A word that is a command is written back as it was (30_encoding R101, R105). -/
theorem encode_of_decode (h : decode port w = .ok i) : i.wf = true ∧ portOf i = port ∧ encode i = w := by
  obtain ⟨fmt, build, hrow, hres, himm, rfl⟩ := decode_eq_ok_iff.mp h
  obtain ⟨hport, hop, hread, hwf⟩ := opcodeMap_builds hrow (imm16Field w)
  refine ⟨hwf himm, hport, ?_⟩
  calc encode (build (imm16Field w))
    _ = opcodeField w ++ 0#8 ++ imm16Field w := by rw [encode, hop, hread, readImm_of_immFits himm]
    _ = opcodeField w ++ reservedField w ++ imm16Field w := by rw [hres]; rfl
    _ = w := (word_eq_fields w).symm

/-- Decoding gives back a command that can be written (30_encoding R101, R104, R105). -/
theorem decode_encode (h : i.wf = true) : decode (portOf i) (encode i) = .ok i := by
  obtain ⟨hres, himm, fmt, build, hrow, hbuild, hfits⟩ := format_statement i
  exact decode_eq_ok_iff.mpr ⟨fmt, build, hrow, hres, by rw [himm]; exact hfits h, by rw [himm, hbuild]⟩

/-- 30_encoding R110, read off the three fields of the word. -/
theorem illegalOn_iff : Claims.IllegalOn port w ↔ opcodeField w ∉ Claims.opcodes ∨ (port = .c ∧ opcodeField w = 0x01) ∨
    (port = .p ∧ opcodeField w ≠ 0x01) ∨ reservedField w ≠ 0 ∨ (opcodeField w ∈ Claims.opcodesN ∧ imm16Field w ≠ 0) ∨
    (opcodeField w = 0x20 ∧ (imm16Field w).extractLsb' 1 15 ≠ 0) ∨
    (opcodeField w = 0x30 ∧ (imm16Field w).getLsbD 15 = true) := by
  have hbits : (imm16Field w).extractLsb' 1 15 = w.extractLsb' 1 15 := BitVec.extractLsb'_extractLsb'_of_le (by decide)
  have htop : (imm16Field w).getLsbD 15 = w.getLsbD 15 := by simp [imm16Field]
  rw [hbits, htop]
  rfl

section
variable {rowPort : Port} {fmt : Format} {build : BitVec 16 → Instr}
  (hrow : opcodeMap (opcodeField w) = some (rowPort, fmt, build))
include hrow

/-- What R110 leaves to say of a word whose opcode is assigned. -/
theorem illegalOn_iff_of_row :
    Claims.IllegalOn port w ↔ rowPort ≠ port ∨ reservedField w ≠ 0 ∨ immFits fmt (imm16Field w) = false := by
  obtain ⟨hop, hp, hn, hb, hd⟩ := opcodeMap_classes hrow
  have hport : (port = .c ∧ rowPort = .p) ∨ (port = .p ∧ rowPort ≠ .p) ↔ rowPort ≠ port := by
    cases port <;> cases rowPort <;> decide
  simp only [illegalOn_iff, hop, not_true_eq_false, false_or, ← hp, ← hn, ← hb, ← hd, ← immFits_eq_false_iff, ← hport,
    ne_eq, or_assoc]

theorem decode_error_iff_of_row : (∃ e, decode port w = .error e) ↔
    rowPort ≠ port ∨ reservedField w ≠ 0 ∨ immFits fmt (imm16Field w) = false := by
  simp only [decode, hrow]
  split
  · next hport => exact iff_of_true ⟨_, rfl⟩ (.inl hport)
  · next hport =>
    split
    · next hres => exact iff_of_true ⟨_, rfl⟩ (.inr (.inl hres))
    · next hres =>
      split
      · next himm => exact iff_of_true ⟨_, rfl⟩ (.inr (.inr himm))
      · next himm => exact iff_of_false nofun fun h => h.elim hport fun h => h.elim hres himm

end

/-- The words that do not decode are those 30_encoding R110 names. -/
theorem decode_error_iff_illegalOn : (∃ e, decode port w = .error e) ↔ Claims.IllegalOn port w := by
  cases hrow : opcodeMap (opcodeField w) with
  | none =>
    have herr : decode port w = .error .unassignedOpcode := by simp only [decode, hrow]
    exact iff_of_true ⟨_, herr⟩ (.inl (opcodeMap_eq_none_iff.mp hrow))
  | some row => rw [decode_error_iff_of_row hrow, illegalOn_iff_of_row hrow]

end

end Sys2Proof
end

section
/-! The opcode table as masks and matches (30_encoding R104, R107). -/

namespace Sys2Proof.Claims

/-- The row of the table that an opcode map entry makes: under its mask stand the opcode, the reserved byte, and the bits of
the operand field that the format wants 0. -/
def rowOf (op : BitVec 8) (entry : Port × Format × (BitVec 16 → Instr)) : Row :=
  ⟨entry.1, 0xFF#8 ++ 0xFF#8 ++ immMask entry.2.1, op ++ 0#8 ++ 0#16, entry.2.2⟩

theorem rows_eq_opcodeMap : rows = opcodes.filterMap (fun op => (opcodeMap op).map (rowOf op)) := rfl

theorem mem_rows_iff {row : Row} : row ∈ rows ↔ ∃ op entry, opcodeMap op = some entry ∧ row = rowOf op entry := by
  rw [rows_eq_opcodeMap]
  simp only [List.mem_filterMap, Option.map_eq_some_iff]
  constructor
  · rintro ⟨op, _, entry, hentry, rfl⟩
    exact ⟨op, entry, hentry, rfl⟩
  · rintro ⟨op, entry, hentry, rfl⟩
    exact ⟨op, (opcodeMap_classes hentry).1, entry, hentry, rfl⟩

/-- A word's three fields determine it. -/
theorem word_inj {op op' res res' : BitVec 8} {imm imm' : BitVec 16} :
    op ++ res ++ imm = op' ++ res' ++ imm' ↔ op = op' ∧ res = res' ∧ imm = imm' := by
  constructor
  · intro h
    exact ⟨by simpa only [opcodeField_word] using congrArg opcodeField h,
      by simpa only [reservedField_word] using congrArg reservedField h,
      by simpa only [imm16Field_word] using congrArg imm16Field h⟩
  · rintro ⟨rfl, rfl, rfl⟩
    rfl

/-- What a row's mask and match ask of the three fields of a word. -/
theorem masked_rowOf {op : BitVec 8} {port : Port} {fmt : Format} {build : BitVec 16 → Instr} {w : CmdWord} :
    w &&& (rowOf op (port, fmt, build)).mask = (rowOf op (port, fmt, build)).pattern ↔
      opcodeField w = op ∧ reservedField w = 0 ∧ immFits fmt (imm16Field w) = true := by
  have hbyte (b : BitVec 8) : b &&& 0xFF#8 = b := BitVec.and_allOnes
  have hmasked : w &&& (0xFF#8 ++ 0xFF#8 ++ immMask fmt) =
      opcodeField w ++ reservedField w ++ (imm16Field w &&& immMask fmt) := by
    conv => lhs; rw [word_eq_fields w]
    rw [BitVec.and_append, BitVec.and_append, hbyte, hbyte]
  rw [immFits_iff_masked]
  simp only [rowOf, hmasked]
  exact word_inj

/-- A row that selects a word is the word's entry in the opcode map. -/
theorem selects_iff {row : Row} {w : CmdWord} : row ∈ rows ∧ w &&& row.mask = row.pattern ↔
    ∃ port fmt build, opcodeMap (opcodeField w) = some (port, fmt, build) ∧ reservedField w = 0 ∧
      immFits fmt (imm16Field w) = true ∧ row = rowOf (opcodeField w) (port, fmt, build) := by
  rw [mem_rows_iff]
  constructor
  · rintro ⟨⟨op, ⟨port, fmt, build⟩, hentry, rfl⟩, hmask⟩
    obtain ⟨rfl, hres, himm⟩ := masked_rowOf.mp hmask
    exact ⟨port, fmt, build, hentry, hres, himm, rfl⟩
  · rintro ⟨port, fmt, build, hentry, hres, himm, rfl⟩
    exact ⟨⟨_, _, hentry, rfl⟩, masked_rowOf.mpr ⟨rfl, hres, himm⟩⟩

theorem decode_eq_ok_iff_selects {port : Port} {w : CmdWord} {i : Instr} : decode port w = .ok i ↔
    ∃ row ∈ rows, row.port = port ∧ w &&& row.mask = row.pattern ∧ i = row.build (w.extractLsb' 0 16) := by
  rw [decode_eq_ok_iff]
  constructor
  · rintro ⟨fmt, build, hentry, hres, himm, rfl⟩
    obtain ⟨hrow, hmask⟩ := selects_iff.mpr ⟨port, fmt, build, hentry, hres, himm, rfl⟩
    exact ⟨_, hrow, rfl, hmask, rfl⟩
  · rintro ⟨row, hrow, rfl, hmask, rfl⟩
    obtain ⟨port, fmt, build, hentry, hres, himm, rfl⟩ := selects_iff.mp ⟨hrow, hmask⟩
    exact ⟨fmt, build, hentry, hres, himm, rfl⟩

open Sys2Proof.Machine

/-- Settles O10: `decode_encode`, command by command. -/
theorem decodeEncode : Obligations.DecodeEncode := fun _ => decode_encode

/-- Settles O11: the three fields of the word are those of its command. -/
theorem encodeDecode : Obligations.EncodeDecode := fun _ _ _ => encode_of_decode

/-- Settles O12: the rows are the opcode map's entries, and a row's match holds the opcode byte. -/
theorem tableSelects : Obligations.TableSelects := by
  refine ⟨fun _ _ _ => decode_eq_ok_iff_selects, fun w a ha b hb _ hma hmb => ?_, fun port w hnone => ?_⟩
  · obtain ⟨_, _, _, _, _, _, rfl⟩ := selects_iff.mp ⟨ha, hma⟩
    obtain ⟨_, _, _, _, _, _, rfl⟩ := selects_iff.mp ⟨hb, hmb⟩
    rfl
  · refine decode_error_iff_illegalOn.mp (decode_error_iff.mpr fun i hdec => ?_)
    obtain ⟨row, hrow, hport, hmask, _⟩ := decode_eq_ok_iff_selects.mp hdec
    exact hnone row hrow hport hmask

/-- Settles O13: an illegal word decodes to an error, whose step is `illegalCommand`. -/
theorem illegalWords : Obligations.IllegalWords := by
  refine ⟨fun _ _ => decode_error_iff_illegalOn, ?_, fun port => .inl (by decide), fun port => .inl (by decide)⟩
  intro s u port cmd hrst hnext hin hill
  obtain ⟨e, he⟩ := decode_error_iff_illegalOn.mpr hill
  simp only [step, hrst, hnext, he, completes_eq hin]
  rfl

/-- Settles O9: the decoder run on each word. -/
theorem decodeWords : Obligations.DecodeWords := ⟨rfl, rfl, rfl, rfl, rfl, rfl, rfl, rfl, rfl⟩

end Sys2Proof.Claims
end

section
/-! The response that ends a command (30_encoding R108, R109), and the commands that need a profile (R111). -/

namespace Sys2Proof.Machine

open Sys2Proof.Claims

/-! ### One response on the command's port -/

/-- Only EDGE comes in on port P (30_encoding R104). -/
theorem portOf_eq_c {i : Instr} (h : i ≠ .edge) : portOf i = .c := by
  unfold portOf
  split
  · contradiction
  all_goals rfl

theorem portOf_eq_c_of_composite {i : Instr} (h : composite i = true) : portOf i = .c :=
  portOf_eq_c (by rintro rfl; cases h)

theorem portOf_eq_c_of_reads {i : Instr} (h : reads i = true) : portOf i = .c :=
  portOf_eq_c (by rintro rfl; cases h)

/-- What `u` has on record beyond `s` when the command `i`, begun in `s`, is about to respond: the responses of the edges
inside it. -/
def EdgesAnswered (i : Instr) (s u : State) : Prop :=
  ∃ edges, u.responses = s.responses ++ edges ∧ (∀ x ∈ edges, x.1 = Port.p) ∧
    (composite i = false ∨ s.portP = [] → edges = [])

theorem EdgesAnswered.none {i : Instr} {s u : State} (h : u.responses = s.responses) : EdgesAnswered i s u :=
  ⟨[], by rw [h, List.append_nil], nofun, fun _ => rfl⟩

/-- A composite command records the responses of the edges inside it; with no edge waiting there are none. -/
theorem Evolves.edgesAnswered {i : Instr} {s u : State} (h : Evolves s u) (hi : composite i = true) :
    EdgesAnswered i s u := by
  obtain ⟨edges, hedges, hport⟩ := h.responses
  refine ⟨edges, hedges, hport, fun hquiet => ?_⟩
  obtain ⟨_, _, _, _, _, hsame, _⟩ := h.quiet (hquiet.resolve_left (by simp [hi]))
  exact List.append_right_eq_self.mp (hedges.symm.trans hsame)

/-- What 30_encoding R108 and R109 ask of the fields of the response of `i`. -/
structure ReplyOk (i : Instr) (st : Status) (r0 r1 : Nat) (data : List Byte) : Prop where
  legal : st ≠ .illegal
  zeros : st ≠ .ok → r0 = 0 ∧ r1 = 0 ∧ data = []
  bytes : (∀ maxLen, i ≠ .take maxLen) → data = []

theorem ReplyOk.answer (i : Instr) (r0 r1 : Nat) : ReplyOk i .ok r0 r1 [] := ⟨nofun, fun h => absurd rfl h, fun _ => rfl⟩

theorem ReplyOk.refusal (i : Instr) {st : Status} (h : st ≠ .illegal) : ReplyOk i st 0 0 [] :=
  ⟨h, fun _ => ⟨rfl, rfl, rfl⟩, fun _ => rfl⟩

/-- `t` is `s` after the command `i`, whose own response is the last. -/
def Replies (i : Instr) (s t : State) : Prop :=
  ∃ u st r0 r1 data, t = respond (portOf i) st r0 r1 data u ∧ EdgesAnswered i s u ∧ ReplyOk i st r0 r1 data

theorem Ends.replies {i : Instr} {s t : State} (h : Ends s t) (hi : composite i = true) : Replies i s t := by
  unfold Replies
  rw [portOf_eq_c_of_composite hi]
  cases h with
  | refused u st hst hu =>
    exact ⟨u, st, 0, 0, [], rfl, hu.edgesAnswered hi, .refusal i (by rintro rfl; simp at hst)⟩
  | answered u r0 r1 hu => exact ⟨u, .ok, r0, r1, [], rfl, hu.edgesAnswered hi, .answer i r0 r1⟩

theorem Outcomes.replies {i : Instr} {s t : State} (h : Outcomes s i t) : Replies i s t := by
  cases h with
  | read i st r0 r1 hi hst =>
    unfold Replies
    rw [portOf_eq_c_of_reads hi]
    refine ⟨s, st, r0, r1, [], rfl, .none rfl, ?_⟩
    obtain rfl | ⟨rfl, rfl, hst⟩ := hst
    · exact .answer i r0 r1
    · exact .refusal i (by rintro rfl; simp at hst)
  | emptyPop | shortAdv | notConfigured | notSelected => exact ⟨_, _, _, _, _, rfl, .none rfl, .refusal _ nofun⟩
  | taken n r0 r1 data => exact ⟨_, _, _, _, _, rfl, .none rfl, nofun, fun h => absurd rfl h, fun h => absurd rfl (h n)⟩
  | ended i t hi ht => exact ht.replies hi
  | _ => exact ⟨_, _, _, _, _, rfl, .none rfl, .answer _ _ _⟩

/-! ### The statements' form of a response -/

section
variable {i : Instr} {s u : State} {port : Port} {st : Status} {r0 r1 : Nat} {data : List Byte}

/-- A command's response shows `r0` and `r1` as they are when they fit 32 bits (30_encoding R108). -/
theorem does_of_exec (h : exec i s = .next (respond port st r0 r1 data u)) (h0 : r0 < 2 ^ 32) (h1 : r1 < 2 ^ 32) :
    Does i port s u st r0 r1 data :=
  ⟨_, h, rfl, (BitVec.toNat_ofNat ..).trans (Nat.mod_eq_of_lt h0), (BitVec.toNat_ofNat ..).trans (Nat.mod_eq_of_lt h1), rfl⟩

theorem refuses_of_exec (h : exec i s = .next (refuseC st s)) : Refuses i s st :=
  does_of_exec h (by decide) (by decide)

end

/-! ### A disabled block -/

/-- Disabled, the state machine only goes to SyncSeek (44_state_machine R190). -/
theorem fsmStep_of_disabled {s : State} (h : s.enable = false) :
    fsmStep s = some (.blocked, { s with state := .syncSeek }) := by
  simp only [fsmStep, h, ↓reduceIte]

theorem stepOnce_of_disabled {s : State} (h : s.enable = false) :
    stepOnce s = some (respondC 0 0 { s with state := .syncSeek }) := by
  simp only [stepOnce, fsmStep_of_disabled h]
  rfl

/-- Disabled, SERVICE's first handler blocks (44_state_machine R198). -/
theorem service_of_disabled {s : State} (h : s.enable = false) :
    service s = some (respondC 0 0 { s with state := .syncSeek }) := by
  simp only [service, serviceFuel, iterate, serviceTurn, fsmStep_of_disabled h]
  rfl

/-- No profile, not enabled (10_state R61 I2). -/
theorem Inv.disabled_of_unconfigured {s : State} (h : Inv s) (hv : s.cfgValid = false) : s.enable = false := by
  cases he : s.enable with
  | false => rfl
  | true => exact absurd (h.enabled he) (by simp [hv])

end Sys2Proof.Machine

namespace Sys2Proof.Claims

open Sys2Proof.Machine

/-- Settles O53: every outcome of `exec` is a response on the command's port after those of edges. -/
theorem oneResponse : Obligations.OneResponse := by
  intro i s t hi hexec
  obtain ⟨u, st, r0, r1, data, rfl, ⟨edges, hedges, hport, hquiet⟩, hreply⟩ :=
    (exec_outcomes (fun _ => hi.ringOk) hexec).replies
  refine ⟨edges, _, congrArg (· ++ [_]) hedges, hport, hquiet, hreply.legal, fun hst => ?_, hreply.bytes⟩
  obtain ⟨rfl, rfl, hdata⟩ := hreply.zeros hst
  exact ⟨rfl, rfl, hdata⟩

/-- Settles O29: the four commands test `cfg_valid` first, and without a profile the block is disabled. -/
theorem needsProfile : Obligations.NeedsProfile := by
  intro s imm hr hv
  refine ⟨refuses_of_exec ?_, refuses_of_exec ?_, refuses_of_exec ?_, refuses_of_exec ?_, fun hi => ?_⟩
  · simp only [exec, execClassify, completes_eq hr, hv, ↓reduceIte]
  · exact returns_eq hr (by simp only [synctrain, hv, ↓reduceIte])
  · simp only [exec, execDecbit, completes_eq hr, decbit, hv, ↓reduceIte]
  · simp only [exec, execEnable, completes_eq hr, hv, and_self, ↓reduceIte]
  · have hoff : s.enable = false := hi.disabled_of_unconfigured hv
    exact ⟨does_of_exec (returns_eq hr (stepOnce_of_disabled hoff)) (by decide) (by decide),
      does_of_exec (returns_eq hr (service_of_disabled hoff)) (by decide) (by decide)⟩

end Sys2Proof.Claims
end

section
/-! A command word is one command, on one port (30_encoding R107). -/

namespace Sys2Proof

/-- No word is a command on both ports, and none is two commands (30_encoding R104, R107). -/
theorem decode_unique {port other : Port} {w : CmdWord} {i j : Instr} (h : decode port w = .ok i)
    (h' : decode other w = .ok j) : other = port ∧ j = i := by
  obtain ⟨fmt, build, hrow, _, _, rfl⟩ := decode_eq_ok_iff.mp h
  obtain ⟨fmt', build', hrow', _, _, rfl⟩ := decode_eq_ok_iff.mp h'
  cases hrow.symm.trans hrow'
  exact ⟨rfl, rfl⟩

theorem word_of_decode {port : Port} {w : CmdWord} {i : Instr} (h : decode port w = .ok i) : Claims.Word w port i :=
  ⟨h, fun _ _ => decode_unique h⟩

/-- The word of a command from its upper half (opcode byte and zeros) and its operand field (30_encoding R101). -/
theorem word_of_halves {i : Instr} {top imm : BitVec 16} (hwf : i.wf = true) (htop : opcodeOf i ++ 0#8 = top)
    (himm : immOf i = imm) : Claims.Word (top ++ imm) (portOf i) i := by
  subst htop himm
  exact word_of_decode (decode_encode hwf)

end Sys2Proof
end

section
/-! The ring buffer's commands (40_ring_buffer R131 to R139): the count and the measured duration over the integers, what
`exec` answers in each branch, and edge after edge into a ring with room. -/

namespace Sys2Proof.Machine

open Sys2Proof.Claims

/-! ### The count and the duration over the integers -/

section
variable {s : State}

theorem InRange.rbCount_lt (h : InRange s) : rbCount s < s.cfg.n := by
  obtain ⟨⟨⟨htwo, _⟩, _⟩, _⟩ := h
  exact modSub_lt _ _ (by omega)

/-- The count fits a response's `r0`. -/
theorem InRange.rbCount_fits (h : InRange s) : rbCount s < 2 ^ 32 := by
  have hlt := h.rbCount_lt
  obtain ⟨⟨⟨_, hmax⟩, _⟩, _⟩ := h
  omega

/-- `rb_count` is the one number that 10_state R23 calls the count. -/
theorem InRange.count_iff (h : InRange s) {k : Nat} : Count s k ↔ k = rbCount s := by
  have hlt := h.rbCount_lt
  have hcount : (rbCount s : Int) = ((s.tail : Int) - s.head) % (s.cfg.n : Int) :=
    Int.toNat_of_nonneg (Int.emod_nonneg _ (by omega))
  rw [Count, ← hcount, Int.natCast_inj]

/-- A duration fits a response's `r0`. -/
theorem rbPeek_fits (o : Nat) (s : State) : rbPeek o s < 2 ^ 32 := Nat.lt_trans (rbPeek_lt o s) (by decide)

theorem ringFull_iff : ringFull s = true ↔ rbCount s = s.cfg.n - 1 := beq_iff_eq

theorem ringFull_eq_false_iff : ringFull s = false ↔ rbCount s ≠ s.cfg.n - 1 := beq_eq_false_iff_ne

theorem bitVal_beq (a b : Nat) : bitVal (a == b) = if a = b then 1 else 0 := by simp [bitVal]

theorem bitVal_fits (b : Bool) : bitVal b < 2 ^ 32 := by cases b <;> decide

/-- The duration of 40_ring_buffer R131 over the integers. -/
theorem Inv.edgeDuration_cast (h : Inv s) (now : Nat) :
    (edgeDuration now s : Int) = min (((now : Int) - s.lastEdge) % (s.cfg.tsMod : Int)) 32767 := by
  have hlt := h.lastEdge_lt
  have hmod : (s.cfg.tsMod : Int) ≠ 0 := by omega
  have hnonneg : 0 ≤ ((now : Int) - s.lastEdge) % (s.cfg.tsMod : Int) := Int.emod_nonneg _ hmod
  unfold edgeDuration modSub
  omega

/-- Counting on by less than the modulus and subtracting gives back the amount, also when the counter wrapped
(40_ring_buffer R138). -/
theorem modSub_addMod {a k m : Nat} (ha : a < m) (hk : k < m) : modSub ((a + k) % m) a m = k := by
  rw [modSub_eq (Nat.mod_lt _ (Nat.zero_lt_of_lt ha)) ha, addMod_eq ha (Nat.le_of_lt hk)]
  split <;> split <;> omega

end

/-! ### What `exec` answers -/

section
variable {s : State} (hr : InRange s)
include hr

theorem exec_edge_of_disabled (he : s.enable = false) : exec .edge s = .next (respond .p .ok 0 0 [] s) := by
  simp only [exec, execEdge, completes_eq hr, edgeAtom, he, ↓reduceIte]

theorem exec_edge_of_full (he : s.enable = true) (hf : ringFull s = true) : exec .edge s = .next
    (respond .p .ok 0 0 [] (raise (.captureOverflow (edgeDuration s.tsNow s)) { s with ovf := true })) := by
  simp only [exec, execEdge, completes_eq hr, edgeAtom, he, hf, Bool.true_eq_false, ↓reduceIte]

theorem exec_edge_of_room (he : s.enable = true) (hf : ringFull s = false) :
    exec .edge s = .next (respond .p .ok 1 0 [] (storeEdge s.tsNow s)) := by
  simp only [exec, execEdge, completes_eq hr, edgeAtom, he, hf, Bool.true_eq_false, Bool.false_eq_true, ↓reduceIte]

theorem exec_count : exec .count s = .next (respondC (rbCount s) 0 s) := completes_eq hr _

theorem exec_isfull : exec .isfull s = .next (respondC (bitVal (ringFull s)) 0 s) := completes_eq hr _

theorem exec_isempty : exec .isempty s = .next (respondC (bitVal (ringEmpty s)) 0 s) := completes_eq hr _

theorem exec_pop_of_empty (hc : rbCount s = 0) : exec .pop s = .next (refuseC .precond s) := by
  simp only [exec, execPop, completes_eq hr, hc, ↓reduceIte]

theorem exec_pop (hc : rbCount s ≠ 0) : exec .pop s = .next (respondC (rbPeek 0 s) 0 (rbAdv 1 s)) := by
  simp only [exec, execPop, completes_eq hr, hc, ↓reduceIte]

theorem exec_peek_of_beyond {offset : BitVec 16} (ho : rbCount s ≤ offset.toNat) :
    exec (.peek offset) s = .next (refuseC .precond s) := by
  simp only [exec, execPeek, completes_eq hr, operandI, ho, ↓reduceIte]

theorem exec_peek {offset : BitVec 16} (ho : offset.toNat < rbCount s) :
    exec (.peek offset) s = .next (respondC (rbPeek offset.toNat s) 0 s) := by
  simp only [exec, execPeek, completes_eq hr, operandI, Nat.not_le_of_lt ho, ↓reduceIte]

theorem exec_adv_of_short {k : BitVec 16} (hk : rbCount s < k.toNat) :
    exec (.adv k) s = .next (refuseC .precond s) := by
  simp only [exec, execAdv, completes_eq hr, operandI, hk, ↓reduceIte]

theorem exec_adv {k : BitVec 16} (hk : k.toNat ≤ rbCount s) :
    exec (.adv k) s = .next (respondC 0 0 (rbAdv k.toNat s)) := by
  simp only [exec, execAdv, completes_eq hr, operandI, Nat.not_lt_of_le hk, ↓reduceIte]

theorem exec_enable_of_unconfigured (hv : s.cfgValid = false) :
    exec (.enable true) s = .next (refuseC .nocfg s) := by
  simp only [exec, execEnable, completes_eq hr, hv, and_self, ↓reduceIte]

theorem exec_enable_of_disabled (hv : s.cfgValid = true) (he : s.enable = false) :
    exec (.enable true) s = .next (respondC 0 0 { s with lastEdge := s.tsNow, enable := true }) := by
  simp only [exec, execEnable, completes_eq hr, hv, he, Bool.true_eq_false, and_false, and_self, ↓reduceIte]

theorem exec_enable_of_enabled (hv : s.cfgValid = true) (he : s.enable = true) :
    exec (.enable true) s = .next (respondC 0 0 s) := by
  simp only [exec, execEnable, completes_eq hr, hv, he, Bool.true_eq_false, and_false, ↓reduceIte]

theorem exec_enable_false : exec (.enable false) s = .next (respondC 0 0 { s with enable := false }) := by
  simp only [exec, execEnable, completes_eq hr, Bool.false_eq_true, false_and, ↓reduceIte]

end

/-! ### Edge after edge -/

theorem Inv.withNow {s : State} (h : Inv s) {now : Nat} (hn : now < s.cfg.tsMod) : Inv { s with tsNow := now } := by
  obtain ⟨_, hports⟩ := h.inRange.2.1
  exact h.of_blockOf rfl ⟨hn, hports⟩

theorem Inv.edgeStored {s : State} (h : Inv s) (he : s.enable = true) (hf : ringFull s = false) :
    Inv (Machine.respond .p .ok 1 0 [] (storeEdge s.tsNow s)) :=
  (Outcomes.edgeStored he hf).inv h

/-- An edge that is stored answers 1, so `storesAll` goes on after it. -/
theorem storesAll_cons_of_room {s : State} {now : Nat} {rest : List Nat} (hr : InRange { s with tsNow := now })
    (he : s.enable = true) (hf : ringFull s = false) :
    storesAll (now :: rest) s = storesAll rest (respond .p .ok 1 0 [] (storeEdge now { s with tsNow := now })) := by
  rw [storesAll, exec_edge_of_room hr he hf]
  simp

/-- While the ring has room for all of them, every edge is stored (40_ring_buffer R138). -/
theorem storesAll_of_room {times : List Nat} : ∀ {s : State}, Inv s → s.enable = true →
    rbCount s + times.length < s.cfg.n → (∀ x ∈ times, x < s.cfg.tsMod) →
    ∃ t, storesAll times s = some t ∧ Inv t ∧ t.enable = true ∧ t.cfg = s.cfg ∧ rbCount t = rbCount s + times.length := by
  induction times with
  | nil => exact fun hi he _ _ => ⟨_, rfl, hi, he, rfl, rfl⟩
  | cons now rest ih =>
    intro s hi he hroom htimes
    obtain ⟨hnow, hrest⟩ := List.forall_mem_cons.mp htimes
    rw [List.length_cons, ← Nat.add_assoc, Nat.add_right_comm] at hroom
    have hnext : Inv { s with tsNow := now } := hi.withNow hnow
    have hf : ringFull s = false := ringFull_eq_false_iff.mpr (by omega)
    have hcount : rbCount (storeEdge now { s with tsNow := now }) = rbCount s + 1 :=
      hnext.ringOk.count_storeEdge hf now
    rw [← hcount] at hroom
    obtain ⟨t, hstores, hit, het, hcfg, hct⟩ := ih (hnext.edgeStored he hf) he hroom hrest
    refine ⟨t, (storesAll_cons_of_room hnext.inRange he hf).trans hstores, hit, het, hcfg, hct.trans ?_⟩
    calc rbCount (storeEdge now { s with tsNow := now }) + rest.length
      _ = rbCount s + 1 + rest.length := by rw [hcount]
      _ = rbCount s + (now :: rest).length := by rw [List.length_cons, Nat.add_assoc, Nat.add_comm 1]

end Sys2Proof.Machine

namespace Sys2Proof.Claims

open Sys2Proof.Machine

/-- Settles O14: an equation for each branch of EDGE, and a write to the ring memory changes one slot. -/
theorem edgeEffect : Obligations.EdgeEffect := by
  refine ⟨word_of_decode rfl, fun s dur hi hdur => ?_⟩
  have hr : InRange s := hi.inRange
  obtain rfl : dur = edgeDuration s.tsNow s := Int.natCast_inj.mp (hdur.trans (hi.edgeDuration_cast _).symm)
  refine ⟨fun he => does_of_exec (exec_edge_of_disabled hr he) (by decide) (by decide), fun he hc => ?_, fun he hc => ?_⟩
  · have hf : ringFull s = true := ringFull_iff.mpr (hr.count_iff.mp hc).symm
    exact does_of_exec (exec_edge_of_full hr he hf) (by decide) (by decide)
  · have hf : ringFull s = false := ringFull_eq_false_iff.mpr fun hf => hc (hr.count_iff.mpr hf.symm)
    refine ⟨_, does_of_exec (exec_edge_of_room hr he hf) (by decide) (by decide), ?_, fun slot hslot => ?_⟩
    · have hle := edgeDuration_le s.tsNow s
      rw [memRead_memWrite_same hi.rbMem.1, BitVec.toNat_ofNat, Nat.mod_eq_of_lt (by omega)]
    · exact memRead_memWrite_other hi.rbMem.1 hslot.symm _

/-- Settles O15: an accepted edge appends its duration, and `modSub` undoes the counter's advance. -/
theorem wraparoundSafe : Obligations.WraparoundSafe := by
  intro s elapsed hi he hroom helapsed hnow
  have hf : ringFull s = false := by
    rw [buffered_length] at hroom
    exact ringFull_eq_false_iff.mpr (Nat.ne_of_lt hroom)
  have hdur : edgeDuration s.tsNow s = min elapsed 32767 := by
    rw [edgeDuration, hnow, modSub_addMod hi.lastEdge_lt helapsed]
  exact ⟨_, exec_edge_of_room hi.inRange he hf, hdur ▸ hi.ringOk.buffered_storeEdge hf s.tsNow, rfl⟩

/-- Settles O16: `N-1` edges from the empty ring make the count `N-1`, which is a full ring. -/
theorem ringCapacity : Obligations.RingCapacity := by
  intro s times last hi he hempty hlen htimes hlast
  have hcount : rbCount s = 0 := by rw [← buffered_length, hempty, List.length_nil]
  have hlt := hi.inRange.rbCount_lt
  obtain ⟨t, hstores, hit, het, hcfg, hct⟩ := storesAll_of_room hi he (by omega) htimes
  have hfull : ringFull t = true := ringFull_iff.mpr (by rw [hct, hcfg]; omega)
  have hisfull := exec_isfull hit.inRange
  rw [hfull] at hisfull
  exact ⟨t, hstores, does_of_exec hisfull (by decide) (by decide), _, by rfl, _,
    exec_edge_of_full (hit.withNow (hcfg ▸ hlast)).inRange het hfull⟩

/-- Settles O17: the count is `rb_count`, and the two flags compare it with `N-1` and 0. -/
theorem ringQueries : Obligations.RingQueries := by
  refine ⟨word_of_decode rfl, word_of_decode rfl, word_of_decode rfl, fun s hr => ?_⟩
  refine ⟨rbCount s, hr.count_iff.mpr rfl, Nat.le_sub_one_of_lt hr.rbCount_lt,
    does_of_exec (exec_count hr) hr.rbCount_fits (by decide), ?_, ?_⟩
  · rw [← bitVal_beq]
    exact does_of_exec (exec_isfull hr) (bitVal_fits _) (by decide)
  · rw [← bitVal_beq]
    exact does_of_exec (exec_isempty hr) (bitVal_fits _) (by decide)

/-- Settles O19: the first buffered sample is `rb_peek(0)`, and POP retires one sample. -/
theorem popEffect : Obligations.PopEffect := by
  refine ⟨word_of_decode rfl, fun s hi => ⟨fun hempty => ?_, fun v rest hcons => ?_⟩⟩
  · have hc : rbCount s = 0 := by rw [← buffered_length, hempty, List.length_nil]
    exact refuses_of_exec (exec_pop_of_empty hi.inRange hc)
  · have hc : 0 < rbCount s := by rw [← buffered_length, hcons]; exact Nat.succ_pos _
    obtain ⟨rest', hcons'⟩ := buffered_cons hc
    obtain ⟨rfl, rfl⟩ := List.cons.inj (hcons.symm.trans hcons')
    refine ⟨does_of_exec (exec_pop hi.inRange (Nat.ne_of_gt hc)) (rbPeek_fits 0 s) (by decide), ?_⟩
    exact (hi.ringOk.buffered_rbAdv hc).trans (by rw [hcons, List.drop_one, List.tail_cons])

/-- Settles O20: the sample at an offset below the count is `rb_peek` of it. -/
theorem peekEffect : Obligations.PeekEffect := by
  have hword (offset : BitVec 16) : Word (0x1400#16 ++ offset) .c (.peek offset) :=
    word_of_halves (i := .peek offset) rfl (show 0x14#8 ++ 0#8 = 0x1400#16 by decide) rfl
  refine ⟨hword, fun s offset hi => ⟨fun ho => ?_, fun v hv => ?_⟩⟩
  · rw [buffered_length] at ho
    exact refuses_of_exec (exec_peek_of_beyond hi.inRange ho)
  · rw [buffered_getElem?, Option.ite_none_right_eq_some] at hv
    obtain ⟨ho, hpeek⟩ := hv
    cases hpeek
    exact does_of_exec (exec_peek hi.inRange ho) (rbPeek_fits _ s) (by decide)

/-- Settles O21: ADV's next state is `rb_adv`, which drops the samples it retires. -/
theorem advEffect : Obligations.AdvEffect := by
  have hword (k : BitVec 16) : Word (0x1500#16 ++ k) .c (.adv k) :=
    word_of_halves (i := .adv k) rfl (show 0x15#8 ++ 0#8 = 0x1500#16 by decide) rfl
  refine ⟨hword, fun s k hi => ?_⟩
  rw [buffered_length]
  exact ⟨fun hk => refuses_of_exec (exec_adv_of_short hi.inRange hk), fun hk =>
    ⟨does_of_exec (exec_adv hi.inRange hk) (by decide) (by decide), hi.ringOk.buffered_rbAdv hk⟩⟩

/-- Settles O22: an equation for each of ENABLE's four branches. -/
theorem enableEffect : Obligations.EnableEffect :=
  ⟨word_of_decode rfl, word_of_decode rfl, fun _ hr =>
    ⟨fun hv => refuses_of_exec (exec_enable_of_unconfigured hr hv),
      fun hv he => does_of_exec (exec_enable_of_disabled hr hv he) (by decide) (by decide),
      fun hv he => does_of_exec (exec_enable_of_enabled hr hv he) (by decide) (by decide),
      does_of_exec (exec_enable_false hr) (by decide) (by decide)⟩⟩

end Sys2Proof.Claims
end

section
/-! What the reading commands leave unchanged. -/

namespace Sys2Proof.Machine

theorem composite_eq_false_of_reads {i : Instr} (h : reads i = true) : composite i = false := by
  cases i with
  | synctrain | decbit | step | service => cases h
  | _ => rfl

/-- A reading command responds on port C and does nothing else. -/
theorem Outcomes.eq_respond_of_reads {i : Instr} {s t : State} (h : Outcomes s i t) (hi : reads i = true) :
    ∃ st r0 r1, t = respond .c st r0 r1 [] s := by
  cases h with
  | read _ st r0 r1 => exact ⟨st, r0, r1, rfl⟩
  | ended _ _ hc => exact absurd hc (by simp [composite_eq_false_of_reads hi])
  | _ => cases hi

end Sys2Proof.Machine

namespace Sys2Proof.Claims

open Sys2Proof.Machine

/-- Settles O57: a reading command's answer is its response added to `s`. -/
theorem frameReads : Obligations.FrameReads := by
  intro i s t hi hexec
  obtain ⟨st, r0, r1, rfl⟩ := (outcomes_of_atom (composite_eq_false_of_reads hi) hexec).eq_respond_of_reads hi
  exact ⟨rfl, fun _ => rfl, fun _ _ => rfl⟩

end Sys2Proof.Claims
end

section
/-! The Pulse Classifier (41_classifier R150 to R153): which durations `classify` gives each result, the ends of a band, and
what CLASSIFY answers. -/

namespace Sys2Proof.Machine

open Sys2Proof.Claims

/-! ### The five results of `classify` -/

theorem inBand_iff_near {width tol : BitVec 16} {d : Nat} : inBand width tol d = true ↔ Near width tol d := by
  simp only [inBand, Near, Bool.and_eq_true, decide_eq_true_eq]
  omega

/-- `r` is the result of the first test of 41_classifier R150 that holds of the duration. -/
def FirstMatch (p : Profile) (d : Nat) : PulseType → Prop
  | .shortData => Near p.shortW p.tol d
  | .longData => ¬ Near p.shortW p.tol d ∧ Near p.longW p.tol d
  | .sync => ¬ Near p.shortW p.tol d ∧ ¬ Near p.longW p.tol d ∧ Near p.syncW p.tol d
  | .termination =>
    ¬ Near p.shortW p.tol d ∧ ¬ Near p.longW p.tol d ∧ ¬ Near p.syncW p.tol d ∧ p.termMin.toNat ≤ d
  | .invalid => ¬ Near p.shortW p.tol d ∧ ¬ Near p.longW p.tol d ∧ ¬ Near p.syncW p.tol d ∧ d < p.termMin.toNat

/-- Some result's tests hold of every duration: the last two complement each other. -/
theorem exists_firstMatch (p : Profile) (d : Nat) : ∃ r, FirstMatch p d r := by
  by_cases hshort : Near p.shortW p.tol d
  · exact ⟨.shortData, hshort⟩
  by_cases hlong : Near p.longW p.tol d
  · exact ⟨.longData, hshort, hlong⟩
  by_cases hsync : Near p.syncW p.tol d
  · exact ⟨.sync, hshort, hlong, hsync⟩
  by_cases hterm : p.termMin.toNat ≤ d
  · exact ⟨.termination, hshort, hlong, hsync, hterm⟩
  · exact ⟨.invalid, hshort, hlong, hsync, Nat.lt_of_not_le hterm⟩

section
variable {p : Profile} {d : Nat}

theorem FirstMatch.classify_eq {r : PulseType} (h : FirstMatch p d r) : classify p d = r := by
  cases r <;> simp only [FirstMatch, ← inBand_iff_near] at h
  case shortData => exact if_pos h
  case longData =>
    obtain ⟨hshort, hlong⟩ := h
    rw [classify, if_neg hshort, if_pos hlong]
  case sync =>
    obtain ⟨hshort, hlong, hsync⟩ := h
    rw [classify, if_neg hshort, if_neg hlong, if_pos hsync]
  case termination =>
    obtain ⟨hshort, hlong, hsync, hterm⟩ := h
    rw [classify, if_neg hshort, if_neg hlong, if_neg hsync, if_pos hterm]
  case invalid =>
    obtain ⟨hshort, hlong, hsync, hterm⟩ := h
    rw [classify, if_neg hshort, if_neg hlong, if_neg hsync, if_neg (Nat.not_le_of_lt hterm)]

theorem classify_eq_iff {r : PulseType} : classify p d = r ↔ FirstMatch p d r := by
  constructor
  · rintro rfl
    obtain ⟨r, hfirst⟩ := exists_firstMatch p d
    rw [hfirst.classify_eq]
    exact hfirst
  · exact FirstMatch.classify_eq

end

/-! ### The ends of a band -/

section
variable {width tol : BitVec 16} {d : Nat}

/-- Both ends of a band are inside it (41_classifier R152). -/
theorem near_of_band_end (h : (d : Int) = (width.toNat : Int) - tol.toNat ∨ d = width.toNat + tol.toNat) :
    Near width tol d := by
  unfold Near
  omega

/-- The durations next to a band are outside it (41_classifier R152). -/
theorem not_near_of_beyond_end
    (h : (d : Int) = (width.toNat : Int) - tol.toNat - 1 ∨ d = width.toNat + tol.toNat + 1) : ¬ Near width tol d := by
  unfold Near
  omega

end

/-- V1 of 10_state R41 keeps the two data bands apart (41_classifier R153). -/
theorem not_near_short_and_long {c : Config} {p : Profile} (h : ValidProfile c p) (d : Nat) :
    ¬ (Near p.shortW p.tol d ∧ Near p.longW p.tol d) := by
  obtain ⟨hapart, _⟩ := h
  rintro ⟨⟨_, hshort⟩, hlong, _⟩
  omega

/-! ### CLASSIFY -/

theorem pulseCode_fits (r : PulseType) : pulseCode r < 2 ^ 32 := by cases r <;> decide

theorem operandD_append (b : BitVec 1) (dur : BitVec 15) : operandD (b ++ dur) = dur.toNat :=
  congrArg BitVec.toNat BitVec.extractLsb'_append_eq_right

theorem exec_classify {s : State} (hr : InRange s) (hv : s.cfgValid = true) (imm : BitVec 16) :
    exec (.classify imm) s = .next (respondC (pulseCode (classify s.profile (operandD imm))) 0 s) := by
  simp only [exec, execClassify, completes_eq hr, hv, Bool.true_eq_false, ↓reduceIte]

/-- The word of CLASSIFY as its three fields (30_encoding R101, R103). -/
theorem classify_word_eq (b : BitVec 1) (dur : BitVec 15) : 0x3000#16 ++ b ++ dur = 0x30#8 ++ 0x00#8 ++ (b ++ dur) :=
  BitVec.append_assoc

theorem getLsbD_operand_top (b : BitVec 1) (dur : BitVec 15) : (b ++ dur).getLsbD 15 = b.getLsbD 0 := by
  rw [BitVec.getLsbD_append, if_neg (by decide)]

theorem word_classify_of_top_clear (dur : BitVec 15) :
    Word (0x3000#16 ++ 0#1 ++ dur) .c (.classify (0#1 ++ dur)) := by
  have hwf : (Instr.classify (0#1 ++ dur)).wf = true := beq_iff_eq.mpr (getLsbD_operand_top 0#1 dur)
  have hword : Word (0x30#8 ++ 0x00#8 ++ (0#1 ++ dur)) .c (.classify (0#1 ++ dur)) :=
    word_of_halves (i := .classify (0#1 ++ dur)) hwf rfl rfl
  exact classify_word_eq 0#1 dur ▸ hword

/-- A duration with bit 15 set is no operand of CLASSIFY (30_encoding R110). -/
theorem decode_error_of_classify_top_set (dur : BitVec 15) : ∃ e, decode .c (0x3000#16 ++ 1#1 ++ dur) = .error e := by
  have hop : opcodeField (0x30#8 ++ 0x00#8 ++ (1#1 ++ dur)) = 0x30 := opcodeField_word ..
  have htop : (imm16Field (0x30#8 ++ 0x00#8 ++ (1#1 ++ dur))).getLsbD 15 = true := by
    rw [imm16Field_word]
    exact getLsbD_operand_top 1#1 dur
  have hill : IllegalOn .c (0x30#8 ++ 0x00#8 ++ (1#1 ++ dur)) := by
    rw [illegalOn_iff]
    exact .inr (.inr (.inr (.inr (.inr (.inr ⟨hop, htop⟩)))))
  rw [classify_word_eq]
  exact decode_error_iff_illegalOn.mpr hill

end Sys2Proof.Machine

namespace Sys2Proof.Claims

open Sys2Proof.Machine

/-- Settles O25: each result's test, after the failure of those before it, is `FirstMatch`. -/
theorem classifyFirstMatch : Obligations.ClassifyFirstMatch := fun _ _ _ =>
  ⟨fun hshort => classify_eq_iff.mpr hshort,
    fun hshort hlong => classify_eq_iff.mpr ⟨hshort, hlong⟩,
    fun hshort hlong hsync => classify_eq_iff.mpr ⟨hshort, hlong, hsync⟩,
    fun hshort hlong hsync hterm => classify_eq_iff.mpr ⟨hshort, hlong, hsync, hterm⟩,
    fun hshort hlong hsync hterm => classify_eq_iff.mpr ⟨hshort, hlong, hsync, hterm⟩⟩

/-- Settles O27: the ends of a band are in it and the durations next to them are not, and a band's result is only for
durations in that band. -/
theorem bandEdges : Obligations.BandEdges := by
  intro p d
  refine ⟨fun hend => ?_, fun hend hshort => ?_, fun hend hshort hlong => ?_, fun hnext h => ?_, fun hnext h => ?_,
    fun hnext h => ?_, fun hshort hlong hsync hterm => classify_eq_iff.mpr ⟨hshort, hlong, hsync, hterm⟩⟩
  · exact classify_eq_iff.mpr (near_of_band_end hend)
  · exact classify_eq_iff.mpr ⟨hshort, near_of_band_end hend⟩
  · exact classify_eq_iff.mpr ⟨hshort, hlong, near_of_band_end hend⟩
  · exact not_near_of_beyond_end hnext (classify_eq_iff.mp h)
  · obtain ⟨_, hlong⟩ := classify_eq_iff.mp h
    exact not_near_of_beyond_end hnext hlong
  · obtain ⟨_, _, hsync⟩ := classify_eq_iff.mp h
    exact not_near_of_beyond_end hnext hsync

/-- Settles O28: V1 keeps the data bands apart, and a termination is outside all bands and at least `term_min`. -/
theorem oddProfiles : Obligations.OddProfiles := by
  intro c p d hvalid hd
  have hapart : ¬ (Near p.shortW p.tol d ∧ Near p.longW p.tol d) := not_near_short_and_long hvalid d
  refine ⟨hapart, fun hlong => ?_, fun hsync _ h => ?_, fun hterm h => ?_⟩
  · exact classify_eq_iff.mpr ⟨fun hshort => hapart ⟨hshort, hlong⟩, hlong⟩
  · obtain ⟨_, _, hoff, _⟩ := classify_eq_iff.mp h
    exact hoff hsync
  · obtain ⟨_, _, _, hreach⟩ := classify_eq_iff.mp h
    omega

/-- Settles O26: CLASSIFY's refusal stands in `needsProfile`; with a profile it answers `pulseCode` of the operand's low 15
bits. -/
theorem classifyEffect : Obligations.ClassifyEffect := by
  refine ⟨fun dur => ⟨word_classify_of_top_clear dur, decode_error_of_classify_top_set dur⟩, fun s dur hr => ⟨fun hv => ?_,
    fun hv => ?_⟩⟩
  · obtain ⟨hrefuses, _⟩ := needsProfile s (0#1 ++ dur) hr hv
    exact hrefuses
  · have hexec := exec_classify hr hv (0#1 ++ dur)
    rw [operandD_append] at hexec
    exact does_of_exec hexec (pulseCode_fits _) (by decide)

end Sys2Proof.Claims
end

section
/-! The Sync Detector's command (42_sync_detector R160, R161): what SYNCTRAIN answers in each branch, and that a list of
samples has one longest run of Sync samples at its head. -/

namespace Sys2Proof.Machine

open Sys2Proof.Claims

/-! ### What SYNCTRAIN answers -/

theorem syncThreshold_boundary (s : State) : syncThreshold (boundary s) = syncThreshold s := by
  simp only [syncThreshold, (EdgesFell.boundary s).profile]

theorem bitVal_syncSucceeds (n : Nat) (s : State) :
    bitVal (syncSucceeds n s) = if s.profile.minSync.toNat < n then 1 else 0 := by
  simp only [bitVal, syncSucceeds, decide_eq_true_eq]

/-- The count reported is a 32-bit value, also where the model leaves it free (log entry 2). -/
theorem reportedCount_fits (n : Nat) : reportedCount n < 2 ^ 32 := by
  unfold reportedCount
  split
  · assumption
  · exact (Config.wideCount n).isLt

section
variable {s : State} (hr : InRange s) (hv : s.cfgValid = true)
include hr hv

theorem exec_synctrain_of_short (hc : rbCount (boundary s) < syncThreshold s) :
    exec .synctrain s = .next (refuseC .precond (boundary s)) := by
  rw [← syncThreshold_boundary] at hc
  exact returns_eq hr (by simp only [synctrain, hv, hc, Bool.true_eq_false, ↓reduceIte])

theorem exec_synctrain {n : Nat} {t : State} (hc : syncThreshold s ≤ rbCount (boundary s))
    (ht : tryConsumeSyncTrain (boundary s) = some (n, t)) :
    exec .synctrain s = .next (respondC (bitVal (syncSucceeds n t)) (reportedCount n) t) := by
  rw [← syncThreshold_boundary] at hc
  exact returns_eq hr (by simp only [synctrain, hv, Nat.not_lt_of_le hc, ht, Bool.true_eq_false, ↓reduceIte])

/-- The detector's answer in the statements' form (42_sync_detector R161). -/
theorem answers_synctrain {n : Nat} {t : State} (hc : syncThreshold s ≤ rbCount (boundary s))
    (ht : tryConsumeSyncTrain (boundary s) = some (n, t)) (hp : t.profile = s.profile) :
    Answers .synctrain s t (if s.profile.minSync.toNat < n then 1 else 0) (reportedCount n) := by
  rw [← hp, ← bitVal_syncSucceeds]
  exact does_of_exec (exec_synctrain hr hv hc ht) (bitVal_fits _) (reportedCount_fits n)

end

/-! ### What SYNCTRAIN leaves -/

section
variable {s t : State}

theorem RingOnly.extremes_eq (h : RingOnly s t) : t.syncMin = s.syncMin ∧ t.syncMax = s.syncMax := by
  obtain ⟨_, _, _, _, _, _, _, _, _, _, rfl⟩ := h.frame
  exact ⟨rfl, rfl⟩

/-- The extremes that `BetweenAtoms` is told to allow may be read off the state after. -/
theorem RingOnly.betweenAtoms_extremes {mn mx : BitVec 15} (h : RingOnly { s with syncMin := mn, syncMax := mx } t) :
    BetweenAtoms { s with syncMin := t.syncMin, syncMax := t.syncMax } t := by
  obtain ⟨hmin, hmax⟩ := h.extremes_eq
  rw [hmin, hmax]
  exact h.betweenAtoms

end

/-! ### The longest run of Sync samples -/

/-- `run` is the longest run of Sync samples at the head of `run ++ rest`. -/
structure SyncRun (p : Profile) (run rest : List Nat) : Prop where
  sync : ∀ d ∈ run, classify p d = .sync
  ends : ∀ d l, rest = d :: l → classify p d ≠ .sync

theorem SyncRun.takeWhile_eq {p : Profile} {run rest : List Nat} (h : SyncRun p run rest) :
    (run ++ rest).takeWhile (fun d => decide (classify p d = .sync)) = run := by
  rw [List.takeWhile_append_of_pos fun d hd => decide_eq_true (h.sync d hd)]
  cases hrest : rest with
  | nil => exact List.append_nil run
  | cons d l => rw [List.takeWhile_cons_of_neg (by simpa using h.ends d l hrest), List.append_nil]

/-- The samples determine the run (42_sync_detector R160). -/
theorem SyncRun.unique {p : Profile} {run rest run' rest' : List Nat} (h : SyncRun p run rest) (h' : SyncRun p run' rest')
    (e : run ++ rest = run' ++ rest') : run = run' := by
  rw [← h.takeWhile_eq, e, h'.takeWhile_eq]

end Sys2Proof.Machine

namespace Sys2Proof.Claims

open Sys2Proof.Machine

/-- Settles O30: the edges at the first boundary decide the threshold test, and while the detector's loop (`Syncing`) retires
the run, later edges append. -/
theorem synctrainEffect : Obligations.SynctrainEffect := by
  intro s hi
  have hr : InRange s := hi.inRange
  obtain ⟨fell, happend, hquiet⟩ := appends_boundary hi.ringOk
  have hcount : rbCount (boundary s) = (buffered s ++ fell).length := by rw [← happend, buffered_length]
  refine ⟨fun hv => ?_, fun hv => ?_⟩
  · obtain ⟨_, hrefuses, _⟩ := needsProfile s 0 hr hv
    exact hrefuses
  by_cases hc : rbCount (boundary s) < syncThreshold s
  · have hring : RingOnly s (boundary s) := .boundary s
    obtain ⟨hmin, hmax⟩ := hring.extremes_eq
    exact ⟨boundary s, fell, hquiet, RingOnly.betweenAtoms_extremes (mn := s.syncMin) (mx := s.syncMax) hring, .inl
      ⟨hcount ▸ hc, happend, head_boundary s, hmin, hmax,
        does_of_exec (exec_synctrain_of_short hr hv hc) (by decide) (by decide)⟩⟩
  · have hc : syncThreshold s ≤ rbCount (boundary s) := Nat.le_of_not_lt hc
    obtain ⟨n, t, ht, hsync, hends⟩ := tryConsumeSyncTrain_samples (ringOk_boundary hi.ringOk)
    obtain ⟨later, retired, hsplit, rfl, hlater, hall, hmin, hmax⟩ := hsync.samples
    obtain ⟨mn, mx, hframe⟩ := hsync.frame
    have hfell : EdgesFell s (boundary s) := .boundary s
    have hprofile : t.profile = s.profile := hsync.reaches.evolves.profile.trans hfell.profile
    have hhead : t.head = (s.head + retired.length) % s.cfg.n := by rw [hsync.head, head_boundary, hfell.cfg]
    rw [hfell.profile] at hall hends
    rw [happend, List.append_assoc] at hsplit
    refine ⟨t, fell ++ later, fun hq => by rw [hquiet hq, hlater (hfell.portP_eq hq), List.append_nil],
      (((RingOnly.boundary s).withExtremes mn mx).trans hframe).betweenAtoms_extremes, .inr ⟨?_, retired, hsplit, hhead,
        hall, hends, hmin, hmax, answers_synctrain hr hv hc ht hprofile⟩⟩
    calc syncThreshold s
      _ ≤ (buffered s ++ fell).length := hcount ▸ hc
      _ ≤ (buffered s ++ (fell ++ later)).length := by simp only [List.length_append]; omega

/-- Settles O31: O30's statement with no edge to append; the retired run is the one the samples have, and it is shorter than
the ring, so that `r1` holds its length. -/
theorem synctrainAlone : Obligations.SynctrainAlone := by
  refine ⟨word_of_decode rfl, fun s hi hq => ?_⟩
  obtain ⟨hnocfg, hcfg⟩ := synctrainEffect s hi
  refine ⟨hnocfg, fun hv => ?_⟩
  obtain ⟨u, new, hnew, ⟨_, hstill⟩, houtcome⟩ := hcfg hv
  have hstill := hstill hq
  rw [hnew hq, List.append_nil] at houtcome
  obtain ⟨hshort, _, hhead, hmin, hmax, hdoes⟩ | ⟨henough, run, hsplit, hhead, hall, hends, hmin, hmax, hanswers⟩ := houtcome
  · have hu : u = { s with order := u.order } := hstill.trans (by rw [hhead, hmin, hmax])
    exact ⟨u.order, fun _ => hu ▸ hdoes, fun _ _ _ henough => absurd hshort (Nat.not_lt_of_le henough)⟩
  · refine ⟨u.order, fun hshort => absurd hshort (Nat.not_lt_of_le henough), fun retired rest e _ hsync hrest => ?_⟩
    obtain rfl : run = retired := SyncRun.unique ⟨hall, hends⟩ ⟨hsync, hrest⟩ (hsplit.symm.trans e)
    have hfits : run.length < 2 ^ 32 := by
      have hlen : run.length ≤ rbCount s := by rw [← buffered_length, e, List.length_append]; omega
      exact Nat.lt_of_le_of_lt hlen hi.inRange.rbCount_fits
    rw [if_pos hfits] at hanswers
    rw [hhead] at hstill
    exact ⟨u.syncMin, u.syncMax, hmin, hmax, hstill ▸ hanswers⟩

end Sys2Proof.Claims
end

section
/-! The Bit Decoder (43_bit_decoder R170 to R176): the three rules for a pair of durations, and what DECBIT answers and
retires, whatever edges fall between its atoms. -/

namespace Sys2Proof.Machine

open Sys2Proof.Claims

/-! ### The three rules -/

section
variable {p : Profile} {d0 d1 : Nat} {r : BitDecodeResult}

theorem primaryRule_eq_none {a b : PulseType} (hlong : ¬ (a = .longData ∧ b = .shortData))
    (hshort : ¬ (a = .shortData ∧ b = .longData)) : primaryRule a b = none := by
  unfold primaryRule
  split
  · exact absurd ⟨rfl, rfl⟩ hlong
  · exact absurd ⟨rfl, rfl⟩ hshort
  · rfl

/-- The model's window test is the two-sided bound of 43_bit_decoder R172 over the integers. -/
theorem fallbackRule_of_recovers (h : Recovers p d0 d1) :
    fallbackRule p d0 d1 = some (if d1 < d0 then .bit1 else .bit0) := by
  obtain ⟨hen, hsum, hne, hbelow, habove⟩ := h
  have hwindow : ¬ max d0 d1 / 4 < ((min d0 d1 : Nat) - ((d0 + d1) / 3 : Nat) : Int).natAbs := by omega
  simp only [fallbackRule, hen, inBand_iff_near.mpr hsum, hne, hwindow, Bool.true_eq_false, ↓reduceIte, apply_ite some]

theorem fallbackRule_eq_none (h : ¬ Recovers p d0 d1) : fallbackRule p d0 d1 = none := by
  simp only [fallbackRule]
  split
  · rfl
  split
  · rfl
  split
  · rfl
  split
  · rfl
  next hen hsum hne hwindow =>
    have hnear : Near p.syncW p.tol (d0 + d1) := inBand_iff_near.mp (eq_true_of_ne_false hsum)
    exact absurd ⟨eq_true_of_ne_false hen, hnear, hne, by omega, by omega⟩ h

theorem finalRule_eq_invalid {a b : PulseType} (h : ¬ (a = .shortData ∧ b = .termination)) :
    finalRule a b = .invalid := by
  unfold finalRule
  split
  · exact absurd ⟨rfl, rfl⟩ h
  · rfl

theorem decodePair_of_primary (h : primaryRule (classify p d0) (classify p d1) = some r) : decodePair p d0 d1 = r := by
  simp only [decodePair, h]

theorem decodePair_of_fallback (hprimary : primaryRule (classify p d0) (classify p d1) = none)
    (h : fallbackRule p d0 d1 = some r) : decodePair p d0 d1 = r := by
  simp only [decodePair, hprimary, h]

theorem decodePair_of_final (hprimary : primaryRule (classify p d0) (classify p d1) = none)
    (hfallback : fallbackRule p d0 d1 = none) : decodePair p d0 d1 = finalRule (classify p d0) (classify p d1) := by
  simp only [decodePair, hprimary, hfallback]

end

/-! ### The pair at the head -/

/-- From `s` to `u` the Bit Decoder gave `r` for the two oldest samples and retired them exactly if `r` is a bit
(43_bit_decoder R170, R174); `new` are the samples that edges added. -/
structure PairRead (s : State) (r : BitDecodeResult) (u : State) : Prop where
  ring : RingOnly s u
  head : u.head = if isBit r then (s.head + 2) % s.cfg.n else s.head
  samples : ∃ new d0 d1 rest, (s.portP = [] → new = []) ∧ buffered s ++ new = d0 :: d1 :: rest ∧
    decodePair s.profile d0 d1 = r ∧ buffered u = if isBit r then rest else d0 :: d1 :: rest

theorem tryDecodeBit_pairRead {s : State} (hr : RingOk s) (hc : 2 ≤ rbCount s) :
    ∃ r u, tryDecodeBit s = (r, u) ∧ PairRead s r u := by
  obtain ⟨u, hfell, e⟩ := tryDecodeBit_spec hr hc
  obtain ⟨hcount, _⟩ := hfell.kept hr
  obtain ⟨hru, _⟩ := hfell.ring hr
  obtain ⟨new, happend, hnew⟩ := hfell.appended hr
  obtain ⟨rest, hcons⟩ := buffered_cons_cons hc
  rw [hcons] at happend
  refine ⟨_, _, e, ?_, ?_, new, _, _, rest ++ new, hnew, by rw [hcons]; rfl, rfl, ?_⟩ <;> split
  · exact (RingOnly.edges hfell).trans (.rbAdv 2 u)
  · exact .edges hfell
  · rw [rbAdv_head, hfell.head_eq, hfell.cfg]
  · exact hfell.head_eq
  · rw [hru.buffered_rbAdv (Nat.le_trans hc hcount), happend]
    rfl
  · exact happend

/-- Edges that fall before the decoder reads only add samples. -/
theorem PairRead.after_edges {s t u : State} {r : BitDecodeResult} (h : PairRead t r u) (hfell : EdgesFell s t)
    (hr : RingOk s) : PairRead s r u := by
  obtain ⟨fell, happend, hquiet⟩ := hfell.appended hr
  obtain ⟨later, d0, d1, rest, hlater, hsplit, hdecode, hleft⟩ := h.samples
  refine ⟨(RingOnly.edges hfell).trans h.ring, ?_, fell ++ later, d0, d1, rest, fun hq => ?_, ?_, ?_, hleft⟩
  · rw [h.head, hfell.head_eq, hfell.cfg]
  · rw [hquiet hq, hlater (hfell.portP_eq hq), List.append_nil]
  · rw [← List.append_assoc, ← happend, hsplit]
  · rw [← hfell.profile, hdecode]

/-! ### What DECBIT answers -/

theorem bitCode_fits (r : BitDecodeResult) : bitCode r < 2 ^ 32 := by cases r <;> decide

section
variable {s : State} (hi : Inv s) (hv : s.cfgValid = true)
include hi hv

theorem exec_decbit_of_short (hc : rbCount (boundary s) < 2) :
    exec .decbit s = .next (refuseC .precond (boundary s)) := by
  simp only [exec, execDecbit, completes_eq hi.inRange, decbit, hv, hc, Bool.true_eq_false, ↓reduceIte]

theorem exec_decbit {r : BitDecodeResult} {u : State} (hc : 2 ≤ rbCount (boundary s))
    (e : tryDecodeBit (boundary s) = (r, u)) : exec .decbit s = .next (respondC (bitCode r) 0 u) := by
  simp only [exec, execDecbit, completes_eq hi.inRange, decbit, hv, Nat.not_lt_of_le hc, e, Bool.true_eq_false, ↓reduceIte]

theorem does_decbit_of_short (hc : rbCount (boundary s) < 2) : Does .decbit .c s (boundary s) .precond 0 0 [] :=
  does_of_exec (exec_decbit_of_short hi hv hc) (by decide) (by decide)

/-- With two samples DECBIT answers the code of the pair's result (43_bit_decoder R176). -/
theorem answers_decbit (hc : 2 ≤ rbCount (boundary s)) :
    ∃ r u, PairRead s r u ∧ Answers .decbit s u (bitCode r) 0 := by
  obtain ⟨r, u, e, hread⟩ := tryDecodeBit_pairRead (ringOk_boundary hi.ringOk) hc
  exact ⟨r, u, hread.after_edges (.boundary s) hi.ringOk,
    does_of_exec (exec_decbit hi hv hc e) (bitCode_fits r) (by decide)⟩

end

end Sys2Proof.Machine

namespace Sys2Proof.Claims

open Sys2Proof.Machine

/-- Settles O32: an equation for each rule, and the fallback answers exactly when `Recovers` holds. -/
theorem pairRules : Obligations.PairRules := by
  intro p d0 d1
  refine ⟨fun h0 h1 => decodePair_of_primary (by rw [h0, h1]; rfl), fun h0 h1 => decodePair_of_primary (by rw [h0, h1]; rfl),
    fun hlong hshort => ?_⟩
  have hprimary := primaryRule_eq_none hlong hshort
  refine ⟨fun hrec hlt => ?_, fun hrec hlt => ?_, fun hrec h0 h1 => ?_, fun hrec hterm => ?_⟩
  · exact decodePair_of_fallback hprimary (by rw [fallbackRule_of_recovers hrec, if_pos hlt])
  · exact decodePair_of_fallback hprimary (by rw [fallbackRule_of_recovers hrec, if_neg (Nat.lt_asymm hlt)])
  · rw [decodePair_of_final hprimary (fallbackRule_eq_none hrec), h0, h1]
    rfl
  · rw [decodePair_of_final hprimary (fallbackRule_eq_none hrec), finalRule_eq_invalid hterm]

/-- Settles O33: the edges at the first boundary decide the test for two samples, and `PairRead` says what each result
leaves. -/
theorem decbitEffect : Obligations.DecbitEffect := by
  refine ⟨word_of_decode rfl, fun s hi => ⟨fun hv => ?_, fun hv => ?_⟩⟩
  · obtain ⟨_, _, hrefuses, _⟩ := needsProfile s 0 hi.inRange hv
    exact hrefuses
  by_cases hc : rbCount (boundary s) < 2
  · obtain ⟨new, happend, hnew⟩ := appends_boundary hi.ringOk
    refine ⟨boundary s, new, hnew, (RingOnly.boundary s).betweenAtoms, .inl ⟨?_, happend, head_boundary s,
      does_decbit_of_short hi hv hc⟩⟩
    rwa [← happend, buffered_length]
  · obtain ⟨r, u, hread, hanswers⟩ := answers_decbit hi hv (Nat.le_of_not_lt hc)
    obtain ⟨new, d0, d1, rest, hnew, hsplit, hdecode, hleft⟩ := hread.samples
    have hhead := hread.head
    refine ⟨u, new, hnew, hread.ring.betweenAtoms, .inr ⟨d0, d1, rest, hsplit, ?_⟩⟩
    cases r with
    | bit0 => exact .inl ⟨hdecode, hanswers, hleft, hhead⟩
    | bit1 => exact .inr (.inl ⟨hdecode, hanswers, hleft, hhead⟩)
    | termination => exact .inr (.inr (.inl ⟨hdecode, hanswers, hleft, hhead⟩))
    | invalid => exact .inr (.inr (.inr ⟨hdecode, hanswers, hleft, hhead⟩))

/-- Settles O34: with no edge waiting the pair that DECBIT reads is the one buffered in `s`, and only the head and the
schedule move. -/
theorem decbitAlone : Obligations.DecbitAlone := by
  intro s hi hv hq
  obtain ⟨fell, happend, hquiet⟩ := appends_boundary hi.ringOk
  rw [hquiet hq, List.append_nil] at happend
  have hcount : (buffered s).length = rbCount (boundary s) := by rw [← happend, buffered_length]
  by_cases hc : rbCount (boundary s) < 2
  · obtain ⟨_, hstill⟩ := (RingOnly.boundary s).betweenAtoms
    have hboundary := hstill hq
    rw [head_boundary] at hboundary
    refine ⟨(boundary s).order, fun _ => hboundary ▸ does_decbit_of_short hi hv hc, fun d0 d1 rest e => ?_⟩
    rw [← hcount, e, List.length_cons, List.length_cons] at hc
    omega
  · obtain ⟨r, u, hread, hanswers⟩ := answers_decbit hi hv (Nat.le_of_not_lt hc)
    obtain ⟨new, _, _, _, hnew, hsplit, hdecode, _⟩ := hread.samples
    obtain ⟨_, hstill⟩ := hread.ring.betweenAtoms
    refine ⟨u.order, fun hshort => absurd (hcount ▸ hshort) hc, fun d0 d1 rest e => ?_⟩
    rw [hnew hq, List.append_nil, e] at hsplit
    cases hsplit
    rw [hdecode]
    rw [hstill hq, hread.head] at hanswers
    refine ⟨?_, ?_, ?_, ?_⟩ <;> (rintro rfl; exact hanswers)

end Sys2Proof.Claims
end

section
/-! STEP and SERVICE as runs of `fsm_step` (44_state_machine R190, R195, R197, R198): what STEP answers, which transitions of
`state` each command takes, and that the handlers SERVICE runs are counted by `rank`. -/

namespace Sys2Proof.Machine

open Sys2Proof.Claims

variable {s t u : State} {p : Progress}

/-! ### One handler -/

theorem fsmStep_evolves (hr : RingOk s) (h : fsmStep s = some (p, t)) : Evolves s t := by
  obtain ⟨_, _, e, hreach, _⟩ := fsmStep_spec hr
  cases h.symm.trans e
  exact hreach.evolves

/-- Only an enabled handler makes progress, along one of the transitions of 44_state_machine R195. -/
theorem fsmStep_progress (hr : RingOk s) (h : fsmStep s = some (.progress, t)) :
    s.enable = true ∧ Advances s.state t.state ∧ rank t < rank s := by
  obtain ⟨_, _, e, _, ⟨_, hp, _⟩ | ⟨_, hp, _⟩ | ⟨he, _, hadv, hrank⟩⟩ := fsmStep_spec hr <;> cases h.symm.trans e
  · cases hp
  · cases hp
  · exact ⟨he, hadv, hrank⟩

/-- A handler that blocks stays where it is, and that is not PostData; disabled, the block goes to SyncSeek. -/
theorem fsmStep_blocked (hr : RingOk s) (h : fsmStep s = some (.blocked, t)) :
    (s.enable = false ∧ t = { s with state := .syncSeek }) ∨
      (s.enable = true ∧ t.state = s.state ∧ s.state ≠ .postData) := by
  obtain ⟨_, _, e, _, ⟨he, _, ht⟩ | ⟨he, _, hst, hne⟩ | ⟨_, hp, _⟩⟩ := fsmStep_spec hr <;> cases h.symm.trans e
  · exact .inl ⟨he, ht⟩
  · exact .inr ⟨he, hst, hne⟩
  · cases hp

/-! ### What STEP answers -/

theorem progressCode_fits (p : Progress) : progressCode p < 2 ^ 32 := by cases p <;> decide

theorem stateCode_fits (st : ProtocolState) : stateCode st < 2 ^ 32 := by cases st <;> decide

theorem exec_step (hr : InRange s) (h : fsmStep s = some (p, t)) :
    exec .step s = .next (respondC (progressCode p) (stateCode t.state) t) :=
  returns_eq hr (by simp only [stepOnce, h])

theorem answers_step {st : ProtocolState} (hr : InRange s) (h : fsmStep s = some (p, t)) (hst : t.state = st) :
    Answers .step s t (progressCode p) (stateCode st) :=
  hst ▸ does_of_exec (exec_step hr h) (progressCode_fits p) (stateCode_fits _)

/-! ### One turn of SERVICE's loop -/

theorem iterate_serviceTurn_of_blocked {fuel count : Nat} (h : fsmStep s = some (.blocked, t)) :
    iterate serviceTurn (fuel + 1) count s = some (count, t) := by
  simp only [iterate, serviceTurn, h]

theorem iterate_serviceTurn_of_progress {fuel count : Nat} (h : fsmStep s = some (.progress, u)) :
    iterate serviceTurn (fuel + 1) count s = iterate serviceTurn fuel (min (count + 1) (2 ^ 32 - 1)) u := by
  simp only [iterate, serviceTurn, h]

/-! ### Who moves `state` -/

/-- An accepted SELDEV goes to SyncSeek (46_config_diag R231); no other single-atom command moves `state`. -/
theorem Outcomes.state_of_atom {i : Instr} (h : Outcomes s i t) (hi : composite i = false) :
    t.state = s.state ∨ (t.state = .syncSeek ∧ ∃ pid, i = .seldev pid) := by
  cases h with
  | selected pid => exact .inr ⟨rfl, pid, rfl⟩
  | ended _ _ hc => rw [hi] at hc; cases hc
  | _ => exact .inl rfl

theorem state_of_exec_synctrain (hr : RingOk s) (h : exec .synctrain s = .next t) : t.state = s.state := by
  obtain ⟨_, e⟩ := returns_next h
  obtain ⟨_, _, _, _, _, _, hring, rfl⟩ := synctrain_ringOnly hr e
  obtain ⟨_, _, _, _, _, _, _, _, _, _, rfl⟩ := hring.frame
  rfl

theorem state_of_exec_decbit (hr : RingOk s) (h : exec .decbit s = .next t) : t.state = s.state := by
  obtain ⟨_, rfl⟩ := completes_next h
  obtain ⟨_, _, _, hring, e⟩ := decbit_ringOnly hr
  obtain ⟨_, _, _, _, _, _, _, _, _, _, rfl⟩ := hring.frame
  rw [e]
  rfl

/-- Beside STEP, SERVICE and SELDEV no command moves `state` (44_state_machine R195). -/
theorem state_of_exec {i : Instr} (hr : RingOk s) (h : exec i s = .next t) (hstep : i ≠ .step) (hservice : i ≠ .service)
    (hseldev : ∀ pid, i ≠ .seldev pid) : t.state = s.state := by
  cases hc : composite i with
  | false =>
    obtain hkept | ⟨_, pid, rfl⟩ := (outcomes_of_atom hc h).state_of_atom hc
    · exact hkept
    · exact absurd rfl (hseldev pid)
  | true =>
    cases i with
    | synctrain => exact state_of_exec_synctrain hr h
    | decbit => exact state_of_exec_decbit hr h
    | step => exact absurd rfl hstep
    | service => exact absurd rfl hservice
    | _ => cases hc

/-- `Advances` as the list of 44_state_machine R195. -/
theorem Advances.listed {a b : ProtocolState} (h : Advances a b) :
    (a = .syncSeek ∧ b = .syncPulseTrain) ∨ (a = .syncPulseTrain ∧ b = .accumulateWait) ∨
      (a = .syncPulseTrain ∧ b = .syncSeek) ∨ (a = .accumulateWait ∧ b = .accumulateData) ∨
      (a = .accumulateData ∧ b = .postData) ∨ (a = .postData ∧ b = .syncSeek) := by
  cases a with
  | syncPulseTrain => obtain rfl | rfl := h <;> decide
  | syncSeek | accumulateWait | accumulateData | postData => cases h; decide

end Sys2Proof.Machine

namespace Sys2Proof.Claims

open Sys2Proof.Machine

/-! ### Handler after handler -/

variable {s t : State} {n : Nat}

theorem Ticks.le_rank (h : Ticks n s t) (hr : RingOk s) : n ≤ rank s := by
  induction n generalizing s with
  | zero => exact Nat.zero_le _
  | succ n ih =>
    obtain ⟨u, hu, hrest⟩ := h
    obtain ⟨_, _, hrank⟩ := fsmStep_progress hr hu
    have hle : n ≤ rank u := ih hrest ((fsmStep_evolves hr hu).ring hr).1
    omega

theorem Ticks.evolves (h : Ticks n s t) (hr : RingOk s) : Evolves s t := by
  induction n generalizing s with
  | zero => exact fsmStep_evolves hr h
  | succ n ih =>
    obtain ⟨u, hu, hrest⟩ := h
    have hfirst : Evolves s u := fsmStep_evolves hr hu
    exact hfirst.trans (ih hrest (hfirst.ring hr).1)

/-- No handler blocks in PostData (44_state_machine R196). -/
theorem Ticks.state_ne_postData (h : Ticks n s t) (hr : RingOk s) : t.state ≠ .postData := by
  induction n generalizing s with
  | zero =>
    obtain ⟨_, rfl⟩ | ⟨_, hst, hne⟩ := fsmStep_blocked hr h
    · nofun
    · rwa [hst]
  | succ n ih =>
    obtain ⟨u, hu, hrest⟩ := h
    exact ih hrest ((fsmStep_evolves hr hu).ring hr).1

/-- Progress lowers the rank, so some handler blocks (70_reset_and_hazards R296). -/
theorem exists_ticks (hr : RingOk s) : ∃ n t, Ticks n s t := by
  induction hrank : rank s using Nat.strongRecOn generalizing s with
  | ind r ih =>
    obtain ⟨p, u, hu, _⟩ := fsmStep_spec hr
    cases p with
    | blocked => exact ⟨0, u, hu⟩
    | progress =>
      obtain ⟨_, _, hlt⟩ := fsmStep_progress hr hu
      obtain ⟨n, t, ht⟩ := ih (rank u) (hrank ▸ hlt) ((fsmStep_evolves hr hu).ring hr).1 rfl
      exact ⟨n + 1, t, u, hu, ht⟩

/-- SERVICE's loop counts the handlers that make progress, saturating (44_state_machine R198). -/
theorem Ticks.iterate_eq {fuel count : Nat} (h : Ticks n s t) (hfuel : n < fuel) (hcount : count ≤ 2 ^ 32 - 1) :
    iterate serviceTurn fuel count s = some (min (count + n) (2 ^ 32 - 1), t) := by
  induction n generalizing s fuel count with
  | zero =>
    have hsum : min (count + 0) (2 ^ 32 - 1) = count := Nat.min_eq_left hcount
    obtain ⟨fuel, rfl⟩ := Nat.exists_eq_succ_of_ne_zero (Nat.ne_zero_of_lt hfuel)
    rw [iterate_serviceTurn_of_blocked h, hsum]
  | succ n ih =>
    have hsum : min (min (count + 1) (2 ^ 32 - 1) + n) (2 ^ 32 - 1) = min (count + (n + 1)) (2 ^ 32 - 1) := by omega
    obtain ⟨u, hu, hrest⟩ := h
    obtain ⟨fuel, rfl⟩ := Nat.exists_eq_succ_of_ne_zero (Nat.ne_zero_of_lt hfuel)
    rw [iterate_serviceTurn_of_progress hu, ih hrest (Nat.lt_of_succ_lt_succ hfuel) (Nat.min_le_right _ _), hsum]

theorem exec_service (hi : Inv s) (h : Ticks n s t) :
    exec .service s = .next (respondC (stateCode t.state) (min n (2 ^ 32 - 1)) t) := by
  have hfuel : n < serviceFuel s := Nat.lt_of_le_of_lt (h.le_rank hi.ringOk) (rank_lt_serviceFuel s)
  refine returns_eq hi.inRange ?_
  rw [service, h.iterate_eq hfuel (Nat.zero_le _), Nat.zero_add]

/-! ### The statements -/

/-- Settles O35: the first handler of a disabled block blocks. -/
theorem disabledStep : Obligations.DisabledStep := fun _ hr hoff =>
  ⟨does_of_exec (returns_eq hr (stepOnce_of_disabled hoff)) (by decide) (by decide),
    does_of_exec (returns_eq hr (service_of_disabled hoff)) (by decide) (by decide)⟩

/-- Settles O36: `fsm_step` always returns, and without a profile the block is disabled. -/
theorem stepRunsOneHandler : Obligations.StepRunsOneHandler := by
  refine ⟨word_of_decode rfl, fun s hi => ?_⟩
  obtain ⟨p, t, h, _⟩ := fsmStep_spec hi.ringOk
  refine ⟨p, t, h, answers_step hi.inRange h rfl, fun hv => ?_⟩
  exact (disabledStep s hi.inRange (hi.disabled_of_unconfigured hv)).1

/-- Settles O42: STEP's transitions are those of `fsm_step`, and the commands beside it are told by their outcomes. -/
theorem stateTransitions : Obligations.StateTransitions := by
  intro i s t hi hexec
  have hr : RingOk s := hi.ringOk
  refine ⟨?_, ?_, ?_, state_of_exec hr hexec⟩
  · rintro rfl hoff
    cases (exec_step hi.inRange (fsmStep_of_disabled hoff)).symm.trans hexec
    rfl
  · rintro rfl he
    obtain ⟨p, u, hu, _⟩ := fsmStep_spec hr
    cases (exec_step hi.inRange hu).symm.trans hexec
    cases p with
    | blocked =>
      obtain ⟨hoff, _⟩ | ⟨_, hst, _⟩ := fsmStep_blocked hr hu
      · rw [he] at hoff; cases hoff
      · exact .inl hst
    | progress =>
      obtain ⟨_, hadv, _⟩ := fsmStep_progress hr hu
      exact .inr hadv.listed
  · rintro pid rfl
    exact ((outcomes_of_atom rfl hexec).state_of_atom rfl).symm.imp_left And.left

/-- Settles O43: a run of handlers that ends in a blocked one exists and is no longer than the rank of `s`, which SERVICE's
fuel exceeds. -/
theorem serviceRunsUntilBlocked : Obligations.ServiceRunsUntilBlocked := by
  refine ⟨word_of_decode rfl, fun s hi => ?_⟩
  have hr : RingOk s := hi.ringOk
  obtain ⟨n, t, h⟩ := exists_ticks hr
  have hcount : n < 5 * (rbCount s + s.portP.length) + 10 := Nat.lt_of_le_of_lt (h.le_rank hr) (rank_lt_serviceFuel s)
  refine ⟨n, t, h, by rw [buffered_length]; omega, fun hoff => ?_, h.state_ne_postData hr,
    does_of_exec (exec_service hi h) (stateCode_fits _) (by omega)⟩
  cases n with
  | zero =>
    cases (fsmStep_of_disabled hoff).symm.trans h
    exact ⟨rfl, rfl⟩
  | succ n =>
    obtain ⟨_, hu, _⟩ := h
    cases (fsmStep_of_disabled hoff).symm.trans hu

end Sys2Proof.Claims
end

section
/-! STEP in each state (44_state_machine R191 to R194, R196), whatever edges fall between its atoms: SyncPulseTrain runs
SYNCTRAIN's detector, AccumulateData packs the leading pairs that are bits, PostData judges the message. -/

namespace Sys2Proof.Machine

open Sys2Proof.Claims

variable {s t u v : State} {p : Progress}

/-! ### The handler of each state -/

section
variable (he : s.enable = true)
include he

theorem fsmStep_of_syncSeek (hs : s.state = .syncSeek) : fsmStep s = hSyncSeek s := by
  simp only [fsmStep, he, hs, Bool.true_eq_false, ↓reduceIte]

theorem fsmStep_of_syncPulseTrain (hs : s.state = .syncPulseTrain) : fsmStep s = hSyncPulseTrain s := by
  simp only [fsmStep, he, hs, Bool.true_eq_false, ↓reduceIte]

theorem fsmStep_of_accumulateWait (hs : s.state = .accumulateWait) : fsmStep s = hAccumulateWait s := by
  simp only [fsmStep, he, hs, Bool.true_eq_false, ↓reduceIte]

theorem fsmStep_of_accumulateData (hs : s.state = .accumulateData) : fsmStep s = hAccumulateData s := by
  simp only [fsmStep, he, hs, Bool.true_eq_false, ↓reduceIte]

theorem fsmStep_of_postData (hs : s.state = .postData) : fsmStep s = some (.progress, hPostData s) := by
  simp only [fsmStep, he, hs, Bool.true_eq_false, ↓reduceIte]

end

theorem RingOnly.state_eq (h : RingOnly s t) : t.state = s.state := by
  obtain ⟨_, _, _, _, _, _, _, _, _, _, rfl⟩ := h.frame
  rfl

/-! ### SyncPulseTrain -/

/-- A response tells the state it was added to. -/
theorem eq_of_does {i : Instr} {port port' : Port} {st st' : Status} {r0 r1 r0' r1' : Nat} {data data' : List Byte}
    (h : Does i port s u st r0 r1 data) (hexec : exec i s = .next (respond port' st' r0' r1' data' t)) :
    u = t ∧ st = st' ∧ r0 = r0' % 2 ^ 32 := by
  obtain ⟨r, hr, hst, hr0, _⟩ := h
  have e : { u with responses := u.responses ++ [(port, r)] } = respond port' st' r0' r1' data' t :=
    Host.Outcome.next.inj (hr.symm.trans hexec)
  obtain ⟨hrecord, hlast⟩ := List.append_inj' (congrArg State.responses e) rfl
  have hblock := congrArg (fun x => { x with responses := u.responses }) e
  cases hlast
  exact ⟨hblock.trans (by rw [hrecord]; rfl), hst.symm, hr0.symm.trans (BitVec.toNat_ofNat ..)⟩

theorem bitVal_eq_ite {b : Bool} {ok : Prop} [Decidable ok] (h : (if ok then 1 else 0) = bitVal b) : b = true ↔ ok := by
  cases b <;> simpa [bitVal] using h

section
variable (hi : Inv s) (hv : s.cfgValid = true)
include hi hv

/-- Where SYNCTRAIN is refused for want of samples, STEP blocks (44_state_machine R192, 42_sync_detector R161). -/
theorem hSyncPulseTrain_of_refused (h : Does .synctrain .c s u .precond 0 0 []) :
    hSyncPulseTrain s = some (.blocked, u) := by
  by_cases hc : rbCount (boundary s) < syncThreshold s
  · obtain ⟨rfl, _⟩ := eq_of_does h (exec_synctrain_of_short hi.inRange hv hc)
    rw [← syncThreshold_boundary] at hc
    simp only [hSyncPulseTrain, hc, ↓reduceIte]
  · obtain ⟨n, t, ht, _⟩ := tryConsumeSyncTrain_spec (ringOk_boundary hi.ringOk)
    obtain ⟨_, hst, _⟩ := eq_of_does h (exec_synctrain hi.inRange hv (Nat.le_of_not_lt hc) ht)
    cases hst

/-- Where SYNCTRAIN answers, STEP makes progress from the state it leaves, along the branch that its `r0` tells. -/
theorem hSyncPulseTrain_of_answered {ok : Prop} [Decidable ok] {r1 : Nat}
    (h : Answers .synctrain s u (if ok then 1 else 0) r1) :
    hSyncPulseTrain s = some (.progress, if ok then { u with bitIndex := 0, oversize := false, state := .accumulateWait }
      else { u with state := .syncSeek }) := by
  by_cases hc : rbCount (boundary s) < syncThreshold s
  · obtain ⟨_, hst, _⟩ := eq_of_does h (exec_synctrain_of_short hi.inRange hv hc)
    cases hst
  · obtain ⟨n, t, ht, _⟩ := tryConsumeSyncTrain_spec (ringOk_boundary hi.ringOk)
    obtain ⟨rfl, _, hr0⟩ := eq_of_does h (exec_synctrain hi.inRange hv (Nat.le_of_not_lt hc) ht)
    rw [Nat.mod_eq_of_lt (bitVal_fits _)] at hr0
    rw [← syncThreshold_boundary] at hc
    have hbranch : syncSucceeds n u = true ↔ ok := bitVal_eq_ite hr0
    simp only [hSyncPulseTrain, hc, ht, hbranch, ↓reduceIte]
    split <;> rfl

end

/-! ### AccumulateWait -/

theorem hAccumulateWait_of_short (h : rbCount (boundary s) < 16 * s.profile.minMsgBytes.toNat) :
    hAccumulateWait s = some (.blocked, boundary s) := by
  rw [← (EdgesFell.boundary s).profile] at h
  simp only [hAccumulateWait, h, ↓reduceIte]

theorem hAccumulateWait_of_enough (h : 16 * s.profile.minMsgBytes.toNat ≤ rbCount (boundary s)) :
    hAccumulateWait s = some (.progress, { boundary s with state := .accumulateData }) := by
  rw [← (EdgesFell.boundary s).profile] at h
  simp only [hAccumulateWait, Nat.not_lt_of_le h, ↓reduceIte]

/-! ### AccumulateData -/

theorem isBit_eq_true_iff {r : BitDecodeResult} : isBit r = true ↔ r = .bit0 ∨ r = .bit1 := by cases r <;> decide

theorem isBit_eq_false_iff {r : BitDecodeResult} : isBit r = false ↔ r = .termination ∨ r = .invalid := by
  cases r <;> decide

/-- A list whose pairs at `0, 2, ..` decode to `bits` begins with samples that decode to them. -/
theorem decodesTo_take {q : Profile} : ∀ {bits : List Bool} {l : List Nat}, 2 * bits.length ≤ l.length →
    (∀ j b, bits[j]? = some b → ∃ d0 d1, l[2 * j]? = some d0 ∧ l[2 * j + 1]? = some d1 ∧
      decodePair q d0 d1 = bitResult b) → DecodesTo q (l.take (2 * bits.length)) bits
  | [], _, _, _ => trivial
  | b :: bits, d0 :: d1 :: l, hlen, hpairs => by
    obtain ⟨_, _, ⟨⟩, ⟨⟩, hdecode⟩ := hpairs 0 b rfl
    exact ⟨hdecode, decodesTo_take (by simp only [List.length_cons] at hlen; omega) fun j b' hj => hpairs (j + 1) b' hj⟩
  | _ :: _, [_], hlen, _ => by simp only [List.length_cons, List.length_nil] at hlen; omega
  | _ :: _, [], hlen, _ => by simp only [List.length_cons, List.length_nil] at hlen; omega

/-- The samples retired by the collection decode to its bits; `new` are the samples that edges added. -/
theorem Collecting.decodesTo {bits : List Bool} (h : Collecting s bits u) : ∃ new, (s.portP = [] → new = []) ∧
    ∃ pairs, buffered s ++ new = pairs ++ buffered u ∧ DecodesTo s.profile pairs bits := by
  obtain ⟨new, hnew, hleft, hlen, hpairs⟩ := h.samples
  exact ⟨new, hnew, _, by rw [hleft, List.take_append_drop], decodesTo_take hlen hpairs⟩

/-- From `s` to `u` the `bits` were put into the pending buffer from `bit_index` on, within the size the profile gives, and
nothing else was written beside the ring (44_state_machine R194). -/
structure Packed (s : State) (bits : List Bool) (u : State) : Prop where
  ring : RingOnly { s with mb0 := u.mb0, mb1 := u.mb1, bitIndex := u.bitIndex } u
  index : u.bitIndex.toNat = s.bitIndex.toNat + bits.length
  bound : u.bitIndex.toNat ≤ 8 * s.profile.maxMsgBytes.toNat
  stored : ∀ j b, bits[j]? = some b → messageBit s.pend (s.bitIndex.toNat + j) u = b
  kept : ∀ k, (k < s.bitIndex.toNat ∨ u.bitIndex.toNat ≤ k) → messageBit s.pend k u = messageBit s.pend k s
  other : ∀ i, mbRead (!s.pend) i u = mbRead (!s.pend) i s

theorem Collecting.packed {bits : List Bool} (h : Collecting s bits u) (hi : Inv s) : Packed s bits u where
  ring := by
    obtain ⟨_, _, _, hframe⟩ := h.frame
    obtain ⟨_, _, _, _, _, _, _, _, _, _, rfl⟩ := hframe.frame
    exact hframe
  index := h.index
  bound := by
    cases bits with
    | nil => exact h.index ▸ hi.bitIndexOk
    | cons b bits => exact h.bound nofun
  stored := h.stored
  kept := by rw [h.index]; exact h.kept
  other i := by simp only [mbRead, h.other]

/-- What follows in the ring leaves the packed bits. -/
theorem Packed.then_ring {bits : List Bool} (h : Packed s bits u) (hv : RingOnly u v) : Packed s bits v := by
  have hring := h.ring.trans hv
  obtain ⟨_, _, _, _, _, _, _, _, _, _, rfl⟩ := hv.frame
  exact ⟨hring, h.index, h.bound, h.stored, h.kept, h.other⟩

theorem Packed.state_eq {bits : List Bool} (h : Packed s bits u) : u.state = s.state := h.ring.state_eq

/-! ### PostData -/

/-- The attempt and the mark of an oversized message, field by field (44_state_machine R196). -/
theorem noteAttempt_eq (s : State) : noteAttempt s =
    { s with attempts := satAdd1 s.cfg.ctrW s.attempts,
             errors := if s.oversize then satAdd1 s.cfg.ctrW s.errors else s.errors,
             events := s.events ++ if s.oversize then [.oversized (byteCount s)] else [] } := by
  cases ho : s.oversize with
  | false =>
    simp only [noteAttempt, countAttempt, ho, Bool.false_eq_true, ↓reduceIte, List.append_nil]
  | true => simp only [noteAttempt, countAttempt, countError, raise, ho, ↓reduceIte]

@[simp] theorem noteAttempt_bitIndex (s : State) : (noteAttempt s).bitIndex = s.bitIndex := by rw [noteAttempt_eq]

@[simp] theorem noteAttempt_profile (s : State) : (noteAttempt s).profile = s.profile := by rw [noteAttempt_eq]

@[simp] theorem noteAttempt_avail (s : State) : (noteAttempt s).avail = s.avail := by rw [noteAttempt_eq]

theorem isMalformed_iff : isMalformed s = true ↔ s.bitIndex.toNat = 0 ∨ s.bitIndex.toNat % 8 ≠ 0 := by
  simp only [isMalformed, Bool.or_eq_true, beq_iff_eq, bne_iff_ne]

theorem hPostData_of_malformed (h : s.bitIndex.toNat = 0 ∨ s.bitIndex.toNat % 8 ≠ 0) :
    hPostData s = { raise (.malformed s.bitIndex.toNat) (countError (noteAttempt s)) with state := .syncSeek } := by
  have hm : isMalformed (noteAttempt s) = true := isMalformed_iff.mpr (by rwa [noteAttempt_bitIndex])
  simp only [hPostData, judgeMessage, hm, ↓reduceIte, noteAttempt_bitIndex]

section
variable (h0 : s.bitIndex.toNat ≠ 0) (h8 : s.bitIndex.toNat % 8 = 0)
include h0 h8

theorem isMalformed_noteAttempt_eq_false : isMalformed (noteAttempt s) = false := by
  rw [← Bool.not_eq_true, isMalformed_iff, noteAttempt_bitIndex]
  omega

theorem hPostData_of_undersized (h : s.bitIndex.toNat / 8 < s.profile.minMsgBytes.toNat) : hPostData s =
    { raise (.undersized (s.bitIndex.toNat / 8)) (countError (noteAttempt s)) with state := .syncSeek } := by
  simp only [hPostData, judgeMessage, isMalformed_noteAttempt_eq_false h0 h8, byteCount, noteAttempt_bitIndex,
    noteAttempt_profile, h, Bool.false_eq_true, ↓reduceIte]

theorem hPostData_of_unread (h : s.profile.minMsgBytes.toNat ≤ s.bitIndex.toNat / 8) (ha : s.avail = true) :
    hPostData s =
      { raise (.overrun (s.bitIndex.toNat / 8)) (countOverrun (noteAttempt s)) with state := .syncSeek } := by
  simp only [hPostData, judgeMessage, isMalformed_noteAttempt_eq_false h0 h8, byteCount, noteAttempt_bitIndex,
    noteAttempt_profile, noteAttempt_avail, Nat.not_lt_of_le h, ha, Bool.false_eq_true, ↓reduceIte]

theorem hPostData_of_room (h : s.profile.minMsgBytes.toNat ≤ s.bitIndex.toNat / 8) (ha : s.avail = false) :
    hPostData s = { raise (.published (s.bitIndex.toNat / 8)) { noteAttempt s with
      readyLen := BitVec.ofNat 8 (s.bitIndex.toNat / 8), pend := !(noteAttempt s).pend, avail := true } with
        state := .syncSeek } := by
  simp only [hPostData, judgeMessage, isMalformed_noteAttempt_eq_false h0 h8, byteCount, noteAttempt_bitIndex,
    noteAttempt_profile, noteAttempt_avail, Nat.not_lt_of_le h, ha, Bool.false_eq_true, ↓reduceIte]

end

/-- `errors` moves at most once: an oversized message is neither malformed nor undersized (44_state_machine R196). -/
theorem hPostData_errors_le (h : Inv s) (he : s.enable = true) : (hPostData s).errors ≤ s.errors + 1 := by
  obtain ⟨_, e⟩ := hPostData_eq s
  rw [e]
  have hone := satAdd1_le s.cfg.ctrW s.errors
  cases ho : s.oversize with
  | false =>
    simp only [Bool.false_eq_true, ↓reduceIte]
    split <;> omega
  | true =>
    obtain ⟨hmal, hunder⟩ := h.oversize_ok (h.enabled he) ho
    simpa only [hmal, hunder, decide_false, Bool.or_self, Bool.false_eq_true, ↓reduceIte] using hone

end Sys2Proof.Machine

namespace Sys2Proof.Claims

open Sys2Proof.Machine

/-- Settles O37: `Seeking` tells what the handler's loop discards, and its end what it found. -/
theorem stepSyncSeek : Obligations.StepSyncSeek := by
  intro s hi he hs
  obtain ⟨p, t, u, h, hseek, hend⟩ := hSyncSeek_samples hi.ringOk
  rw [← fsmStep_of_syncSeek he hs] at h
  obtain ⟨new, gone, hsplit, hnew, hhead, hall⟩ := hseek.samples
  refine ⟨u, new, gone, hnew, hseek.frame.betweenAtoms, hsplit, hhead, hall, ?_⟩
  obtain ⟨rfl, rfl, hempty⟩ | ⟨rfl, rfl, d, rest, hcons, hsync⟩ := hend
  · exact .inl ⟨hempty, answers_step hi.inRange h (hseek.frame.state_eq.trans hs)⟩
  · exact .inr ⟨d, rest, hcons, hsync, answers_step hi.inRange h rfl⟩

/-- Settles O38: SYNCTRAIN's effect (O30) with the handler's own writes, since both run the same detector. -/
theorem stepSyncPulseTrain : Obligations.StepSyncPulseTrain := by
  intro s hi he hs
  have hv : s.cfgValid = true := hi.enabled he
  have hfsm := fsmStep_of_syncPulseTrain he hs
  obtain ⟨_, hcfg⟩ := synctrainEffect s hi
  obtain ⟨u, new, hnew, hbetween, houtcome⟩ := hcfg hv
  refine ⟨u, new, hnew, hbetween, ?_⟩
  obtain ⟨hshort, hleft, hhead, hmin, hmax, hdoes⟩ |
    ⟨henough, run, hsplit, hhead, hall, hends, hmin, hmax, hanswers⟩ := houtcome
  · have hst : u.state = .syncPulseTrain := (congrArg State.state hbetween.1).trans hs
    exact .inl ⟨hshort, hleft, hhead, hmin, hmax,
      answers_step hi.inRange (hfsm.trans (hSyncPulseTrain_of_refused hi hv hdoes)) hst⟩
  · have h := hfsm.trans (hSyncPulseTrain_of_answered hi hv hanswers)
    refine .inr ⟨henough, run, hsplit, hhead, hall, hends, hmin, hmax, fun hlong => ?_, fun hshort => ?_⟩
    · rw [if_pos hlong] at h
      exact answers_step hi.inRange h rfl
    · rw [if_neg (Nat.not_lt_of_le hshort)] at h
      exact answers_step hi.inRange h rfl

/-- Settles O39: the handler only looks at the count that the edges at its one boundary leave. -/
theorem stepAccumulateWait : Obligations.StepAccumulateWait := by
  intro s hi he hs
  have hfsm := fsmStep_of_accumulateWait he hs
  obtain ⟨new, happend, hnew⟩ := appends_boundary hi.ringOk
  refine ⟨boundary s, new, hnew, (RingOnly.boundary s).betweenAtoms, happend, head_boundary s, ?_⟩
  rw [buffered_length]
  obtain hc | hc := Nat.lt_or_ge (rbCount (boundary s)) (16 * s.profile.minMsgBytes.toNat)
  · exact .inl ⟨hc, answers_step hi.inRange (hfsm.trans (hAccumulateWait_of_short hc)) ((state_boundary s).trans hs)⟩
  · exact .inr ⟨hc, answers_step hi.inRange (hfsm.trans (hAccumulateWait_of_enough hc)) rfl⟩

/-- Settles O40: `Collecting` tells which pairs the handler's loop packed, and `Collected` in which of the three ways it
ended. -/
theorem stepAccumulateData : Obligations.StepAccumulateData := by
  intro s hi he hs
  obtain ⟨p, t, bits, u, h, hcollecting, hend⟩ := hAccumulateData_bits hi.ringOk (hi.mbMem s.pend).1
  rw [← fsmStep_of_accumulateData he hs] at h
  obtain ⟨new, hnew, pairs, hsplit, hdecodes⟩ := hcollecting.decodesTo
  have hpacked : Packed s bits u := hcollecting.packed hi
  have hhead := hcollecting.head
  cases hend with
  | waits hfew =>
    exact ⟨t, new, bits, buffered t, hnew, hpacked.ring.betweenAtoms, ⟨pairs, hsplit, hdecodes⟩, hpacked.index,
      hpacked.bound, hpacked.stored, hpacked.kept, hpacked.other,
      .inl ⟨hfew, rfl, hhead, answers_step hi.inRange h (hpacked.state_eq.trans hs)⟩⟩
  | full d0 d1 more v later hcons hbit hfull hring _ hheadv hleft hlater =>
    have hpackedv : Packed s bits v := hpacked.then_ring hring
    have hindex : v.bitIndex.toNat = 8 * s.profile.maxMsgBytes.toNat := by
      have hsame := hpackedv.index.trans hpacked.index.symm
      exact Nat.le_antisymm hpackedv.bound (hsame ▸ hfull)
    refine ⟨v, new ++ later, bits, d0 :: d1 :: (more ++ later), fun hq => by rw [hnew hq, hlater hq, List.append_nil],
      hpackedv.ring.betweenAtoms, ⟨pairs, ?_, hdecodes⟩, hpackedv.index, hpackedv.bound, hpackedv.stored, hpackedv.kept,
      hpackedv.other, .inr (.inl ⟨d0, d1, _, rfl, isBit_eq_true_iff.mp hbit, hindex, hleft, ?_,
        answers_step hi.inRange h rfl⟩)⟩
    · rw [← List.append_assoc, hsplit, hcons, List.append_assoc]
      rfl
    · rw [hheadv, hhead, Nat.mod_add_mod]
  | ends d0 d1 more hcons hbit =>
    exact ⟨u, new, bits, buffered u, hnew, hpacked.ring.betweenAtoms, ⟨pairs, hsplit, hdecodes⟩, hpacked.index,
      hpacked.bound, hpacked.stored, hpacked.kept, hpacked.other,
      .inr (.inr ⟨d0, d1, more, hcons, isBit_eq_false_iff.mp hbit, rfl, hhead, answers_step hi.inRange h rfl⟩)⟩

/-- Settles O41: an equation for each of the handler's four cases, and one for what it notes before. -/
theorem stepPostData : Obligations.StepPostData := by
  intro s attempts errors top noted hi he hs htop hattempts herrors hnoted
  subst htop hattempts herrors hnoted
  have hr : InRange s := hi.inRange
  have h := fsmStep_of_postData he hs
  refine ⟨fun hmal => ?_, fun h0 h8 hunder => ?_, fun h0 h8 hmin => ⟨fun ha => ?_, fun ha => ?_⟩, fun t hexec => ?_⟩
  · rw [hPostData_of_malformed hmal, noteAttempt_eq] at h
    exact answers_step hr h rfl
  · rw [hPostData_of_undersized h0 h8 hunder, noteAttempt_eq] at h
    exact answers_step hr h rfl
  · rw [hPostData_of_unread h0 h8 hmin ha, noteAttempt_eq] at h
    exact answers_step hr h rfl
  · rw [hPostData_of_room h0 h8 hmin ha, noteAttempt_eq] at h
    refine ⟨_, ?_, answers_step hr h rfl⟩
    have hbound := hi.bitIndexOk
    have hmax : s.profile.maxMsgBytes.toNat < 2 ^ 8 := s.profile.maxMsgBytes.isLt
    exact (BitVec.toNat_ofNat ..).trans (Nat.mod_eq_of_lt (by omega))
  · cases (exec_step hr h).symm.trans hexec
    exact hPostData_errors_le hi he

end Sys2Proof.Claims
end

section
/-! The round trip (44_state_machine R199): SERVICE takes a buffered message through the five states, STEP's statements saying
what each handler does, and TAKE delivers the bytes whose bits the pulse pairs carried. -/

namespace Sys2Proof.Claims

open Sys2Proof.Machine

variable {s t : State} {q : Profile}

/-! ### Pulse pairs and bits -/

theorem bitsOf_cons (v : Byte) (bytes : List Byte) :
    bitsOf (v :: bytes) = (List.range 8).map (fun j => v.getLsbD (7 - j)) ++ bitsOf bytes := rfl

theorem bitsOf_length (bytes : List Byte) : (bitsOf bytes).length = 8 * bytes.length := by
  induction bytes with
  | nil => rfl
  | cons v bytes ih =>
    rw [bitsOf_cons, List.length_append, ih, List.length_map, List.length_range, List.length_cons]
    omega

/-- Bit `j` of byte `i`, most significant first, is bit number `8 i + j` (20_memory R72). -/
theorem bitsOf_getElem? {bytes : List Byte} {i j : Nat} {v : Byte} (hv : bytes[i]? = some v) (hj : j < 8) :
    (bitsOf bytes)[8 * i + j]? = some (v.getLsbD (7 - j)) := by
  induction bytes generalizing i with
  | nil => cases hv
  | cons w bytes ih =>
    rw [bitsOf_cons]
    cases i with
    | zero =>
      cases hv
      rw [List.getElem?_append_left (by simpa using hj)]
      simp [hj]
    | succ i =>
      have hlen : ((List.range 8).map (fun j => w.getLsbD (7 - j))).length = 8 := rfl
      have hindex : 8 * (i + 1) + j - 8 = 8 * i + j := by omega
      rw [List.getElem?_append_right (by omega), hlen, hindex, ih hv]

theorem DecodesTo.length : ∀ {l : List Nat} {bits : List Bool}, DecodesTo q l bits → l.length = 2 * bits.length
  | [], [], _ => rfl
  | _ :: _ :: _, _ :: _, ⟨_, h⟩ => by
    have hrest := h.length
    simp only [List.length_cons]
    omega

theorem bitResult_inj : ∀ {b b' : Bool}, bitResult b = bitResult b' → b = b' := by decide

/-- A result that ends a message is no bit. -/
theorem not_bit_of_end {r : BitDecodeResult} (hend : r = .termination ∨ r = .invalid) : ¬ (r = .bit0 ∨ r = .bit1) := by
  obtain rfl | rfl := hend <;> decide

theorem bit_of_eq_bitResult {r : BitDecodeResult} {b : Bool} (h : r = bitResult b) : r = .bit0 ∨ r = .bit1 :=
  isBit_eq_true_iff.mp ((isBit_iff r).mpr ⟨b, h⟩)

/-- Where a pair that is no bit ends the `pulses`, other leading pairs that are bits are all of `pulses`, or stop before a
further bit. -/
theorem DecodesTo.compare {d0 d1 : Nat} {more rest : List Nat}
    (hend : decodePair q d0 d1 = .termination ∨ decodePair q d0 d1 = .invalid) :
    ∀ {pairs pulses : List Nat} {bits' bits : List Bool}, DecodesTo q pairs bits' → DecodesTo q pulses bits →
      pairs ++ rest = pulses ++ d0 :: d1 :: more → (bits' = bits ∧ rest = d0 :: d1 :: more) ∨
        (bits'.length < bits.length ∧ ∃ e0 e1 l, rest = e0 :: e1 :: l ∧
          (decodePair q e0 e1 = .bit0 ∨ decodePair q e0 e1 = .bit1))
  | [], [], [], [], _, _, e => .inl ⟨rfl, e⟩
  | [], _ :: _ :: _, [], _ :: _, _, ⟨hb, _⟩, e => .inr ⟨Nat.succ_pos _, _, _, _, e, bit_of_eq_bitResult hb⟩
  | _ :: _ :: _, [], _ :: _, [], ⟨hb, _⟩, _, e => by
    cases e
    exact absurd (bit_of_eq_bitResult hb) (not_bit_of_end hend)
  | _ :: _ :: _, _ :: _ :: _, b' :: _, b :: _, ⟨hb', hpairs⟩, ⟨hb, hpulses⟩, e => by
    simp only [List.cons_append, List.cons.injEq] at e
    obtain ⟨rfl, rfl, e⟩ := e
    have hsame : b' = b := bitResult_inj (hb'.symm.trans hb)
    obtain ⟨rfl, hrest⟩ | ⟨hlt, hfurther⟩ := hpairs.compare hend hpulses e
    · exact .inl ⟨by rw [hsame], hrest⟩
    · exact .inr ⟨Nat.succ_lt_succ hlt, hfurther⟩

/-! ### STEP's statements as facts about `fsm_step` -/

theorem progress_of_answers {r1 : Nat} (hi : Inv s) (h : Answers .step s t 1 r1) : fsmStep s = some (.progress, t) := by
  obtain ⟨p, u, hu, _⟩ := fsmStep_spec hi.ringOk
  obtain ⟨rfl, _, hr0⟩ := eq_of_does h (exec_step hi.inRange hu)
  cases p with
  | progress => exact hu
  | blocked => cases hr0

section
variable {u : State} (h : BetweenAtoms s u)
include h

theorem BetweenAtoms.avail_eq : u.avail = s.avail := (congrArg State.avail h.1 :)

theorem BetweenAtoms.pend_eq : u.pend = s.pend := (congrArg State.pend h.1 :)

theorem BetweenAtoms.bitIndex_eq : u.bitIndex = s.bitIndex := (congrArg State.bitIndex h.1 :)

end

/-- An enabled block in state `st` with `samples` buffered, no edge waiting and no message waiting. -/
structure Ready (q : Profile) (st : ProtocolState) (samples : List Nat) (s : State) : Prop where
  inv : Inv s
  enabled : s.enable = true
  quiet : s.portP = []
  free : s.avail = false
  profile : s.profile = q
  state : s.state = st
  samples : buffered s = samples

theorem Ready.next {st st' : ProtocolState} {samples samples' : List Nat} (h : Ready q st samples s)
    (hstep : fsmStep s = some (.progress, t)) (havail : t.avail = s.avail) (hst : t.state = st')
    (hsamples : buffered t = samples') : Ready q st' samples' t := by
  have hev : Evolves s t := fsmStep_evolves h.inv.ringOk hstep
  exact ⟨hev.inv h.inv, hev.enable.trans h.enabled, (hev.quiet h.quiet).1, havail.trans h.free,
    hev.profile.trans h.profile, hst, hsamples⟩

/-! ### The five handlers of a message -/

theorem Ready.seek {d : Nat} {l : List Nat} (h : Ready q .syncSeek (d :: l) s) (hd : classify q d = .sync) :
    ∃ t, fsmStep s = some (.progress, t) ∧ Ready q .syncPulseTrain (d :: l) t := by
  obtain ⟨u, new, gone, hnew, hbetween, hsplit, _, hgone, hend⟩ := stepSyncSeek s h.inv h.enabled h.state
  rw [hnew h.quiet, List.append_nil, h.samples] at hsplit
  cases gone with
  | cons x gone =>
    cases hsplit
    exact absurd (h.profile ▸ hd) (hgone d List.mem_cons_self)
  | nil =>
    obtain ⟨hempty, _⟩ | ⟨_, _, _, _, hanswers⟩ := hend
    · rw [hempty] at hsplit
      cases hsplit
    · have hstep := progress_of_answers h.inv hanswers
      exact ⟨_, hstep, h.next hstep hbetween.avail_eq rfl hsplit.symm⟩

theorem Ready.train {run rest : List Nat} (h : Ready q .syncPulseTrain (run ++ rest) s) (hrun : SyncRun q run rest)
    (hlong : q.minSync.toNat < run.length)
    (henough : q.maxSync.toNat + 8 * q.minMsgBytes.toNat ≤ (run ++ rest).length) :
    ∃ t, fsmStep s = some (.progress, t) ∧ Ready q .accumulateWait rest t ∧ t.bitIndex.toNat = 0 := by
  obtain ⟨u, new, hnew, hbetween, hend⟩ := stepSyncPulseTrain s h.inv h.enabled h.state
  rw [hnew h.quiet, List.append_nil, h.samples, h.profile] at hend
  obtain ⟨hshort, _⟩ | ⟨_, retired, hsplit, _, hall, hends, _, _, hanswers, _⟩ := hend
  · exact absurd hshort (Nat.not_lt_of_le henough)
  · obtain rfl : run = retired := hrun.unique ⟨hall, hends⟩ hsplit
    have hstep := progress_of_answers h.inv (hanswers hlong)
    have hrest : rest = buffered u := List.append_cancel_left hsplit
    exact ⟨_, hstep, h.next hstep hbetween.avail_eq rfl hrest.symm, rfl⟩

theorem Ready.wait {l : List Nat} (h : Ready q .accumulateWait l s) (henough : 16 * q.minMsgBytes.toNat ≤ l.length) :
    ∃ t, fsmStep s = some (.progress, t) ∧ Ready q .accumulateData l t ∧ t.bitIndex = s.bitIndex := by
  obtain ⟨u, new, hnew, hbetween, hleft, _, hend⟩ := stepAccumulateWait s h.inv h.enabled h.state
  rw [hnew h.quiet, List.append_nil, h.samples] at hleft
  rw [hleft, h.profile] at hend
  obtain ⟨hshort, _⟩ | ⟨_, hanswers⟩ := hend
  · exact absurd hshort (Nat.not_lt_of_le henough)
  · have hstep := progress_of_answers h.inv hanswers
    exact ⟨_, hstep, h.next hstep hbetween.avail_eq rfl hleft, hbetween.bitIndex_eq⟩

theorem Ready.data {pulses more : List Nat} {d0 d1 : Nat} {bits : List Bool}
    (h : Ready q .accumulateData (pulses ++ d0 :: d1 :: more) s) (hstart : s.bitIndex.toNat = 0)
    (hbits : DecodesTo q pulses bits) (hend : decodePair q d0 d1 = .termination ∨ decodePair q d0 d1 = .invalid)
    (hfits : bits.length ≤ 8 * q.maxMsgBytes.toNat) :
    ∃ t, fsmStep s = some (.progress, t) ∧ Ready q .postData (d0 :: d1 :: more) t ∧ t.bitIndex.toNat = bits.length ∧
      ∀ j b, bits[j]? = some b → messageBit t.pend j t = b := by
  obtain ⟨u, new, packed, rest, hnew, hbetween, ⟨pairs, hsplit, hpairs⟩, hindex, _, hstored, _, _, hhow⟩ :=
    stepAccumulateData s h.inv h.enabled h.state
  rw [hnew h.quiet, List.append_nil, h.samples] at hsplit
  simp only [hstart, Nat.zero_add] at hindex hstored
  rw [h.profile] at hpairs hhow
  obtain ⟨rfl, rfl⟩ | ⟨hless, e0, e1, l, rfl, hbit⟩ := hpairs.compare hend hbits hsplit.symm
  · obtain ⟨hfew, _⟩ | ⟨_, _, _, hcons, hbit, _⟩ | ⟨_, _, _, _, _, hleft, _, hanswers⟩ := hhow
    · simp only [List.length_cons] at hfew
      omega
    · cases hcons
      exact absurd hbit (not_bit_of_end hend)
    · have hstep := progress_of_answers h.inv hanswers
      refine ⟨_, hstep, h.next hstep hbetween.avail_eq rfl hleft, hindex, fun j b hj => ?_⟩
      have hpend : u.pend = s.pend := hbetween.pend_eq
      exact hpend ▸ hstored j b hj
  · obtain ⟨hfew, _⟩ | ⟨_, _, _, _, _, hfull, _⟩ | ⟨_, _, _, hcons, hnobit, _⟩ := hhow
    · simp only [List.length_cons] at hfew
      omega
    · omega
    · cases hcons
      exact absurd hbit (not_bit_of_end hnobit)

/-- The message `bytes` is published and not yet taken (45_message_store R220, R221). -/
structure Holds (bytes : List Byte) (s : State) : Prop where
  avail : s.avail = true
  length : s.readyLen.toNat = bytes.length
  bytes : ∀ i v, bytes[i]? = some v → mbRead (!s.pend) i s = v

/-- A byte of the pending buffer is read off its eight message bits (20_memory R72). -/
theorem mbRead_of_messageBits {bytes : List Byte} {b : Bool}
    (h : ∀ j x, (bitsOf bytes)[j]? = some x → messageBit b j s = x) {i : Nat} {v : Byte} (hv : bytes[i]? = some v) :
    mbRead b i s = v := by
  apply BitVec.eq_of_getLsbD_eq
  intro k hk
  have hbit := h _ _ (bitsOf_getElem? hv (show 7 - k < 8 by omega))
  have hbyte : (8 * i + (7 - k)) / 8 = i := by omega
  have hpos : 7 - (8 * i + (7 - k)) % 8 = k := by omega
  have hback : 7 - (7 - k) = k := by omega
  simpa only [messageBit, hbyte, hpos, hback] using hbit

theorem Ready.publish {l : List Nat} {bytes : List Byte} (h : Ready q .postData l s)
    (hindex : s.bitIndex.toNat = (bitsOf bytes).length)
    (hbits : ∀ j b, (bitsOf bytes)[j]? = some b → messageBit s.pend j s = b) (hpos : 0 < bytes.length)
    (hmin : q.minMsgBytes.toNat ≤ bytes.length) : ∃ t, fsmStep s = some (.progress, t) ∧ Holds bytes t := by
  rw [bitsOf_length] at hindex
  have hlen : s.bitIndex.toNat / 8 = bytes.length := by omega
  obtain ⟨_, _, hgood, _⟩ := stepPostData s _ _ _ _ h.inv h.enabled h.state rfl rfl rfl rfl
  obtain ⟨_, hroom⟩ := hgood (by omega) (by omega) (by rw [hlen, h.profile]; exact hmin)
  obtain ⟨len, hready, hanswers⟩ := hroom h.free
  refine ⟨_, progress_of_answers h.inv hanswers, rfl, hready.trans hlen, fun i v hv => ?_⟩
  rw [Bool.not_not]
  exact mbRead_of_messageBits hbits hv

/-! ### The message held, and taken -/

theorem Holds.evolves {bytes : List Byte} (h : Holds bytes s) (hev : Evolves s t) : Holds bytes t := by
  obtain ⟨havail, hpend, hready, hkept⟩ := hev.store h.avail
  exact ⟨havail, hready ▸ h.length, fun i v hv => by rw [hpend, hkept]; exact h.bytes i v hv⟩

theorem Holds.respondC {bytes : List Byte} (h : Holds bytes s) (r0 r1 : Nat) : Holds bytes (respondC r0 r1 s) :=
  ⟨h.avail, h.length, h.bytes⟩

theorem Holds.readyBytes_eq {bytes : List Byte} (h : Holds bytes s) : readyBytes bytes.length s = bytes := by
  refine List.ext_getElem (by simp [readyBytes]) fun i _ hi => ?_
  simpa [readyBytes] using h.bytes i _ (List.getElem?_eq_getElem hi)

/-- TAKE with room for the message delivers it whole (45_message_store R220). -/
theorem Holds.take {bytes : List Byte} {maxLen : BitVec 16} (h : Holds bytes s) (hr : InRange s)
    (hroom : bytes.length ≤ maxLen.toNat) :
    Does (.take maxLen) .c s { s with avail := false } .ok bytes.length bytes.length bytes := by
  have hfits : bytes.length < 2 ^ 32 := Nat.lt_of_le_of_lt hroom (Nat.lt_trans maxLen.isLt (by decide))
  refine does_of_exec ?_ hfits hfits
  simp only [exec, execTake, completes_eq hr, h.avail, h.length, operandI, Nat.min_eq_left hroom, h.readyBytes_eq,
    Bool.true_eq_false, ↓reduceIte]

/-- Settles O44: five handlers publish the message, those that follow before SERVICE's loop ends keep it (R221). -/
theorem roundTrip : Obligations.RoundTrip := by
  intro s train pulses more d0 d1 bytes maxLen hi he hs ha hq hbuf hall hlong hfirst hdecodes hend hmin hmax henough hroom
  have hvalid := profileValid_iff.mp (hi.profileOk (hi.enabled he))
  obtain ⟨_, ⟨hone, _⟩, _⟩ := hvalid
  have hlen := hdecodes.length
  rw [bitsOf_length] at hlen
  have hrun : SyncRun s.profile train (pulses ++ d0 :: d1 :: more) := ⟨hall, fun d l hcons => by
    cases pulses with
    | nil => simp only [List.length_nil] at hlen; omega
    | cons x pulses => cases hcons; exact hfirst d pulses rfl⟩
  rw [hbuf, List.append_assoc] at henough
  rw [List.append_assoc] at hbuf
  have hready : Ready s.profile .syncSeek (train ++ (pulses ++ d0 :: d1 :: more)) s := ⟨hi, he, hq, ha, rfl, hs, hbuf⟩
  obtain ⟨d, train, rfl⟩ : ∃ d l, train = d :: l := List.exists_cons_of_length_pos (by omega)
  obtain ⟨s1, h1, hready1⟩ := hready.seek (hall d List.mem_cons_self)
  obtain ⟨s2, h2, hready2, hstart2⟩ := hready1.train hrun hlong henough
  obtain ⟨s3, h3, hready3, hstart3⟩ := hready2.wait (by rw [List.length_append]; omega)
  obtain ⟨s4, h4, hready4, hindex, hbits⟩ := hready3.data (hstart3 ▸ hstart2) hdecodes hend
    (by rw [bitsOf_length]; omega)
  obtain ⟨s5, h5, hholds⟩ := hready4.publish hindex hbits (by omega) hmin
  have hinv5 : Inv s5 := (fsmStep_evolves hready4.inv.ringOk h5).inv hready4.inv
  obtain ⟨n, t, hticks⟩ := exists_ticks hinv5.ringOk
  have hrest : Evolves s5 t := hticks.evolves hinv5.ringOk
  have hrange : InRange t := (hrest.inv hinv5).inRange
  have hservice := exec_service hi (n := n + 5) ⟨s1, h1, s2, h2, s3, h3, s4, h4, s5, h5, hticks⟩
  have hheld := (hholds.evolves hrest).respondC (stateCode t.state) (min (n + 5) (2 ^ 32 - 1))
  exact ⟨_, _, hservice, hheld.avail, hheld.take (hrange.respond ..) hroom, rfl⟩

end Sys2Proof.Claims
end

section
/-! The message store: what TAKE delivers (45_message_store R220), and that a published message stays as it is (R221). -/

namespace Sys2Proof.Machine

open Sys2Proof.Claims

variable {s t : State}

/-! ### TAKE -/

@[simp] theorem readyBytes_length (len : Nat) (s : State) : (readyBytes len s).length = len := by simp [readyBytes]

theorem readyBytes_getElem? {len k : Nat} (hk : k < len) (s : State) :
    (readyBytes len s)[k]? = some (mbRead (!s.pend) k s) := by
  simp [readyBytes, hk]

section
variable (hr : InRange s)
include hr

theorem exec_take_of_none (ha : s.avail = false) (maxLen : BitVec 16) :
    exec (.take maxLen) s = .next (respond .c .ok 0 0 [] s) := by
  simp only [exec, execTake, completes_eq hr, ha, ↓reduceIte, respondC]

theorem exec_take (ha : s.avail = true) (maxLen : BitVec 16) :
    exec (.take maxLen) s = .next (respond .c .ok (min s.readyLen.toNat maxLen.toNat) s.readyLen.toNat
      (readyBytes (min s.readyLen.toNat maxLen.toNat) s) { s with avail := false }) := by
  simp only [exec, execTake, completes_eq hr, ha, Bool.true_eq_false, ↓reduceIte, operandI]

end

/-! ### A published message -/

/-- A message is available in `t`, and it is the one that is ready in `s`: the same buffer, length and bytes. -/
def MessageKept (s t : State) : Prop :=
  t.avail = true ∧ t.pend = s.pend ∧ t.readyLen = s.readyLen ∧ ∀ k, mbRead (!t.pend) k t = mbRead (!s.pend) k s

theorem MessageKept.refl (ha : s.avail = true) : MessageKept s s := ⟨ha, rfl, rfl, fun _ => rfl⟩

theorem Evolves.messageKept (h : Evolves s t) (ha : s.avail = true) : MessageKept s t := by
  obtain ⟨havail, hpend, hready, hbytes⟩ := h.store ha
  exact ⟨havail, hpend, hready, fun k => by rw [hpend, hbytes k]⟩

/-- Of the single-atom commands' outcomes only `selected` and `taken` write the message store's registers. -/
theorem Outcomes.messageKept {i : Instr} (h : Outcomes s i t) (ha : s.avail = true) (htake : ∀ maxLen, i ≠ .take maxLen)
    (hno : ∀ pid p, i = .seldev pid → ¬ Accepted s pid p) : MessageKept s t := by
  cases h with
  | selected pid p hl hp => exact absurd ⟨hl, profileValid_iff.mp hp⟩ (hno pid p rfl)
  | taken n => exact absurd rfl (htake n)
  | ended _ _ _ hends =>
    obtain ⟨u, _, _, _, hev, rfl⟩ := hends.evolves
    exact hev.messageKept ha
  | _ => exact MessageKept.refl ha

end Sys2Proof.Machine

namespace Sys2Proof.Claims

open Sys2Proof.Machine

/-- Settles O46: the composite commands and the edges inside them by what `Evolves` keeps of the store, and no branch of
another command writes it but those of TAKE and of an accepted SELDEV. -/
theorem publishedMessageKept : Obligations.PublishedMessageKept := fun _ _ _ hi hexec ha =>
  (exec_outcomes (fun _ => hi.ringOk) hexec).messageKept ha

/-- Settles O45: an equation for each branch of TAKE, and `readyBytes` lists the ready buffer from its first byte. -/
theorem takeEffect : Obligations.TakeEffect := by
  have hword (maxLen : BitVec 16) : Word (0x4000#16 ++ maxLen) .c (.take maxLen) :=
    word_of_halves (i := .take maxLen) rfl (show 0x40#8 ++ 0#8 = 0x4000#16 by decide) rfl
  refine ⟨hword, fun s maxLen hr => ⟨fun ha => ?_, fun ha => ?_⟩⟩
  · exact does_of_exec (exec_take_of_none hr ha maxLen) (by decide) (by decide)
  · have hready : s.readyLen.toNat < 2 ^ 32 := Nat.lt_trans s.readyLen.isLt (by decide)
    have hlen : min s.readyLen.toNat maxLen.toNat < 2 ^ 32 := Nat.lt_of_le_of_lt (Nat.min_le_left ..) hready
    refine ⟨readyBytes (min s.readyLen.toNat maxLen.toNat) s, readyBytes_length .., fun k hk => ?_, ?_⟩
    · exact readyBytes_getElem? (by simpa only [readyBytes_length] using hk) s
    · rw [readyBytes_length]
      exact does_of_exec (exec_take hr ha maxLen) hlen hready

end Sys2Proof.Claims
end

section
/-! Configuration and diagnostics (46_config_diag R231 to R237): what `exec` answers in each branch of these commands, that
every register they read fits a response, and the fields of the STATUS view. -/

namespace Sys2Proof.Machine

open Sys2Proof.Claims

/-! ### The registers that are read -/

/-- The counters have at most 32 bits (00_scope R5, 10_state R43 to R45). -/
theorem InRange.counters_fit {s : State} (h : InRange s) :
    s.attempts < 2 ^ 32 ∧ s.errors < 2 ^ 32 ∧ s.overruns < 2 ^ 32 := by
  obtain ⟨⟨_, _, _, _, hwidth⟩, _, _, _, _, hattempts, herrors, hoverruns, _⟩ := h
  have hmax : 2 ^ s.cfg.ctrW ≤ 2 ^ 32 := Nat.pow_le_pow_right (by decide) hwidth
  exact ⟨hattempts.trans_le hmax, herrors.trans_le hmax, hoverruns.trans_le hmax⟩

/-- The profile registers in the order of the table of 10_state R40. -/
def profileRegisters (s : State) : List Nat :=
  [s.profile.syncW.toNat, s.profile.shortW.toNat, s.profile.longW.toNat, s.profile.termMin.toNat, s.profile.tol.toNat,
   s.profile.minSync.toNat, s.profile.maxSync.toNat, s.profile.minMsgBytes.toNat, s.profile.maxMsgBytes.toNat,
   bitVal s.profile.fbEn, s.profileId.toNat]

theorem profileRegisters_getElem? (s : State) (idx : Nat) : (profileRegisters s)[idx]? = profileField s idx :=
  match idx with
  | 0 | 1 | 2 | 3 | 4 | 5 | 6 | 7 | 8 | 9 | 10 => rfl
  | _ + 11 => rfl

theorem profileField_of_beyond (s : State) {idx : Nat} (h : 10 < idx) : profileField s idx = none :=
  (profileRegisters_getElem? s idx).symm.trans (List.getElem?_eq_none h)

/-- A profile register has at most 16 bits. -/
theorem profileRegisters_fit (s : State) : ∀ v ∈ profileRegisters s, v < 2 ^ 32 := by
  have h16 (x : BitVec 16) : x.toNat < 2 ^ 32 := x.toNat_lt_twoPow_of_le (by decide)
  have h8 (x : BitVec 8) : x.toNat < 2 ^ 32 := x.toNat_lt_twoPow_of_le (by decide)
  simp only [profileRegisters, List.forall_mem_cons]
  exact ⟨h16 _, h16 _, h16 _, h16 _, h16 _, h16 _, h16 _, h8 _, h8 _, bitVal_fits _, h16 _, nofun⟩

/-! ### The STATUS view -/

theorem stateBits_toNat (s : State) : (stateBits s).toNat = stateCode s.state := by
  unfold stateBits
  cases s.state <;> rfl

theorem statusR0_state (s : State) : (statusR0 s).extractLsb' 0 3 = stateBits s := BitVec.extractLsb'_append_eq_right

/-- The flags of the block from bit 3 of `r0` on, and zeros above them (10_state R47). -/
theorem statusR0_getLsbD (s : State) (k : Nat) :
    (statusR0 s).getLsbD (k + 3) = [s.enable, s.avail, s.pend, s.ovf, s.cfgValid, s.oversize].getD k false := by
  have hflags : ¬ k + 3 < 3 := Nat.not_lt.mpr (Nat.le_add_left ..)
  refine BitVec.getLsbD_append.trans ((if_neg hflags).trans ?_)
  simp only [Nat.add_sub_cancel, BitVec.getLsbD_append, BitVec.getLsbD_ofBool]
  match k with
  | 0 | 1 | 2 | 3 | 4 | 5 => simp
  | k + 6 => simp

theorem statusR0_top (s : State) : (statusR0 s).extractLsb' 9 23 = 0 := by
  refine BitVec.eq_of_getLsbD_eq fun i hi => ?_
  rw [BitVec.getLsbD_extractLsb', show 9 + i = i + 6 + 3 by omega, statusR0_getLsbD]
  simp

theorem statusR1_bitIndex (s : State) : (statusR1 s).extractLsb' 0 16 = s.bitIndex := BitVec.extractLsb'_append_eq_right

theorem statusR1_readyLen (s : State) : (statusR1 s).extractLsb' 16 8 = s.readyLen :=
  (BitVec.extractLsb'_append_eq_of_le (by decide)).trans BitVec.extractLsb'_append_eq_right

theorem statusR1_top (s : State) : (statusR1 s).extractLsb' 24 8 = 0 :=
  (BitVec.extractLsb'_append_eq_of_le (by decide)).trans BitVec.extractLsb'_append_eq_left

/-! ### What `exec` answers -/

section
variable {s : State} (hr : InRange s)
include hr

theorem exec_seldev_of_accepted {pid : BitVec 16} {p : Profile} (h : Accepted s pid p) :
    exec (.seldev pid) s = .next (respondC 0 0 (initRadio p pid s.tsNow s)) := by
  obtain ⟨hrow, hvalid⟩ := h
  simp only [exec, execSeldev, completes_eq hr, hrow, profileValid_iff.mpr hvalid, ↓reduceIte]

theorem exec_seldev_of_not_accepted {pid : BitVec 16} (h : ∀ p, ¬ Accepted s pid p) :
    exec (.seldev pid) s = .next (refuseConfig pid s) := by
  simp only [exec, execSeldev, completes_eq hr]
  cases hrow : lookupProfile s.cfg.profiles pid with
  | none => rfl
  | some p =>
    have hinvalid : ¬ profileValid s.cfg p = true := fun hp => h p ⟨hrow, profileValid_iff.mp hp⟩
    exact congrArg Host.Outcome.next (if_neg hinvalid)

theorem exec_stats : exec .stats s = .next (respondC s.attempts s.errors s) := completes_eq hr _

theorem exec_status : exec .status s = .next (respondC (statusR0 s).toNat (statusR1 s).toNat s) := completes_eq hr _

theorem exec_syncx : exec .syncx s = .next (respondC s.syncMin.toNat s.syncMax.toNat s) := completes_eq hr _

theorem exec_ovrcnt : exec .ovrcnt s = .next (respondC s.overruns 0 s) := completes_eq hr _

theorem exec_rdprof_of_beyond {idx : BitVec 16} (h : 10 < idx.toNat) :
    exec (.rdprof idx) s = .next (refuseC .precond s) := by
  simp only [exec, execRdprof, completes_eq hr, operandI, profileField_of_beyond s h]

theorem exec_rdprof {idx : BitVec 16} {v : Nat} (h : profileField s idx.toNat = some v) :
    exec (.rdprof idx) s = .next (respondC v 0 s) := by
  simp only [exec, execRdprof, completes_eq hr, operandI, h]

/-- RDPROF answers a profile register as it is (46_config_diag R236). -/
theorem answers_rdprof {idx : BitVec 16} {v : Nat} (h : profileField s idx.toNat = some v) :
    Answers (.rdprof idx) s s v 0 := by
  have hv : v ∈ profileRegisters s := List.mem_of_getElem? ((profileRegisters_getElem? s idx.toNat).trans h)
  exact does_of_exec (exec_rdprof hr h) (profileRegisters_fit s v hv) (by decide)

end

end Sys2Proof.Machine

namespace Sys2Proof.Claims

open Sys2Proof.Machine

/-- Settles O47: an equation for each of SELDEV's two outcomes. -/
theorem seldevEffect : Obligations.SeldevEffect := by
  have hword (pid : BitVec 16) : Word (0x2100#16 ++ pid) .c (.seldev pid) :=
    word_of_halves (i := .seldev pid) rfl (show 0x21#8 ++ 0#8 = 0x2100#16 by decide) rfl
  exact ⟨hword, fun _ _ hr =>
    ⟨fun _ haccepted => does_of_exec (exec_seldev_of_accepted hr haccepted) (by decide) (by decide),
      fun hnone => does_of_exec (exec_seldev_of_not_accepted hr hnone) (by decide) (by decide)⟩⟩

/-- Settles O48: each of the three answers registers that fit a response. -/
theorem diagnosticReads : Obligations.DiagnosticReads := by
  refine ⟨word_of_decode rfl, word_of_decode rfl, word_of_decode rfl, fun s hr => ?_⟩
  obtain ⟨hattempts, herrors, hoverruns⟩ := hr.counters_fit
  exact ⟨does_of_exec (exec_stats hr) hattempts herrors,
    does_of_exec (exec_syncx hr) (s.syncMin.toNat_lt_twoPow_of_le (by decide)) (s.syncMax.toNat_lt_twoPow_of_le (by decide)),
    does_of_exec (exec_ovrcnt hr) hoverruns (by decide)⟩

/-- Settles O49: STATUS answers `statusR0` and `statusR1`, and each field is the part of the packed word that holds it. -/
theorem statusBits : Obligations.StatusBits := by
  refine ⟨word_of_decode rfl, fun s hr => ⟨statusR0 s, statusR1 s,
    does_of_exec (exec_status hr) (statusR0 s).isLt (statusR1 s).isLt, ?_, statusR0_getLsbD s 0, statusR0_getLsbD s 1,
    statusR0_getLsbD s 2, statusR0_getLsbD s 3, statusR0_getLsbD s 4, statusR0_getLsbD s 5, statusR0_top s,
    statusR1_bitIndex s, statusR1_readyLen s, statusR1_top s⟩⟩
  rw [statusR0_state]
  exact stateBits_toNat s

/-- Settles O50: `profileField` is the table's column of registers, and without a profile all of them are 0. -/
theorem rdprofEffect : Obligations.RdprofEffect := by
  have hword (idx : BitVec 16) : Word (0x5400#16 ++ idx) .c (.rdprof idx) :=
    word_of_halves (i := .rdprof idx) rfl (show 0x54#8 ++ 0#8 = 0x5400#16 by decide) rfl
  refine ⟨hword, fun s idx hr => ⟨fun hidx => refuses_of_exec (exec_rdprof_of_beyond hr hidx), fun v hv => ?_,
    fun hi hcfg hidx => ?_⟩⟩
  · exact answers_rdprof hr ((profileRegisters_getElem? s idx.toNat).symm.trans hv)
  · obtain ⟨hprofile, hid⟩ := hi.unconfigured hcfg
    exact answers_rdprof hr (profileField_zero hprofile hid hidx)

end Sys2Proof.Claims
end

section
/-! Every step answers (60_exceptions R257, R258): `exec` never stops under the invariant, and so neither does `step`, whether
it resets, idles, runs a word or refuses one (70_reset_and_hazards R281, R282). -/

namespace Sys2Proof.Machine

variable {s : State}

/-- A single-atom command completes, and a composite one ends within its fuel (70_reset_and_hazards R296, log entry 8). -/
theorem Inv.exec_answers (h : Inv s) (i : Instr) : ∃ t, exec i s = .next t := by
  have hr := h.ringOk
  cases i with
  | synctrain =>
    obtain ⟨t, ht⟩ := synctrain_some hr
    exact ⟨t, returns_eq h.inRange ht⟩
  | step =>
    obtain ⟨t, ht⟩ := stepOnce_some hr
    exact ⟨t, returns_eq h.inRange ht⟩
  | service =>
    obtain ⟨t, ht⟩ := service_some hr
    exact ⟨t, returns_eq h.inRange ht⟩
  | _ =>
    simp only [exec, execEdge, execCount, execIsfull, execIsempty, execPop, execPeek, execAdv, execEnable, execSeldev,
      execClassify, execDecbit, execTake, execStats, execStatus, execSyncx, execOvrcnt, execRdprof,
      completes_eq h.inRange, Host.Outcome.next.injEq, exists_eq']

/-- With no reset asserted and no word to run, the block is idle (70_reset_and_hazards R282). -/
theorem step_of_idle (hrst : s.rst = none) (hnext : nextCommand s = none) : step s = .next s := by
  simp only [step, hrst, hnext]

theorem nextCommand_eq_none (hp : s.portP = []) (hc : s.portC = []) : nextCommand s = none := by
  unfold nextCommand
  rw [hp, hc]
  cases s.order.headD .c <;> rfl

/-- A word that is no command is refused on its port (30_encoding R110). -/
theorem step_of_illegal {port : Port} {cmd : Command} {u : State} {e : DecodeReject} (hrst : s.rst = none)
    (hnext : nextCommand s = some (port, cmd, u)) (hdec : decode port cmd.word = .error e) (hr : InRange u) :
    step s = .next (illegalCommand port cmd.word u) := by
  simp only [step, hrst, hnext, hdec, completes_eq hr]

/-- The word that is placed is the word that runs next, and nothing else changes (log entry 10). -/
theorem nextCommand_placeWord (w : CmdWord) (s : State) :
    nextCommand (placeWord w s) = some (portFor w, { word := w, ts := s.tsNow }, { s with rst := none }) := by
  unfold placeWord
  cases portFor w with
  | p => exact nextCommand_of_portP rfl (.inl rfl)
  | c => exact nextCommand_of_portC rfl (.inl rfl)

@[simp] theorem placeWord_rst (w : CmdWord) (s : State) : (placeWord w s).rst = none := by
  unfold placeWord
  cases portFor w <;> rfl

theorem withFetchWord_toNat (s : State) (nbits : Nat) (w : CmdWord) : s.withFetchWord nbits w.toNat = placeWord w s := by
  rw [State.withFetchWord, BitVec.ofNat_toNat, BitVec.setWidth_eq]

end Sys2Proof.Machine

namespace Sys2Proof.Claims

open Sys2Proof.Machine

/-- Settles O6: one equation for each branch of `step`, and every command answers in the state in which its word runs. -/
theorem stepAlwaysAnswers : Obligations.StepAlwaysAnswers := by
  intro s hi
  cases hrst : s.rst with
  | some d => exact ⟨_, step_of_rst hrst hi.inRange⟩
  | none =>
    cases hnext : nextCommand s with
    | none => exact ⟨s, step_of_idle hrst hnext⟩
    | some next =>
      obtain ⟨port, cmd, u⟩ := next
      have hu : Inv u := hi.nextCommand hnext
      cases hdec : decode port cmd.word with
      | error e => exact ⟨_, step_of_illegal hrst hnext hdec hu.inRange⟩
      | ok i =>
        obtain ⟨t, ht⟩ := hu.exec_answers i
        exact ⟨t, (step_of_nextCommand hrst hnext hdec).trans ht⟩

/-- Settles O3: the reset table, and the idle branch of `step`. -/
theorem idleUntilCommand : Obligations.IdleUntilCommand :=
  ⟨fun _ _ => ⟨rfl, rfl, rfl, rfl, rfl, rfl, rfl⟩,
    fun _ hrst hp hc => step_of_idle hrst (nextCommand_eq_none hp hc)⟩

/-- Settles O8: a placed word waits first on the port whose turn it then is. -/
theorem placedWordRuns : Obligations.PlacedWordRuns := by
  intro s nbits w i hdec
  rw [withFetchWord_toNat]
  exact step_of_nextCommand (placeWord_rst w s) (nextCommand_placeWord w s) hdec

end Sys2Proof.Claims
end

section
/-! The sticky counters and flag (60_exceptions R258, 10_state R31, R43 to R45), and the producer's frame (R262). -/

namespace Sys2Proof.Machine

open Sys2Proof.Claims

variable {s t : State}

/-! ### The counters -/

/-- No counter is lower in `t` than in `s`, `ovf` is not cleared, and the parameters are the same. -/
structure Sticky (s t : State) : Prop where
  attempts : s.attempts ≤ t.attempts
  errors : s.errors ≤ t.errors
  overruns : s.overruns ≤ t.overruns
  ovf : s.ovf = true → t.ovf = true
  cfg : t.cfg = s.cfg

theorem Sticky.refl (s : State) : Sticky s s := ⟨Nat.le_refl _, Nat.le_refl _, Nat.le_refl _, id, rfl⟩

theorem Evolves.sticky_of_countersOk (h : Evolves s t) (hc : CountersOk s) : Sticky s t := by
  obtain ⟨_, hattempts, herrors, hoverruns⟩ := h.counters hc
  exact ⟨hattempts, herrors, hoverruns, h.sticky, h.cfg⟩

/-- Only an accepted SELDEV clears, only the composite commands count, and a dropped edge sets `ovf` (60_exceptions R258). -/
theorem Outcomes.sticky {i : Instr} (h : Outcomes s i t) (hc : CountersOk s)
    (hno : ∀ pid p, i = .seldev pid → ¬ Accepted s pid p) : Sticky s t := by
  cases h with
  | selected pid p hl hp => exact absurd ⟨hl, profileValid_iff.mp hp⟩ (hno pid p rfl)
  | edgeDropped => exact { Sticky.refl s with ovf := fun _ => rfl }
  | ended _ _ _ hends =>
    obtain ⟨u, _, _, _, hu, rfl⟩ := hends.evolves
    exact { hu.sticky_of_countersOk hc with }
  | _ => exact { Sticky.refl s with }

/-! ### The edge -/

/-- An accepted edge moves `tail`, for the ring has at least two slots (00_scope R5). -/
theorem RingOk.tail_storeEdge_ne (h : RingOk s) (now : Nat) : (storeEdge now s).tail ≠ s.tail := by
  have htwo := h.two
  have htail := h.tail
  rw [storeEdge_tail, addMod_eq htail (by omega)]
  split <;> omega

/-- An edge that is not stored leaves all memories and `tail` alone; one that is stored writes slot `tail`. -/
theorem edge_cases (h : Outcomes s .edge t) :
    (t = { s with ovf := t.ovf, responses := t.responses, events := t.events }) ∨
      t = respond .p .ok 1 0 [] (storeEdge s.tsNow s) := by
  cases h with
  | edgeOff | edgeDropped => exact .inl rfl
  | edgeStored => exact .inr rfl
  | read _ _ _ _ hi => cases hi
  | ended _ _ hi => cases hi

end Sys2Proof.Machine

namespace Sys2Proof.Claims

open Sys2Proof.Machine

/-- Settles O52: the outcomes of `exec` are sticky, and the invariant after the command bounds the counters. -/
theorem countersSticky : Obligations.CountersSticky := by
  intro i s t hi hexec hno
  have houtcome : Outcomes s i t := exec_outcomes (fun _ => hi.ringOk) hexec
  obtain ⟨hattempts, herrors, hoverruns, hovf, hcfg⟩ := houtcome.sticky hi.countersOk hno
  have hbounds : CountersOk t := (houtcome.inv hi).countersOk
  rw [CountersOk, hcfg] at hbounds
  obtain ⟨ha, he, ho⟩ := hbounds
  exact ⟨hattempts, herrors, hoverruns, hovf, Nat.le_sub_one_of_lt ha, Nat.le_sub_one_of_lt he, Nat.le_sub_one_of_lt ho,
    hcfg⟩

/-- Settles O59: an edge is stored, which moves `tail` and writes the slot there, or writes no memory. -/
theorem frameEdge : Obligations.FrameEdge := by
  intro s t hi hexec
  obtain hkept | rfl := edge_cases (outcomes_of_atom rfl hexec)
  · rw [hkept]
    exact ⟨rfl, fun _ _ => rfl, fun _ _ => rfl, fun _ _ => rfl⟩
  · exact ⟨rfl, fun _ hslot => memRead_memWrite_other hi.rbMem.1 hslot.symm _, fun _ _ => rfl,
      fun htail => absurd htail (hi.ringOk.tail_storeEdge_ne s.tsNow)⟩

end Sys2Proof.Claims
end

section
/-! The commands between reset and the first accepted SELDEV (70_reset_and_hazards R283): what their answers read in a state
whose block is that of a reset state. -/

namespace Sys2Proof.Machine

open Sys2Proof.Claims

variable {s : State}

/-- The registers of an unconfigured block that responses show or branches test (column "after rst" of 10_state R59). -/
structure Unconfigured (s : State) : Prop where
  head : s.head = 0
  tail : s.tail = 0
  state : s.state = .syncSeek
  enable : s.enable = false
  avail : s.avail = false
  cfgValid : s.cfgValid = false
  profile : s.profile = Profile.zero
  profileId : s.profileId = 0
  counters : s.attempts = 0 ∧ s.errors = 0 ∧ s.overruns = 0
  extremes : s.syncMin = 32767 ∧ s.syncMax = 0
  status : statusR0 s = 0 ∧ statusR1 s = 0

theorem statusR0_resetOf (c : Config) (d : Draw) : statusR0 (State.resetOf c d) = 0 := by
  simp only [statusR0, stateBits, State.resetOf]
  decide

theorem statusR1_resetOf (c : Config) (d : Draw) : statusR1 (State.resetOf c d) = 0 := by
  simp only [statusR1, State.resetOf]
  decide

theorem unconfigured_of_blockOf {c : Config} {d : Draw} (h : blockOf s = blockOf (State.resetOf c d)) : Unconfigured s where
  head := (congrArg State.head h :)
  tail := (congrArg State.tail h :)
  state := (congrArg State.state h :)
  enable := (congrArg State.enable h :)
  avail := (congrArg State.avail h :)
  cfgValid := (congrArg State.cfgValid h :)
  profile := (congrArg State.profile h :)
  profileId := (congrArg State.profileId h :)
  counters := ⟨(congrArg State.attempts h :), (congrArg State.errors h :), (congrArg State.overruns h :)⟩
  extremes := ⟨(congrArg State.syncMin h :), (congrArg State.syncMax h :)⟩
  status := ⟨(congrArg statusR0 h).trans (statusR0_resetOf c d), (congrArg statusR1 h).trans (statusR1_resetOf c d)⟩

theorem Unconfigured.rbCount_eq (h : Unconfigured s) : rbCount s = 0 := rbCount_of_head_eq_tail (h.head.trans h.tail.symm)

/-- An empty ring is not full, for it has room for a sample (00_scope R5). -/
theorem InRange.ringFull_of_empty (hr : InRange s) (hc : rbCount s = 0) : ringFull s = false := by
  obtain ⟨⟨⟨htwo, _⟩, _⟩, _⟩ := hr
  exact ringFull_eq_false_iff.mpr (by omega)

theorem ringEmpty_iff : ringEmpty s = true ↔ rbCount s = 0 := beq_iff_eq

/-- Retiring no sample is no change (40_ring_buffer R137). -/
theorem InRange.rbAdv_zero (hr : InRange s) : rbAdv 0 s = s := by
  obtain ⟨_, _, hhead, _⟩ := hr
  rw [rbAdv, Nat.add_zero, Nat.mod_eq_of_lt hhead]

theorem setState_self {st : ProtocolState} (h : s.state = st) : { s with state := st } = s := by
  subst h
  rfl

theorem setEnable_self {en : Bool} (h : s.enable = en) : { s with enable := en } = s := by
  subst h
  rfl

/-- An OK response shows the values that its registers hold, in a command that changes nothing. -/
theorem answers_of_exec {i : Instr} {u : State} {r0 r1 v0 v1 : Nat} (h : exec i s = .next (respondC r0 r1 u)) (hu : u = s)
    (h0 : r0 = v0) (h1 : r1 = v1) (hv0 : v0 < 2 ^ 32 := by decide) (hv1 : v1 < 2 ^ 32 := by decide) :
    Answers i s s v0 v1 := by
  subst hu h0 h1
  exact does_of_exec h hv0 hv1

end Sys2Proof.Machine

namespace Sys2Proof.Claims

open Sys2Proof.Machine

/-- Settles O55: each command's own equation, at the registers of an unconfigured block with an empty ring. -/
theorem beforeConfiguration : Obligations.BeforeConfiguration := by
  intro c d s imm hr hb
  have hs : Unconfigured s := unconfigured_of_blockOf hb
  obtain ⟨hattempts, herrors, hoverruns⟩ := hs.counters
  obtain ⟨hmin, hmax⟩ := hs.extremes
  obtain ⟨hstatus0, hstatus1⟩ := hs.status
  have hc : rbCount s = 0 := hs.rbCount_eq
  have hshort (himm : imm ≠ 0) : rbCount s < imm.toNat := by
    rw [hc, Nat.pos_iff_ne_zero]
    exact fun h => himm (BitVec.eq_of_toNat_eq h)
  obtain ⟨hclassify, hsynctrain, hdecbit, henable, _⟩ := needsProfile s imm hr hs.cfgValid
  obtain ⟨hstep, hservice⟩ := disabledStep s hr hs.enable
  rw [setState_self hs.state] at hstep hservice
  exact ⟨does_of_exec (exec_edge_of_disabled hr hs.enable) (by decide) (by decide),
    answers_of_exec (exec_count hr) rfl hc rfl,
    answers_of_exec (exec_isempty hr) rfl (congrArg bitVal (ringEmpty_iff.mpr hc)) rfl,
    answers_of_exec (exec_isfull hr) rfl (congrArg bitVal (hr.ringFull_of_empty hc)) rfl,
    refuses_of_exec (exec_pop_of_empty hr hc),
    refuses_of_exec (exec_peek_of_beyond hr (hc ▸ Nat.zero_le _)),
    fun himm => refuses_of_exec (exec_adv_of_short hr (hshort himm)),
    answers_of_exec (exec_adv hr (Nat.zero_le _)) hr.rbAdv_zero rfl rfl,
    henable, hclassify, hsynctrain, hdecbit,
    answers_of_exec (exec_enable_false hr) (setEnable_self hs.enable) rfl rfl,
    hstep, hservice,
    answers_of_exec (exec_take_of_none hr hs.avail imm) rfl rfl rfl,
    answers_of_exec (exec_stats hr) rfl hattempts herrors,
    answers_of_exec (exec_status hr) rfl (congrArg BitVec.toNat hstatus0) (congrArg BitVec.toNat hstatus1),
    answers_of_exec (exec_syncx hr) rfl (congrArg BitVec.toNat hmin) (congrArg BitVec.toNat hmax),
    answers_of_exec (exec_ovrcnt hr) rfl hoverruns rfl,
    fun hidx => answers_rdprof hr (profileField_zero hs.profile hs.profileId hidx)⟩

end Sys2Proof.Claims
end
